-- ==== Sys2Proof/Word.lean ====
section
/-! DEFINITION. The plain value types of HUFF-CORE (00_scope.md rules R6, R11, R12). -/
namespace Sys2Proof

/-- A byte of DMA memory (rule R62). -/
abbrev Byte := BitVec 8

/-- A register's 32 bits (rule R26). -/
abbrev Word := BitVec 32

/-- A 64-bit register pair (rules R46, R47, R51, R53). -/
abbrev DWord := BitVec 64

/-- A symbol: an unsigned 16-bit value (rule R6). -/
abbrev Symbol := BitVec 16

/-- A bit string, first element first; `true` is the bit 1 (rule R12). -/
abbrev Bits := List Bool

end Sys2Proof
end

