-- ==== Sys2Proof/Config.lean ====
section
/-! DEFINITION. What an implementation fixes (the parameters of 00_scope.md rules R7, R8) and the values the spec leaves
open (opaque constants: nothing can evaluate them or prove a value of them). -/
namespace Sys2Proof

/-- `W`, the packed word width: 32 or 64 bits, no other value (rule R7, 91 N5). -/
inductive WordWidth where
  | w32
  | w64
deriving DecidableEq, Repr

/-- The parameters of one instance, fixed for the life of the hardware (rules R7, R8, R10, R61). `addrWidth` is `AW`;
that it lies in 16 to 32 is `Params.wf` (WellFormed.lean). `regBase` is `REG_BASE`, the DMA address at which the platform
lets the register window be seen, none where it keeps the window out of the DMA space (rules R63, R73, S15; log 12).
DESIGN CHOICE (log 1): they ride in the state, no step changes them. -/
structure Params where
  wordWidth : WordWidth
  addrWidth : Nat
  regBase : Option Nat
deriving DecidableEq, Repr

/-- The defaults: W = 32, AW = 32 (rules R7, R8). REG_BASE has none: DESIGN CHOICE (log 12), no window in the DMA space. -/
def Params.default : Params := ⟨.w32, 32, none⟩

/-- FREE VALUE (rule R38, S1; log 5): what the k-th open register read of a run returns. -/
opaque Config.freeWord : Nat → Word

/-- FREE VALUE (rules R76, R176, S2; log 5, log 6, log 7): what the k-th open byte of a run is. -/
opaque Config.freeByte : Nat → Byte

end Sys2Proof
end

