-- ==== Sys2Proof/Syntax.lean ====
section
/-! DEFINITION. The commands of HUFF-CORE (30_encoding.md rules R87 to R91): its instructions (00_scope.md rule R2). -/
namespace Sys2Proof

/-- The three commands. A command word has no operand fields: its operands are the latched argument registers
(rules R87, R90). -/
inductive Instr where
  /-- ENCODE, 43_encode.md rule R128. -/
  | encode
  /-- DECODE, 44_decode.md rule R139. -/
  | decode
  /-- QUERY, 45_query.md rule R148. -/
  | query
deriving DecidableEq, Repr

/-- Why a CMD word names no command (rule R88). -/
inductive IllegalWord where
  /-- CMD[31:4] is not 0. -/
  | reservedBits
  /-- CMD[31:4] is 0 and CMD[3:0] is none of 1, 2, 3. -/
  | reservedOp
deriving DecidableEq, Repr

/-- What a CMD word decodes to: exactly one row of rule R88. -/
inductive Decoded where
  | command (i : Instr)
  | illegal (why : IllegalWord)
deriving DecidableEq, Repr

end Sys2Proof
end

