-- ==== Sys2Proof/WellFormed.lean ====
section
/-! DEFINITION. The static checks: which instructions and which parameters the spec admits. -/
namespace Sys2Proof

/-- Every command is well formed: a command word has no operand field that could be out of range (rule R87), and every
value of the argument registers is a value of the operand (rules R90, R91). -/
def Instr.wf : Instr → Bool
  | .encode => true
  | .decode => true
  | .query => true

/-- The parameters the spec admits: W is 32 or 64 by its type (rule R7), 16 ≤ AW ≤ 32 (rule R8). -/
def Params.wf (p : Params) : Bool :=
  decide (16 ≤ p.addrWidth) && decide (p.addrWidth ≤ 32)

end Sys2Proof
end

