-- ==== Sys2Proof/Decode.lean ====
section
/-! DEFINITION. The decoder of CMD words, total and rejecting by name (30_encoding.md rules R87 to R89), the encoder, and
the host's reading of an opcode-table row. -/
namespace Sys2Proof

/-- Field RSV, bits 31:4 of a CMD word (rule R87). -/
def rsvField (w : Word) : BitVec 28 := w.extractLsb' 4 28

/-- Field OP, bits 3:0 of a CMD word (rule R87). -/
def opField (w : Word) : BitVec 4 := w.extractLsb' 0 4

/-- The opcode map of rule R88; the reserved-bits test comes before the opcode test. -/
def decode (w : Word) : Decoded :=
  if rsvField w ≠ 0 then .illegal .reservedBits
  else if opField w = 0x1 then .command .encode
  else if opField w = 0x2 then .command .decode
  else if opField w = 0x3 then .command .query
  else .illegal .reservedOp

/-- The OP code of each command (rule R87). -/
def opCode : Instr → BitVec 4
  | .encode => 0x1
  | .decode => 0x2
  | .query => 0x3

/-- The one word of a command: RSV = 0 above OP (rules R87, R88). -/
def encode (i : Instr) : Word := (0 : BitVec 28) ++ opCode i

/-- The word an opcode-table row gives: its `nbits` bits, every bit above them 0. -/
def tableWord (nbits w : Nat) : Word := BitVec.ofNat 32 (w % 2 ^ nbits)

/-- The host's reading of a row of the opcode table (a command is one 32-bit word, bit 0 the least significant). -/
def decodeTableWord (nbits w : Nat) : Option Instr :=
  match decode (tableWord nbits w) with
  | .command i => some i
  | .illegal _ => none

end Sys2Proof
end

