-- ==== Sys2Proof/Machine/Memory.lean ====
section
/-! DEFINITION. Sorted association lists, and DMA memory as one of them (20_memory.md rules R62 to R64, R14). -/
namespace Sys2Proof.Machine

/-- A finite map with natural keys: pairs by strictly rising key. -/
abbrev Assoc (α : Type) := List (Nat × α)

/-- The value at a key, if there is one. -/
def Assoc.find {α : Type} : Assoc α → Nat → Option α
  | [], _ => none
  | (k, v) :: m, a => if a = k then some v else Assoc.find m a

/-- Set the value at a key, keeping the keys rising. -/
def Assoc.put {α : Type} : Assoc α → Nat → α → Assoc α
  | [], a, v => [(a, v)]
  | (k, u) :: m, a, v =>
    if a < k then (a, v) :: (k, u) :: m
    else if a = k then (a, v) :: m
    else (k, u) :: Assoc.put m a v

/-- Take a key out. -/
def Assoc.drop {α : Type} : Assoc α → Nat → Assoc α
  | [], _ => []
  | (k, u) :: m, a => if a = k then Assoc.drop m a else (k, u) :: Assoc.drop m a

/-- The keys rise strictly. -/
abbrev Assoc.Rising {α : Type} (m : Assoc α) : Prop := m.Pairwise (fun x y => x.1 < y.1)

/-- DMA memory: the bytes that differ from what an unlisted address reads as, by rising address. -/
abbrev Memory := List Host.Cell

/-- What a byte nothing has written reads as. DESIGN CHOICE (log 4): 0, as the start states of 95_test_vectors.md L3. -/
def unlistedByte : Byte := 0

/-- One byte of the DMA space (rule R62). -/
def Memory.read (m : Memory) (a : Nat) : Byte := (Assoc.find m a).getD unlistedByte

/-- Write one byte, keeping the canonical form. -/
def Memory.write (m : Memory) (a : Nat) (b : Byte) : Memory :=
  if b = unlistedByte then Assoc.drop m a else Assoc.put m a b

/-- The canonical form: addresses strictly rising, no entry equal to what an unlisted address reads as. -/
abbrev Memory.wf (m : Memory) : Prop :=
  Assoc.Rising m ∧ ∀ c ∈ m, c.2 ≠ unlistedByte

/-- Every listed address is an address of a space of `size` bytes (rule R62). -/
abbrev Memory.within (m : Memory) (size : Nat) : Prop := ∀ c ∈ m, c.1 < size

/-- MemRead(a, n): n bytes, little-endian (rules R14, R64). -/
def memRead (m : Memory) (a : Nat) : Nat → Nat
  | 0 => 0
  | n + 1 => (Memory.read m a).toNat + 256 * memRead m (a + 1) n

/-- MemWrite(a, n, v): n bytes, little-endian (rules R14, R64). -/
def memWrite (m : Memory) (a : Nat) : Nat → Nat → Memory
  | 0, _ => m
  | n + 1, v => memWrite (Memory.write m a (BitVec.ofNat 8 v)) (a + 1) n (v / 256)

/-- n samples from address a on: u16, little-endian (rules R64, R68). -/
def readSamples (m : Memory) : Nat → Nat → List Symbol
  | _, 0 => []
  | a, n + 1 => BitVec.ofNat 16 (memRead m a 2) :: readSamples m (a + 2) n

/-- k packed words of `size` bytes from address a on (rules R64, R65, R68). -/
def readWords (m : Memory) (size : Nat) : Nat → Nat → List Nat
  | _, 0 => []
  | a, k + 1 => memRead m a size :: readWords m size (a + size) k

/-- Consecutive elements of `size` bytes written from address a on. -/
def writeElems (size : Nat) : Memory → Nat → List Nat → Memory
  | m, _, [] => m
  | m, a, v :: vs => writeElems size (memWrite m a size v) (a + size) vs

end Sys2Proof.Machine
end

