-- ==== Sys2Proof/Machine/Tree.lean ====
section
/-! DEFINITION. The Huffman tree and the code table (00_scope.md rules R16, R17; 10_state.md rules R57, R58). -/
namespace Sys2Proof.Machine

/-- A node of the tree. `idx` is its index in the node store of rule R57: leaves 0 to N - 1, then internal nodes in
creation order. DESIGN CHOICE (log 11): the arena is held as the tree it spells, each node with its arena index
(rule R59: the layout is not observable; rule R105 (d): no sharing, no cycle). -/
inductive Tree where
  | leaf (idx : Nat) (sym : Symbol) (freq : Nat)
  | internal (idx : Nat) (freq : Nat) (left right : Tree)
deriving DecidableEq, Repr

/-- `freq(n)` (rule R16). -/
def Tree.freq : Tree → Nat
  | .leaf _ _ f => f
  | .internal _ f _ _ => f

/-- The index in the node store (rule R57). -/
def Tree.idx : Tree → Nat
  | .leaf i _ _ => i
  | .internal i _ _ _ => i

/-- `is_leaf(n)` (rule R16). -/
def Tree.isLeaf : Tree → Bool
  | .leaf _ _ _ => true
  | .internal _ _ _ _ => false

/-- The child a bit selects: 1 right, 0 left (rule R143). A leaf has no child; no rule asks a leaf for one. -/
def Tree.child : Tree → Bool → Tree
  | .leaf i s f, _ => .leaf i s f
  | .internal _ _ l r, b => if b then r else l

/-- The symbols of the leaves, from left to right. -/
def Tree.symbols : Tree → List Symbol
  | .leaf _ s _ => [s]
  | .internal _ _ l r => l.symbols ++ r.symbols

/-- N, the number of leaves (rule R52). -/
def Tree.leafCount : Tree → Nat
  | .leaf _ _ _ => 1
  | .internal _ _ l r => l.leafCount + r.leafCount

/-- The number of internal nodes (rule R105 (a)). -/
def Tree.internalCount : Tree → Nat
  | .leaf _ _ _ => 0
  | .internal _ _ l r => l.internalCount + r.internalCount + 1

/-- Every internal node's frequency is the sum of its children's, and every frequency is positive
(rule R105 (b), (c)). -/
def Tree.weighted : Tree → Bool
  | .leaf _ _ f => decide (0 < f)
  | .internal _ f l r => decide (f = l.freq + r.freq) && l.weighted && r.weighted

/-- One entry of the node store (rule R57). -/
inductive Node where
  | leaf (sym : Symbol) (freq : Nat)
  | internal (freq left right : Nat)
deriving DecidableEq, Repr

/-- The node store of rule R57 that a tree spells, by rising index. -/
def Tree.arena : Tree → Assoc Node
  | .leaf i s f => [(i, .leaf s f)]
  | .internal i f l r =>
    (l.arena ++ r.arena).foldl (fun m e => Assoc.put m e.1 e.2) [(i, .internal f l.idx r.idx)]

/-- The table: a partial map from symbols (their values the keys) to bit strings (rules R17, R58). -/
abbrev CodeTable := Assoc Bits

/-- `code(s)`, none when s is not in dom(table) (rule R17). -/
def CodeTable.code (t : CodeTable) (s : Symbol) : Option Bits := Assoc.find t s.toNat

end Sys2Proof.Machine
end

