-- ==== Sys2Proof/Machine/State.lean ====
section
/-! DEFINITION. The state of HUFF-CORE (10_state.md), as plain data, the reasons a step can stop, and the state after
reset (70_reset_and_hazards.md rules R173, R174). -/
namespace Sys2Proof.Machine

/-- The errors a command can report: each is one (ERR, DETAIL) pair of 60_exceptions.md rules R153 and R154. None of them
stops the machine (rule R151). -/
inductive CmdError where
  | nullSrc
  | nullDst
  | misalignedSrc
  | misalignedDst
  | rangeSrc
  | rangeDst
  | overlap
  | capacity
  | uninit
  | unknownSymbol
  | midCode
  | shortStream
  | leftoverBits
  /-- Raised by BUILD only; no command reaches it (rules R104, R153; log 22). -/
  | emptyAlphabet
  | reservedOp
  | reservedBits
deriving DecidableEq, Repr

/-- The lifecycle state with what it caches (rule R24): Uninitialized holds no tree and no table. -/
inductive Life where
  | uninitialized
  | ready (tree : Tree) (table : CodeTable)
deriving DecidableEq, Repr

/-- The latched command (rule R55): the CMD word and the six argument registers as they stood at acceptance. -/
structure Latch where
  op : Word
  src : Word
  dst : Word
  n : Word
  cap : Word
  bitcnt : DWord
deriving DecidableEq, Repr

/-- The width of a register-port access; only `word` is admitted (rule R181). -/
inductive AccessSize where
  | byte
  | half
  | word
  | double
deriving DecidableEq, Repr

/-- One step of the host (00_scope.md rule R20): a register write or read (42 R116, R117), a read or write of one DMA
byte of its own (log 21), or the reset input going low and high again (70 R172). -/
inductive HostStep where
  | regWrite (size : AccessSize) (offset : Nat) (v : Word)
  | regRead (size : AccessSize) (offset : Nat)
  | memWrite (a : Nat) (b : Byte)
  | memRead (a : Nat)
  | reset
deriving DecidableEq, Repr

/-- Whose move it is (rules R20, R161). -/
inductive Turn where
  | core
  | host (h : HostStep)
deriving DecidableEq, Repr

/-- Why the machine is stuck. None is raised by a command that step runs: a command's errors are statuses (rule R151). -/
inductive Fault where
  /-- A register access that is not an aligned 32-bit one at 0x00 to 0xFC, a byte access to the register window among them:
  the model has no step for it (rule R181, S4; log 8). Raised by the register port's and the memory's host steps. Safe. -/
  | accessNotAdmitted
  /-- A host access to a DMA address at or above 2^AW, which does not exist (rule R62; log 9). Raised by the host's
  memory steps. Safe. -/
  | outsideDmaSpace
  /-- exec of a command while no command is latched: the Completion step is enabled exactly when BUSY = 1 (rule R120;
  log 14). Raised by the three meanings; never by step, which calls them with a latched command. Safe. -/
  | noCommandInFlight
deriving DecidableEq, Repr

/-- Why a step has no meaning. -/
inductive Refusal where
  /-- An instruction that has no meaning yet; raised by exec's arms only. Safe. -/
  | notModelled (mnemonic : String)
  /-- A region of the command covers the register window: the command is not admitted, and S11 says refuse (rules R63, R180;
  log 12). Raised by ENCODE and DECODE, on a latch whose regions pass their own checks. Safe. -/
  | windowInRegion
  /-- The host writes a byte of the input or output region of the command in flight: S11 puts such a run outside every
  claim (rules R76, R180; log 7). Raised by the host's memory-write step. Safe. -/
  | hostBrokeDuty
deriving DecidableEq, Repr

/-- Everything the spec gives the machine; the last four fields and the place of `params` are the model's own
(INVENTORY.md). BUSY is "lat holds a command" (rules R31, R55), READY is a view of `life` (rule R33). -/
structure State where
  /-- W and AW (rules R7, R8). -/
  params : Params
  /-- CTRL.IRQ_EN (rule R30). -/
  irqEn : Bool
  /-- STATUS.DONE (rule R32). -/
  done : Bool
  /-- STATUS.DROPPED (rule R34). -/
  dropped : Bool
  /-- STATUS.ERR and STATUS.DETAIL (rules R35, R36): the last completed command's error, none for OK. -/
  err : Option CmdError
  /-- ARG_SRC (rule R42). -/
  argSrc : Word
  /-- ARG_DST (rule R43). -/
  argDst : Word
  /-- ARG_N (rule R44). -/
  argN : Word
  /-- ARG_CAP (rule R45). -/
  argCap : Word
  /-- ARG_BITCNT_LO (rule R46). -/
  argBitcntLo : Word
  /-- ARG_BITCNT_HI (rule R46). -/
  argBitcntHi : Word
  /-- RES_BITCNT_HI:RES_BITCNT_LO (rule R47). -/
  resBitcnt : DWord
  /-- RES_WORDCNT (rule R48). -/
  resWordcnt : Word
  /-- RES_SYMCNT (rule R49). -/
  resSymcnt : Word
  /-- RES_CODELEN (rule R50). -/
  resCodelen : Word
  /-- RES_CODE_HI:RES_CODE_LO (rule R51). -/
  resCode : DWord
  /-- NSYM bits 16:0 (rule R52). -/
  nsym : BitVec 17
  /-- ERRINFO_HI:ERRINFO_LO (rule R53). -/
  errinfo : DWord
  /-- The latched command, if BUSY = 1 (rules R31, R55). -/
  lat : Option Latch
  /-- life, tree, table (rules R24, R57, R58). -/
  life : Life
  /-- DMA memory (rule R62). -/
  mem : Memory
  /-- The model's own (log 2): the turns still to be taken, oldest first. -/
  turns : List Turn
  /-- The model's own (log 10): the word the register port last returned. -/
  rdata : Word
  /-- The model's own (log 10): the byte the host last read from DMA memory. -/
  mdata : Byte
  /-- The model's own (log 5): how many free values have been drawn. -/
  fresh : Nat
deriving DecidableEq, Repr

/-- The machine right after reset (rules R173, R174), with the default parameters and DMA memory with nothing listed.
The model's own fields start empty or 0 (DESIGN CHOICE: log 2, log 5, log 10). -/
def State.reset : State where
  params := Params.default
  irqEn := false
  done := false
  dropped := false
  err := none
  argSrc := 0
  argDst := 0
  argN := 0
  argCap := 0
  argBitcntLo := 0
  argBitcntHi := 0
  resBitcnt := 0
  resWordcnt := 0
  resSymcnt := 0
  resCodelen := 0
  resCode := 0
  nsym := 0
  errinfo := 0
  lat := none
  life := .uninitialized
  mem := []
  turns := []
  rdata := 0
  mdata := 0
  fresh := 0

end Sys2Proof.Machine
end

