-- ==== Sys2Proof/Machine/Operands.lean ====
section
/-! DEFINITION. Parameters as numbers, the operands of a latched command (30_encoding.md rule R90) and the regions of a
command (20_memory.md rules R68 to R72). -/
namespace Sys2Proof.Machine

/-- W in bits (rule R7). -/
def widthBits : WordWidth → Nat
  | .w32 => 32
  | .w64 => 64

/-- W. -/
def wordBits (p : Params) : Nat := widthBits p.wordWidth

/-- W/8, the size of a packed word in bytes. -/
def wordBytes (p : Params) : Nat := wordBits p / 8

/-- 2^AW, the size of the DMA space in bytes (rules R8, R62). -/
def dmaSize (p : Params) : Nat := 2 ^ p.addrWidth

/-- ⌈a / b⌉ (rule R11). -/
def ceilDiv (a b : Nat) : Nat := (a + (b - 1)) / b

/-- `nw`, the packed word count of B bits (rules R68, R133). -/
def wordCount (p : Params) (bits : Nat) : Nat := ceilDiv bits (wordBits p)

/-- `src` (rule R90). -/
def Latch.srcAddr (l : Latch) : Nat := l.src.toNat

/-- `dst` (rule R90). -/
def Latch.dstAddr (l : Latch) : Nat := l.dst.toNat

/-- `n` of ENCODE (rules R44, R90). -/
def Latch.sampleCount (l : Latch) : Nat := l.n.toNat

/-- `E` of DECODE (rules R44, R90). -/
def Latch.expected (l : Latch) : Nat := l.n.toNat

/-- `cap` of ENCODE, in packed words (rules R45, R90). -/
def Latch.capWords (l : Latch) : Nat := l.cap.toNat

/-- `B` of DECODE (rules R46, R90). -/
def Latch.bitCount (l : Latch) : Nat := l.bitcnt.toNat

/-- `sym` of QUERY: ARG_N[15:0], bits 31:16 ignored (rules R44, R90, R148). -/
def Latch.querySym (l : Latch) : Symbol := l.n.extractLsb' 0 16

/-- A byte range of the DMA space (rule R19). -/
structure Region where
  base : Nat
  len : Nat
deriving DecidableEq, Repr

/-- The byte at `a` is a byte of the region. -/
def Region.holds (r : Region) (a : Nat) : Bool :=
  decide (r.base ≤ a) && decide (a < r.base + r.len)

/-- In range: no wrap-around, on naturals (rule R71). -/
def Region.inRange (p : Params) (r : Region) : Bool := decide (r.base + r.len ≤ dmaSize p)

/-- Two regions overlap (rule R72). -/
def Region.overlaps (r q : Region) : Bool :=
  decide (0 < r.len) && decide (0 < q.len) && decide (r.base < q.base + q.len) && decide (q.base < r.base + r.len)

/-- The register window as a range of the DMA space: 256 bytes at REG_BASE (rules R26, R63, R73; log 12). -/
def windowRegion (p : Params) : Region :=
  match p.regBase with
  | none => ⟨0, 0⟩
  | some b => ⟨b, 256⟩

/-- None of the regions covers a byte of the register window (rule R63). -/
def clearOfWindow (p : Params) (regions : List Region) : Bool :=
  regions.all (fun r => !r.overlaps (windowRegion p))

/-- n samples (rule R68). -/
def sampleRegion (a n : Nat) : Region := ⟨a, 2 * n⟩

/-- nw packed words (rule R68). -/
def packedRegion (p : Params) (a nw : Nat) : Region := ⟨a, nw * wordBytes p⟩

end Sys2Proof.Machine
end

