-- ==== Sys2Proof/Machine/Flags.lean ====
section
/-! DEFINITION. Status and control words: the error codes (60_exceptions.md rules R153, R154), STATUS (10_state.md rules
R31 to R38), CTRL (R30), PARAM (R29) and irq (R60, R165). -/
namespace Sys2Proof.Machine

/-- STATUS.ERR of an error (rule R153). -/
def CmdError.code : CmdError → BitVec 4
  | .nullSrc | .nullDst | .misalignedSrc | .misalignedDst | .rangeSrc | .rangeDst | .overlap | .capacity | .uninit => 1
  | .unknownSymbol => 2
  | .midCode | .shortStream | .leftoverBits => 3
  | .emptyAlphabet => 4
  | .reservedOp | .reservedBits => 5

/-- STATUS.DETAIL of an error (rule R154). -/
def CmdError.detail : CmdError → BitVec 8
  | .nullSrc => 0x01
  | .nullDst => 0x02
  | .misalignedSrc => 0x03
  | .misalignedDst => 0x04
  | .rangeSrc => 0x05
  | .rangeDst => 0x06
  | .overlap => 0x07
  | .capacity => 0x08
  | .uninit => 0x09
  | .unknownSymbol => 0x00
  | .midCode => 0x01
  | .shortStream => 0x02
  | .leftoverBits => 0x03
  | .emptyAlphabet => 0x00
  | .reservedOp => 0x01
  | .reservedBits => 0x02

/-- STATUS.ERR (rule R35): 0 is OK. -/
def State.errField (s : State) : BitVec 4 := (s.err.map CmdError.code).getD 0

/-- STATUS.DETAIL (rule R36): 0 when ERR = 0. -/
def State.detailField (s : State) : BitVec 8 := (s.err.map CmdError.detail).getD 0

/-- STATUS.BUSY: a command is latched (rules R31, R55). -/
def State.busy (s : State) : Bool := s.lat.isSome

/-- `life` = Ready. -/
def Life.isReady : Life → Bool
  | .uninitialized => false
  | .ready _ _ => true

/-- STATUS.READY (rule R33). -/
def State.readyBit (s : State) : Bool := Life.isReady s.life

/-- STATUS as a word: bits 7:4, 15:12 and 31:24 read 0 (rules R31 to R37). -/
def State.statusWord (s : State) : Word :=
  (0 : BitVec 8) ++ s.detailField ++ (0 : BitVec 4) ++ s.errField ++ (0 : BitVec 4) ++ BitVec.ofBool s.dropped
    ++ BitVec.ofBool s.readyBit ++ BitVec.ofBool s.done ++ BitVec.ofBool s.busy

/-- The bits of STATUS that are open while BUSY = 1: DETAIL, ERR and READY (rule R38). -/
def openStatusBits : Word := 0x00FF0F04

/-- What a read of STATUS returns while BUSY = 1, when the open bits are drawn as those of `f` (rule R38). -/
def State.busyStatusWord (s : State) (f : Word) : Word :=
  (s.statusWord &&& ~~~ openStatusBits) ||| (f &&& openStatusBits)

/-- CTRL as a word: bits 31:1 read 0 (rule R30). -/
def State.ctrlWord (s : State) : Word := (BitVec.ofBool s.irqEn).zeroExtend 32

/-- PARAM as a word: W in bits 7:0, AW in bits 15:8, SYMW = 16 in bits 23:16, 0 above (rule R29). -/
def paramWord (p : Params) : Word :=
  (0 : BitVec 8) ++ (16 : BitVec 8) ++ BitVec.ofNat 8 p.addrWidth ++ BitVec.ofNat 8 (wordBits p)

/-- The interrupt output, a level (rules R60, R165). -/
def State.irq (s : State) : Bool := s.done && s.irqEn

/-- A write of CTRL: bit 0 only (rules R30, R116). -/
def State.writeCtrl (s : State) (v : Word) : State := { s with irqEn := v.getLsbD 0 }

/-- A write of STATUS: ones clear DONE (bit 1) and DROPPED (bit 3), nothing else changes (rules R32, R34, R37, R116). -/
def State.writeStatus (s : State) (v : Word) : State :=
  { s with done := s.done && !v.getLsbD 1, dropped := s.dropped && !v.getLsbD 3 }

end Sys2Proof.Machine
end

