-- ==== Sys2Proof/Machine/Ops.lean ====
section
/-! DEFINITION. The shared operations on the state: acceptance, drop, completion with success, completion with an error,
the draw of free values (42_codec_lifecycle.md rules R118 to R122, 60_exceptions.md rule R152). -/
namespace Sys2Proof.Machine

/-- What a step answers. -/
abbrev StepResult := Host.Outcome State Fault Refusal

/-- The arguments of complete_ok (rule R121). The output is `out`, consecutive elements of `outSize` bytes from `outAddr`
on; `commit` is the tree and table to cache, if any. -/
structure CmdOk where
  bitcnt : Nat
  wordcnt : Nat
  symcnt : Nat
  codelen : Nat
  code : Nat
  outAddr : Nat
  outSize : Nat
  out : List Nat
  commit : Option (Tree × CodeTable)
deriving DecidableEq, Repr

/-- How a command ends: complete_ok (rule R121) or raise Err (rules R15, R152). -/
inductive CmdResult where
  | ok (r : CmdOk)
  | error (e : CmdError) (info : Nat)
deriving DecidableEq, Repr

/-- complete_ok(0, 0, 0, 0, 0, [], none). -/
def CmdOk.empty : CmdOk := ⟨0, 0, 0, 0, 0, 0, 1, [], none⟩

/-- The latch acceptance makes of the CMD word and the six argument registers (rules R55, R118). -/
def State.latchOf (s : State) (w : Word) : Latch :=
  { op := w, src := s.argSrc, dst := s.argDst, n := s.argN, cap := s.argCap, bitcnt := s.argBitcntHi ++ s.argBitcntLo }

/-- Acceptance of a CMD write (rule R118): latch, BUSY ← 1, nothing else. -/
def State.accept (s : State) (w : Word) : State := { s with lat := some (s.latchOf w) }

/-- A CMD write while BUSY = 1 (rule R119): DROPPED ← 1, nothing else. -/
def State.dropCmd (s : State) : State := { s with dropped := true }

/-- A write of CMD (rule R116). -/
def State.writeCmd (s : State) (w : Word) : State :=
  if s.busy then s.dropCmd else s.accept w

/-- What every completion does (rule R120): BUSY ← 0, and with it the latch empties (rule R55); DONE ← 1. -/
def State.finish (s : State) : State := { s with lat := none, done := true }

/-- The lifecycle after a command that commits, or does not commit, a cache (rules R121, R137). -/
def committedLife (life : Life) : Option (Tree × CodeTable) → Life
  | none => life
  | some (tree, table) => .ready tree table

/-- NSYM after a command that commits, or does not commit, a cache (rules R52, R121). -/
def committedNsym (nsym : BitVec 17) : Option (Tree × CodeTable) → BitVec 17
  | none => nsym
  | some (tree, _) => BitVec.ofNat 17 tree.leafCount

/-- complete_ok (rule R121) with the completion of rule R120, in one step (log 20); tree, table, `life` and NSYM are
written together (rule R137). -/
def State.completeOk (s : State) (r : CmdOk) : State :=
  ({ s with
      mem := writeElems r.outSize s.mem r.outAddr r.out
      resBitcnt := BitVec.ofNat 64 r.bitcnt
      resWordcnt := BitVec.ofNat 32 r.wordcnt
      resSymcnt := BitVec.ofNat 32 r.symcnt
      resCodelen := BitVec.ofNat 32 r.codelen
      resCode := BitVec.ofNat 64 r.code
      errinfo := 0
      err := none
      life := committedLife s.life r.commit
      nsym := committedNsym s.nsym r.commit } : State).finish

/-- raise Err (rule R152) with the completion of rule R120: the one way an error is taken. -/
def State.raiseErr (s : State) (e : CmdError) (info : Nat) : State :=
  ({ s with
      err := some e
      errinfo := BitVec.ofNat 64 info
      resBitcnt := 0
      resWordcnt := 0
      resSymcnt := 0
      resCodelen := 0
      resCode := 0 } : State).finish

/-- The Completion step's effect, given how the command ends (rule R120). -/
def State.complete (s : State) : CmdResult → State
  | .ok r => s.completeOk r
  | .error e info => s.raiseErr e info

/-- The error of an illegal CMD word (rules R88, R153, R154, R158). -/
def illegalError : IllegalWord → CmdError
  | .reservedBits => .reservedBits
  | .reservedOp => .reservedOp

/-- The completion of an illegal CMD word: ERRINFO is the word (rules R122, R155, R158). -/
def State.completeIllegal (s : State) (l : Latch) (why : IllegalWord) : State :=
  s.raiseErr (illegalError why) l.op.toNat

/-- A command runs on the latch; without one the Completion step is not enabled (rules R55, R120; log 14). A command one of
whose regions covers the register window is not admitted (rule R63, S11; log 12). -/
def withLatch (s : State) (regions : Latch → List Region) (f : Latch → CmdResult) : StepResult :=
  match s.lat with
  | none => .fault .noCommandInFlight
  | some l => if clearOfWindow s.params (regions l) then .next (s.complete (f l)) else .refused .windowInRegion

/-- The return from an error: there is no such operation; the host acknowledges by writing ones to DONE and DROPPED
(rules R93 `ack`, R163). -/
def State.acknowledge (s : State) : State := s.writeStatus 0x0000000A

/-- Draw one free value. -/
def State.draw (s : State) : State := { s with fresh := s.fresh + 1 }

end Sys2Proof.Machine
end

