-- ==== Sys2Proof/Machine/Build.lean ====
section
/-! DEFINITION. COUNT, BUILD and DERIVE, the internal operations of a priming ENCODE (40_frequency_and_tree.md rules R94
to R104, 41_code_table.md rules R108 to R112). -/
namespace Sys2Proof.Machine

/-- F: the symbols that occur (their values the keys) and how often (rules R94, R97); the counts are naturals (log 16). -/
abbrev FreqTable := Assoc Nat

/-- One more occurrence of a symbol (rule R94). -/
def countOne (f : FreqTable) (s : Symbol) : FreqTable :=
  Assoc.put f s.toNat ((Assoc.find f s.toNat).getD 0 + 1)

/-- COUNT (rules R94, R95): from cleared counters, one pass over the samples. -/
def count (samples : List Symbol) : FreqTable := samples.foldl countOne []

/-- One leaf per symbol that occurs, in ascending order of the symbols, indexed from k on (rules R97, R99). -/
def leavesFrom (k : Nat) : FreqTable → List Tree
  | [] => []
  | (s, f) :: rest => .leaf k (BitVec.ofNat 16 s) f :: leavesFrom (k + 1) rest

/-- key(q) < key(r): the lower frequency first, at equal frequency the lower index (rule R100). -/
def keyBelow (q r : Tree) : Bool :=
  decide (q.freq < r.freq) || (decide (q.freq = r.freq) && decide (q.idx < r.idx))

/-- The node of `t :: q` with the least key, and the others (rule R98). -/
def popLeast (t : Tree) : List Tree → Tree × List Tree
  | [] => (t, [])
  | u :: us =>
    let r := popLeast u us
    if keyBelow r.1 t then (r.1, t :: r.2) else (t, u :: us)

/-- One turn of BUILD's loop on (next, Q): pop two, push their parent; nothing while |Q| < 2 (rules R98, R101). -/
def combine : Nat × List Tree → Nat × List Tree
  | (next, t :: us) =>
    match popLeast t us with
    | (_, []) => (next, t :: us)
    | (a, v :: vs) =>
      let r := popLeast v vs
      (next + 1, r.2 ++ [.internal next (a.freq + r.1.freq) a r.1])
  | (next, []) => (next, [])

/-- k turns of the loop. -/
def combineTimes : Nat → Nat × List Tree → Nat × List Tree
  | 0, x => x
  | k + 1, x => combineTimes k (combine x)

/-- BUILD (rules R98, R102 to R104): the loop runs N - 1 times; none is EMPTY_ALPHABET. -/
def build (f : FreqTable) : Option Tree :=
  let leaves := leavesFrom 0 f
  (combineTimes (leaves.length - 1) (leaves.length, leaves)).2.head?

/-- The walk of DERIVE: 0 on the way left, 1 on the way right, a leaf records its path (rules R108, R109). -/
def deriveWalk : Tree → Bits → CodeTable → CodeTable
  | .leaf _ s _, p, table => Assoc.put table s.toNat p
  | .internal _ _ l r, p, table => deriveWalk r (p ++ [true]) (deriveWalk l (p ++ [false]) table)

/-- DERIVE (rule R108). -/
def derive (t : Tree) : CodeTable := deriveWalk t [] []

end Sys2Proof.Machine
end

