-- ==== Sys2Proof/Machine/Bitstream.lean ====
section
/-! DEFINITION. Bits and words: the stream, packing and unpacking (43_encode.md rules R132, R133; 44_decode.md rule R142)
and a code as a number (45_query.md rule R149). -/
namespace Sys2Proof.Machine

/-- The number whose bit i is element i of the list. -/
def bitsToNat : Bits → Nat
  | [] => 0
  | b :: bs => b.toNat + 2 * bitsToNat bs

/-- The lowest k bits of a number, bit 0 first. -/
def natToBits : Nat → Nat → Bits
  | 0, _ => []
  | k + 1, v => (v % 2 == 1) :: natToBits k (v / 2)

/-- S: the codes of the samples, in sample order (rule R132). DEDUCED (log 23): a sample without a code adds nothing. -/
def streamOf (table : CodeTable) (samples : List Symbol) : Bits :=
  samples.flatMap (fun s => (CodeTable.code table s).getD [])

/-- nw packed words of w bits; unused high bits of the last word are 0 (rule R133). -/
def packWords (w : Nat) : Nat → Bits → List Nat
  | 0, _ => []
  | nw + 1, bits => bitsToNat (bits.take w) :: packWords w nw (bits.drop w)

/-- The first B stream bits of packed words of w bits (rule R142). -/
def unpackBits (w b : Nat) (words : List Nat) : Bits :=
  (words.flatMap (natToBits w)).take b

/-- A code as a number, its first bit most significant (rules R148, R149). -/
def codeValue (c : Bits) : Nat := bitsToNat c.reverse

/-- The byte image of a packed buffer at `a`: stream bit i is bit i mod 8 of the byte at a + i div 8, for every W
(rule R66). -/
def streamBit (m : Memory) (a i : Nat) : Bool := (Memory.read m (a + i / 8)).getLsbD (i % 8)

end Sys2Proof.Machine
end

