-- ==== Sys2Proof/Machine/DecodeCmd.lean ====
section
/-! DEFINITION. DECODE (44_decode.md rules R139 to R146). -/
namespace Sys2Proof.Machine

/-- The checks DECODE makes before it looks at E, B and the lifecycle, in order (rules R139, R160). -/
def decodeArgError (p : Params) (l : Latch) : Option CmdError :=
  let input := packedRegion p l.srcAddr (wordCount p l.bitCount)
  let output := sampleRegion l.dstAddr l.expected
  if l.srcAddr = 0 then some .nullSrc
  else if l.dstAddr = 0 then some .nullDst
  else if l.srcAddr % wordBytes p ≠ 0 then some .misalignedSrc
  else if l.dstAddr % 2 ≠ 0 then some .misalignedDst
  else if !input.inRange p then some .rangeSrc
  else if !output.inRange p then some .rangeDst
  else if input.overlaps output then some .overlap
  else none

/-- What the walk gives: the symbols, or an error with the number of bits consumed. -/
inductive WalkResult where
  | ok (out : List Symbol)
  | error (e : CmdError) (consumed : Nat)
deriving DecidableEq, Repr

/-- One symbol emitted before the rest of the walk. -/
def WalkResult.emit (s : Symbol) : WalkResult → WalkResult
  | .ok out => .ok (s :: out)
  | .error e i => .error e i

/-- WALK (rule R143): the bits left, the symbols still expected, the walk position, the bits consumed. DEDUCED (log 17): the
test of the position against the root compares trees. -/
def walk (root : Tree) : Bits → Nat → Tree → Nat → WalkResult
  | [], 0, _, _ => .ok []
  | _ :: _, 0, _, i => .error .leftoverBits i
  | [], _ + 1, pos, i => if pos ≠ root then .error .midCode i else .error .shortStream i
  | b :: bits, e + 1, pos, i =>
    match pos.child b with
    | .leaf _ s _ => WalkResult.emit s (walk root bits e root (i + 1))
    | .internal k f l r => walk root bits (e + 1) (.internal k f l r) (i + 1)

/-- SINGLE for a one-leaf tree (rule R144), WALK otherwise (rule R143). -/
def decodeBits (root : Tree) (bits : Bits) (expected : Nat) : WalkResult :=
  match root with
  | .leaf _ s _ => if bits.length ≠ 0 then .error .leftoverBits 0 else .ok (List.replicate expected s)
  | .internal k f l r => walk (.internal k f l r) bits expected (.internal k f l r) 0

/-- The stream bits of DECODE's input region (rule R142). -/
def inputBits (p : Params) (mem : Memory) (l : Latch) : Bits :=
  unpackBits (wordBits p) l.bitCount
    (readWords mem (wordBytes p) l.srcAddr (wordCount p l.bitCount))

/-- DECODE(src, B, E, dst) (rule R139). -/
def decodeCommand (p : Params) (life : Life) (mem : Memory) (l : Latch) : CmdResult :=
  match decodeArgError p l with
  | some e => .error e 0
  | none =>
    if l.expected = 0 ∧ l.bitCount = 0 then .ok CmdOk.empty
    else
      match life with
      | .uninitialized => .error .uninit 0
      | .ready tree _ =>
        match decodeBits tree (inputBits p mem l) l.expected with
        | .error e consumed => .error e consumed
        | .ok out =>
          .ok { bitcnt := l.bitCount, wordcnt := wordCount p l.bitCount, symcnt := l.expected, codelen := 0, code := 0,
                outAddr := l.dstAddr, outSize := 2, out := out.map BitVec.toNat, commit := none }

/-- The regions of DECODE that pass their checks: none where an argument check answers first, then the words and the samples
(rules R63, R68, R75, R180; log 12). -/
def decodeRegions (p : Params) (l : Latch) : List Region :=
  match decodeArgError p l with
  | some _ => []
  | none => [packedRegion p l.srcAddr (wordCount p l.bitCount), sampleRegion l.dstAddr l.expected]

/-- The meaning of DECODE: its Completion step (rules R120, R139). -/
def execDecode (s : State) : StepResult :=
  withLatch s (decodeRegions s.params) (decodeCommand s.params s.life s.mem)

end Sys2Proof.Machine
end

