-- ==== Sys2Proof/Machine/Encode.lean ====
section
/-! DEFINITION. ENCODE (43_encode.md rules R128 to R138). -/
namespace Sys2Proof.Machine

/-- The checks ENCODE makes before it looks at n, in order (rules R128, R160). -/
def encodeArgError (p : Params) (l : Latch) : Option CmdError :=
  if l.srcAddr = 0 then some .nullSrc
  else if l.dstAddr = 0 then some .nullDst
  else if l.srcAddr % 2 ≠ 0 then some .misalignedSrc
  else if l.dstAddr % wordBytes p ≠ 0 then some .misalignedDst
  else if !(sampleRegion l.srcAddr l.sampleCount).inRange p then some .rangeSrc
  else none

/-- The first sample the table holds no code for, with its index; `i` is the index of the list's head (rule R131). -/
def firstAbsent (table : CodeTable) : Nat → List Symbol → Option (Nat × Symbol)
  | _, [] => none
  | i, s :: rest => if (CodeTable.code table s).isSome then firstAbsent table (i + 1) rest else some (i, s)

/-- The table to encode with and what to commit (rules R130, R131, R137). -/
inductive TableChoice where
  | use (table : CodeTable) (commit : Option (Tree × CodeTable))
  | error (e : CmdError) (info : Nat)
deriving DecidableEq, Repr

/-- Priming builds from the samples; Ready reuses the cached table and tests every sample (rules R130, R131). -/
def chooseTable (life : Life) (samples : List Symbol) : TableChoice :=
  match life with
  | .uninitialized =>
    match build (count samples) with
    | none => .error .emptyAlphabet 0
    | some tree => .use (derive tree) (some (tree, derive tree))
  | .ready _ table =>
    match firstAbsent table 0 samples with
    | some (i, s) => .error .unknownSymbol (i + s.toNat * 2 ^ 32)
    | none => .use table none

/-- From the stream on: capacity, range and overlap checks, then the packed words (rules R128, R133, R135, R136). -/
def emitStream (p : Params) (l : Latch) (bits : Bits) (commit : Option (Tree × CodeTable)) : CmdResult :=
  let nw := wordCount p bits.length
  if nw > l.capWords then .error .capacity 0
  else if !(packedRegion p l.dstAddr nw).inRange p then .error .rangeDst 0
  else if (sampleRegion l.srcAddr l.sampleCount).overlaps (packedRegion p l.dstAddr nw) then .error .overlap 0
  else .ok { bitcnt := bits.length, wordcnt := nw, symcnt := l.sampleCount, codelen := 0, code := 0,
             outAddr := l.dstAddr, outSize := wordBytes p, out := packWords (wordBits p) nw bits, commit := commit }

/-- ENCODE(src, n, dst, cap) (rule R128). -/
def encodeCommand (p : Params) (life : Life) (mem : Memory) (l : Latch) : CmdResult :=
  match encodeArgError p l with
  | some e => .error e 0
  | none =>
    if l.sampleCount = 0 then .ok CmdOk.empty
    else
      let samples := readSamples mem l.srcAddr l.sampleCount
      match chooseTable life samples with
      | .error e info => .error e info
      | .use table commit => emitStream p l (streamOf table samples) commit

/-- ENCODE's output region (rule R68): nw words where an encoding gives B, empty where the command ends before one. -/
def encodeOutRegion (p : Params) (life : Life) (mem : Memory) (l : Latch) : Region :=
  match encodeArgError p l with
  | some _ => ⟨l.dstAddr, 0⟩
  | none =>
    let samples := readSamples mem l.srcAddr l.sampleCount
    match chooseTable life samples with
    | .error _ _ => ⟨l.dstAddr, 0⟩
    | .use table _ => packedRegion p l.dstAddr (wordCount p (streamOf table samples).length)

/-- The regions of ENCODE that pass their checks: none where an argument check answers first, then the samples, and the
words where the command succeeds (rules R63, R68, R75, R180; log 12). -/
def encodeRegions (p : Params) (life : Life) (mem : Memory) (l : Latch) : List Region :=
  match encodeArgError p l with
  | some _ => []
  | none =>
    match encodeCommand p life mem l with
    | .error _ _ => [sampleRegion l.srcAddr l.sampleCount]
    | .ok r => [sampleRegion l.srcAddr l.sampleCount, ⟨r.outAddr, r.outSize * r.out.length⟩]

/-- The meaning of ENCODE: its Completion step (rules R120, R128). -/
def execEncode (s : State) : StepResult :=
  withLatch s (encodeRegions s.params s.life s.mem) (encodeCommand s.params s.life s.mem)

end Sys2Proof.Machine
end

