-- ==== Sys2Proof/Machine/Query.lean ====
section
/-! DEFINITION. QUERY (45_query.md rules R148, R149). -/
namespace Sys2Proof.Machine

/-- QUERY(sym) (rule R148). -/
def queryCommand (life : Life) (l : Latch) : CmdResult :=
  match life with
  | .uninitialized => .error .uninit 0
  | .ready _ table =>
    match CodeTable.code table l.querySym with
    | none => .error .unknownSymbol (l.querySym.toNat * 2 ^ 32)
    | some c =>
      .ok { CmdOk.empty with codelen := c.length, code := codeValue c % 2 ^ 64 }

/-- QUERY has no region (rule R68). -/
def queryRegions (_ : Latch) : List Region := []

/-- The meaning of QUERY: its Completion step (rules R120, R148). -/
def execQuery (s : State) : StepResult :=
  withLatch s queryRegions (queryCommand s.life)

end Sys2Proof.Machine
end

