-- ==== Sys2Proof/Machine/Port.lean ====
section
/-! DEFINITION. The host's steps: the register port (10_state.md rules R26 to R53, 42_codec_lifecycle.md rules R116 to
R119), the host's own DMA accesses (00_scope.md rule R20, 20_memory.md rule R76) and the reset input
(70_reset_and_hazards.md rules R172 to R177). -/
namespace Sys2Proof.Machine

/-- The registers of the map of rule R27. -/
inductive Reg where
  | id | param | ctrl | status | cmd
  | argSrc | argDst | argN | argCap | argBitcntLo | argBitcntHi
  | resBitcntLo | resBitcntHi | resWordcnt | resSymcnt | resCodelen | resCodeLo | resCodeHi
  | nsym | errinfoLo | errinfoHi
  /-- 0x54 to 0xFC. -/
  | reserved
deriving DecidableEq, Repr

/-- The register at an offset (rule R27). -/
def Reg.ofOffset (o : Nat) : Reg :=
  if o = 0x00 then .id else if o = 0x04 then .param else if o = 0x08 then .ctrl
  else if o = 0x0C then .status else if o = 0x10 then .cmd else if o = 0x14 then .argSrc
  else if o = 0x18 then .argDst else if o = 0x1C then .argN else if o = 0x20 then .argCap
  else if o = 0x24 then .argBitcntLo else if o = 0x28 then .argBitcntHi else if o = 0x2C then .resBitcntLo
  else if o = 0x30 then .resBitcntHi else if o = 0x34 then .resWordcnt else if o = 0x38 then .resSymcnt
  else if o = 0x3C then .resCodelen else if o = 0x40 then .resCodeLo else if o = 0x44 then .resCodeHi
  else if o = 0x48 then .nsym else if o = 0x4C then .errinfoLo else if o = 0x50 then .errinfoHi
  else .reserved

/-- The constant of the ID register (rules R2, R28). -/
def idWord : Word := 0x48554646

/-- What a register reads when no bit of it is open (rules R28 to R53, R117). -/
def State.regValue (s : State) : Reg → Word
  | .id => idWord
  | .param => paramWord s.params
  | .ctrl => s.ctrlWord
  | .status => s.statusWord
  | .cmd => 0
  | .argSrc => s.argSrc
  | .argDst => s.argDst
  | .argN => s.argN
  | .argCap => s.argCap
  | .argBitcntLo => s.argBitcntLo
  | .argBitcntHi => s.argBitcntHi
  | .resBitcntLo => s.resBitcnt.extractLsb' 0 32
  | .resBitcntHi => s.resBitcnt.extractLsb' 32 32
  | .resWordcnt => s.resWordcnt
  | .resSymcnt => s.resSymcnt
  | .resCodelen => s.resCodelen
  | .resCodeLo => s.resCode.extractLsb' 0 32
  | .resCodeHi => s.resCode.extractLsb' 32 32
  | .nsym => s.nsym.zeroExtend 32
  | .errinfoLo => s.errinfo.extractLsb' 0 32
  | .errinfoHi => s.errinfo.extractLsb' 32 32
  | .reserved => 0

/-- The registers whose whole value is open while BUSY = 1 (rule R38; DEDUCED, log 19). -/
def Reg.openWhileBusy : Reg → Bool
  | .resBitcntLo | .resBitcntHi | .resWordcnt | .resSymcnt | .resCodelen | .resCodeLo | .resCodeHi
  | .nsym | .errinfoLo | .errinfoHi => true
  | .id | .param | .ctrl | .status | .cmd
  | .argSrc | .argDst | .argN | .argCap | .argBitcntLo | .argBitcntHi | .reserved => false

/-- The accesses rule R181 admits: aligned, 32 bits, offsets 0x00 to 0xFC. -/
def accessAdmitted (size : AccessSize) (o : Nat) : Bool :=
  decide (size = .word) && decide (o % 4 = 0) && decide (o < 0x100)

/-- The effect of a write by register (rule R116): read-only and reserved offsets take none. -/
def State.writeReg (s : State) (r : Reg) (v : Word) : State :=
  match r with
  | .ctrl => s.writeCtrl v
  | .status => s.writeStatus v
  | .cmd => s.writeCmd v
  | .argSrc => { s with argSrc := v }
  | .argDst => { s with argDst := v }
  | .argN => { s with argN := v }
  | .argCap => { s with argCap := v }
  | .argBitcntLo => { s with argBitcntLo := v }
  | .argBitcntHi => { s with argBitcntHi := v }
  | .id | .param | .resBitcntLo | .resBitcntHi | .resWordcnt | .resSymcnt | .resCodelen | .resCodeLo | .resCodeHi
  | .nsym | .errinfoLo | .errinfoHi | .reserved => s

/-- The effect of a read (rules R38, R117): only what the port returns, and a free value drawn where bits are open. -/
def State.readReg (s : State) (r : Reg) : State :=
  if s.busy && r.openWhileBusy then { s.draw with rdata := Config.freeWord s.fresh }
  else if s.busy && decide (r = .status) then { s.draw with rdata := s.busyStatusWord (Config.freeWord s.fresh) }
  else { s with rdata := s.regValue r }

/-- WRITE (rules R116, R181). -/
def hostRegWrite (size : AccessSize) (o : Nat) (v : Word) (s : State) : StepResult :=
  if accessAdmitted size o then .next (s.writeReg (Reg.ofOffset o) v) else .fault .accessNotAdmitted

/-- READ (rules R117, R181). -/
def hostRegRead (size : AccessSize) (o : Nat) (s : State) : StepResult :=
  if accessAdmitted size o then .next (s.readReg (Reg.ofOffset o)) else .fault .accessNotAdmitted

/-- The input region of a latched command (rule R68); none for QUERY and for an illegal word (rule R158). -/
def inputRegion (p : Params) (l : Latch) : Region :=
  match decode l.op with
  | .command .encode => sampleRegion l.srcAddr l.sampleCount
  | .command .decode => packedRegion p l.srcAddr (wordCount p l.bitCount)
  | .command .query => ⟨0, 0⟩
  | .illegal _ => ⟨0, 0⟩

/-- The output region of a latched command (rule R68); none for QUERY and for an illegal word (rule R158). -/
def outputRegion (p : Params) (life : Life) (mem : Memory) (l : Latch) : Region :=
  match decode l.op with
  | .command .encode => encodeOutRegion p life mem l
  | .command .decode => sampleRegion l.dstAddr l.expected
  | .command .query => ⟨0, 0⟩
  | .illegal _ => ⟨0, 0⟩

/-- The byte at `a` lies in the input region of the command in flight. -/
def State.inFlightInput (s : State) (a : Nat) : Bool :=
  match s.lat with
  | none => false
  | some l => (inputRegion s.params l).holds a

/-- The byte at `a` lies in the output region of the command in flight. -/
def State.inFlightOutput (s : State) (a : Nat) : Bool :=
  match s.lat with
  | none => false
  | some l => (outputRegion s.params s.life s.mem l).holds a

/-- The host writes one byte of DMA memory: never into a region of the command in flight (rules R76, R180, S11; log 7). A
byte access to the register window is no memory access and not admitted (rule R181; log 8). -/
def hostMemWrite (a : Nat) (b : Byte) (s : State) : StepResult :=
  if a ≥ dmaSize s.params then .fault .outsideDmaSpace
  else if (windowRegion s.params).holds a then .fault .accessNotAdmitted
  else if s.inFlightInput a || s.inFlightOutput a then .refused .hostBrokeDuty
  else .next { s with mem := Memory.write s.mem a b }

/-- The host reads one byte of DMA memory: an output byte of the command in flight reads any value (rule R76; log 7). A byte
access to the register window is not admitted (rule R181; log 8). -/
def hostMemRead (a : Nat) (s : State) : StepResult :=
  if a ≥ dmaSize s.params then .fault .outsideDmaSpace
  else if (windowRegion s.params).holds a then .fault .accessNotAdmitted
  else if s.inFlightOutput a then .next { s.draw with mdata := Config.freeByte s.fresh }
  else .next { s with mdata := Memory.read s.mem a }

/-- n bytes from `a` on get free values, but for those of `keep` and those outside the space (rule R176; log 6). -/
def scramble (keep : Region) (size : Nat) : Memory → Nat → Nat → Nat → Memory
  | m, _, 0, _ => m
  | m, a, n + 1, k =>
    scramble keep size
      (if a < size && !keep.holds a then Memory.write m a (Config.freeByte k) else m) (a + 1) n (k + 1)

/-- Reset (rules R172 to R177): a new codec; DMA memory unchanged but for the output bytes of a command in flight, which
hold free values. The parameters, the turns and what was last read stay (DESIGN CHOICE, log 18). -/
def State.hwReset (s : State) : State :=
  let out : Region :=
    match s.lat with
    | none => ⟨0, 0⟩
    | some l => outputRegion s.params s.life s.mem l
  let input : Region :=
    match s.lat with
    | none => ⟨0, 0⟩
    | some l => inputRegion s.params l
  { State.reset with
    params := s.params
    mem := scramble input (dmaSize s.params) s.mem out.base out.len s.fresh
    turns := s.turns
    rdata := s.rdata
    mdata := s.mdata
    fresh := s.fresh + out.len }

/-- One host step (rule R20). -/
def hostStep (h : HostStep) (s : State) : StepResult :=
  match h with
  | .regWrite size o v => hostRegWrite size o v s
  | .regRead size o => hostRegRead size o s
  | .memWrite a b => hostMemWrite a b s
  | .memRead a => hostMemRead a s
  | .reset => .next s.hwReset

end Sys2Proof.Machine
end

