-- ==== Sys2Proof/Machine/Script.lean ====
section
/-! DEFINITION. The host script syntax (30_encoding.md rules R92, R93): each line is the list of turns it stands for. -/
namespace Sys2Proof.Machine

/-- `wr NAME, v`, the transaction (W, offset, v) (rule R92). -/
def scriptWr (o : Nat) (v : Word) : List Turn := [.host (.regWrite .word o v)]

/-- `rd NAME`, the transaction (R, offset, ·) (rule R92). -/
def scriptRd (o : Nat) : List Turn := [.host (.regRead .word o)]

/-- `wait` (rule R92): reads of STATUS until BUSY reads 0: some polls, the completion, the last read (log 24). -/
def scriptWait (polls : Nat) : List Turn :=
  (List.replicate polls (scriptRd 0x0C)).flatten ++ [.core] ++ scriptRd 0x0C

/-- `encode src, n, dst, cap` (rule R93). -/
def scriptEncode (src n dst cap : Word) (polls : Nat) : List Turn :=
  scriptWr 0x14 src ++ scriptWr 0x1C n ++ scriptWr 0x18 dst ++ scriptWr 0x20 cap ++ scriptWr 0x10 0x1 ++ scriptWait polls

/-- `decode src, B, E, dst` (rule R93). -/
def scriptDecode (src : Word) (b : DWord) (e dst : Word) (polls : Nat) : List Turn :=
  scriptWr 0x14 src ++ scriptWr 0x24 (b.extractLsb' 0 32) ++ scriptWr 0x28 (b.extractLsb' 32 32) ++ scriptWr 0x1C e
    ++ scriptWr 0x18 dst ++ scriptWr 0x10 0x2 ++ scriptWait polls

/-- `query sym` (rule R93). -/
def scriptQuery (sym : Word) (polls : Nat) : List Turn :=
  scriptWr 0x1C sym ++ scriptWr 0x10 0x3 ++ scriptWait polls

/-- `ack` (rule R93): clears DONE and DROPPED. -/
def scriptAck : List Turn := scriptWr 0x0C 0x0000000A

end Sys2Proof.Machine
end

