-- ==== Sys2Proof/Machine/Step.lean ====
section
/-! DEFINITION. One step of the machine: the next turn is taken (00_scope.md rule R20, 42_codec_lifecycle.md rules R120,
R122, R124). -/
namespace Sys2Proof.Machine

/-- The Core's turn: the completion of the command in flight (rules R120, R122). Idle when BUSY = 0 (rule R177; log 3). -/
def coreTurn (s : State) : Host.Outcome State Fault Refusal :=
  match s.lat with
  | none => .next s
  | some l =>
    match decode l.op with
    | .command i => exec i s
    | .illegal why => .next (s.completeIllegal l why)

/-- The next turn listed, or the Core's when none is (rule R124; log 2, log 3). -/
def step (s : State) : Host.Outcome State Fault Refusal :=
  match s.turns with
  | [] => coreTurn s
  | .core :: rest => coreTurn { s with turns := rest }
  | .host h :: rest => hostStep h { s with turns := rest }

/-- s with the command word of an opcode-table row accepted and the Core to move: the very next step runs it
(rule R118; log 13). -/
def State.withFetchWord (s : State) (nbits w : Nat) : State :=
  { s.accept (tableWord nbits w) with turns := .core :: s.turns }

end Sys2Proof.Machine
end

