-- ==== Sys2Proof/Safety.lean ====
section
/-! DEFINITION. The turns the model has a step for, the conditions under which a command takes effect, and the
invariant of the machine, in the terms the statements use. -/
namespace Sys2Proof.Machine

/-! ### The turns the model has a step for -/

/-- The regions of a command that pass the command's own checks (rules R63, R68, R180; log 12). -/
def usedRegions (i : Instr) (s : State) (l : Latch) : List Region :=
  match i with
  | .encode => encodeRegions s.params s.life s.mem l
  | .decode => decodeRegions s.params l
  | .query => queryRegions l

/-- The command is admitted: none of these regions covers the register window (rule R63; log 12). -/
def commandAdmitted (i : Instr) (s : State) (l : Latch) : Bool := clearOfWindow s.params (usedRegions i s l)

/-- The latched word's command is admitted; an illegal word always is (rules R63, R158). -/
def wordAdmitted (s : State) (l : Latch) : Bool :=
  match decode l.op with
  | .command i => commandAdmitted i s l
  | .illegal _ => true

/-- The model has a step for the turn. Every other turn breaks a duty of rules R63, R180 or R181 or leaves the DMA space (rule
R62; log 7, log 8, log 9, log 12). A host read of an output byte in flight breaks one too, and the model takes it all the same,
with a free byte (rule R76; log 7). -/
def turnAdmitted (s : State) : Turn → Bool
  | .core =>
    match s.lat with
    | none => true
    | some l => wordAdmitted s l
  | .host (.regWrite size o _) => accessAdmitted size o
  | .host (.regRead size o) => accessAdmitted size o
  | .host (.memWrite a _) =>
    decide (a < dmaSize s.params) && !(windowRegion s.params).holds a && !(s.inFlightInput a || s.inFlightOutput a)
  | .host (.memRead a) => decide (a < dmaSize s.params) && !(windowRegion s.params).holds a
  | .host .reset => true

/-! ### The conditions under which a command takes effect -/

/-- Two byte ranges share no byte: the negation of rule R72. -/
abbrev RangesDisjoint (a la b lb : Nat) : Prop := la = 0 ∨ lb = 0 ∨ b + lb ≤ a ∨ a + la ≤ b

/-- A byte range shares no byte with the 256 bytes of the register window (rules R26, R63, R73; log 12). -/
abbrev WindowClear (p : Params) (a la : Nat) : Prop := ∀ b ∈ p.regBase, RangesDisjoint a la b 256

/-- ENCODE's checks before it looks at n pass (rules R69, R70, R71, R128). -/
abbrev EncodeArgsOk (p : Params) (l : Latch) : Prop :=
  l.src.toNat ≠ 0 ∧ l.dst.toNat ≠ 0 ∧ l.src.toNat % 2 = 0 ∧ l.dst.toNat % wordBytes p = 0 ∧
    l.src.toNat + 2 * l.n.toNat ≤ dmaSize p

/-- ENCODE's checks of the output for a stream of `b` bits pass (rules R71, R72, R128, R136). -/
abbrev EncodeFits (p : Params) (l : Latch) (b : Nat) : Prop :=
  wordCount p b ≤ l.cap.toNat ∧ l.dst.toNat + wordCount p b * wordBytes p ≤ dmaSize p ∧
    RangesDisjoint l.src.toNat (2 * l.n.toNat) l.dst.toNat (wordCount p b * wordBytes p)

/-- DECODE's checks before it looks at E, B and the lifecycle pass (rules R69 to R72, R139). -/
abbrev DecodeArgsOk (p : Params) (l : Latch) : Prop :=
  l.src.toNat ≠ 0 ∧ l.dst.toNat ≠ 0 ∧ l.src.toNat % wordBytes p = 0 ∧ l.dst.toNat % 2 = 0 ∧
    l.src.toNat + wordCount p l.bitcnt.toNat * wordBytes p ≤ dmaSize p ∧
    l.dst.toNat + 2 * l.n.toNat ≤ dmaSize p ∧
    RangesDisjoint l.src.toNat (wordCount p l.bitcnt.toNat * wordBytes p) l.dst.toNat (2 * l.n.toNat)

/-- ENCODE's input region and its output region for a stream of `b` bits do not cover the register window (rules R63, R68). -/
abbrev EncodeClear (p : Params) (l : Latch) (b : Nat) : Prop :=
  WindowClear p l.src.toNat (2 * l.n.toNat) ∧ WindowClear p l.dst.toNat (wordCount p b * wordBytes p)

/-- DECODE's regions do not cover the register window (rules R63, R68). -/
abbrev DecodeClear (p : Params) (l : Latch) : Prop :=
  WindowClear p l.src.toNat (wordCount p l.bitcnt.toNat * wordBytes p) ∧ WindowClear p l.dst.toNat (2 * l.n.toNat)

/-- ENCODE's samples, as they stand in DMA memory (rules R64, R68). -/
def State.samples (s : State) (l : Latch) : List Symbol := readSamples s.mem l.src.toNat l.n.toNat

/-- DECODE's stream: the first B bits of the byte image of its input region (rules R66, R142). -/
def State.stream (s : State) (l : Latch) : Bits := (List.range l.bitcnt.toNat).map (streamBit s.mem l.src.toNat)

/-- The codes of some symbols, one after the other, an absent symbol giving nothing (rule R132). -/
def codesOf (table : CodeTable) (xs : List Symbol) : Bits := xs.flatMap (fun x => (CodeTable.code table x).getD [])

/-! ### The shape of a tree -/

/-- The leaves, from left to right (rule R57). -/
def Tree.leaves : Tree → List Tree
  | .leaf i x f => [.leaf i x f]
  | .internal _ _ l r => l.leaves ++ r.leaves

/-- Every left child has the strictly lower key, frequency and then index, than its sibling (rules R100, R101). -/
def Tree.siblingsOrdered : Tree → Bool
  | .leaf _ _ _ => true
  | .internal _ _ l r =>
    decide (l.freq < r.freq ∨ (l.freq = r.freq ∧ l.idx < r.idx)) && l.siblingsOrdered && r.siblingsOrdered

/-! ### Frames -/

/-- What no command changes: the parameters, CTRL, DROPPED, the argument registers, and the model's own fields
(rules R41, R54, R120). -/
abbrev State.SameHostSide (s t : State) : Prop :=
  t.params = s.params ∧ t.irqEn = s.irqEn ∧ t.dropped = s.dropped ∧ t.argSrc = s.argSrc ∧ t.argDst = s.argDst ∧
    t.argN = s.argN ∧ t.argCap = s.argCap ∧ t.argBitcntLo = s.argBitcntLo ∧ t.argBitcntHi = s.argBitcntHi ∧
    t.turns = s.turns ∧ t.rdata = s.rdata ∧ t.mdata = s.mdata ∧ t.fresh = s.fresh

/-- The state a command leaves when it ends with an error and no result (rule R152). -/
def State.failedWith (s : State) (e : CmdError) (info : DWord) : State :=
  { s with
    lat := none, done := true, err := some e, errinfo := info
    resBitcnt := 0, resWordcnt := 0, resSymcnt := 0, resCodelen := 0, resCode := 0 }

/-- The state a command leaves when it succeeds with every result 0 and writes nothing (rule R121). -/
def State.succeededEmpty (s : State) : State :=
  { s with
    lat := none, done := true, err := none, errinfo := 0
    resBitcnt := 0, resWordcnt := 0, resSymcnt := 0, resCodelen := 0, resCode := 0 }

/-! ### The invariant -/

/-- What the cache and NSYM agree on (rules R24, R52, R105, R109): in Ready the tree has distinct symbols, weights that
add up and fit 32 bits, the table is the one DERIVE makes of it, and NSYM is the number of its leaves. -/
def State.CacheInv (s : State) : Prop :=
  match s.life with
  | .uninitialized => s.nsym = 0
  | .ready tree table =>
    tree.symbols.Nodup ∧ tree.weighted = true ∧ tree.freq < 2 ^ 32 ∧ table = derive tree ∧
      s.nsym = BitVec.ofNat 17 tree.leafCount

/-- The invariant of the machine: admitted parameters, memory in canonical form and inside the DMA space, a coherent
cache. -/
def State.Inv (s : State) : Prop :=
  s.params.wf = true ∧ Memory.wf s.mem ∧ Memory.within s.mem (dmaSize s.params) ∧ s.CacheInv

end Sys2Proof.Machine
end

