-- ==== Sys2Proof/Certificates/Slice0/Obligations.lean ====
section
/-! DEFINITION. The statements for the provers. Each docstring says which rules of spec/ it formalises. A statement about a
free value holds for every value of it: freeWord and freeByte are opaque. -/

open Sys2Proof Sys2Proof.Machine

/-! ### The command word -/

/-- Rule R88: the opcode map, row by row, over every 32-bit word; RSV is w div 16, OP is w mod 16; an illegal word's error is
ILLEGAL_COMMAND (5) with the DETAIL of its row. -/
def Obligations.OpcodeMapIsTotal : Prop :=
  ∀ w : Word,
    (w.toNat / 16 ≠ 0 → decode w = .illegal .reservedBits) ∧
    (w.toNat / 16 = 0 → w.toNat % 16 = 1 → decode w = .command .encode ∧ w = 0x00000001) ∧
    (w.toNat / 16 = 0 → w.toNat % 16 = 2 → decode w = .command .decode ∧ w = 0x00000002) ∧
    (w.toNat / 16 = 0 → w.toNat % 16 = 3 → decode w = .command .query ∧ w = 0x00000003) ∧
    (w.toNat / 16 = 0 → w.toNat % 16 = 0 ∨ 4 ≤ w.toNat % 16 → decode w = .illegal .reservedOp) ∧
    (∀ why, (illegalError why).code = 5 ∧
      (illegalError why).detail = match why with | .reservedBits => 0x02 | .reservedOp => 0x01)

/-- Decode and encode agree, both ways: every command's word decodes to it, and no other word does. -/
def Obligations.DecodeInvertsEncode : Prop :=
  ∀ i : Instr, i.wf = true → ∀ w : Word, decode w = .command i ↔ w = encode i

/-- Words written out from rule R88 and the vectors C1 to C4 decode to what they stand for. -/
def Obligations.WrittenWordsDecode : Prop :=
  decode 0x00000001 = .command .encode ∧ decode 0x00000002 = .command .decode ∧ decode 0x00000003 = .command .query ∧
    decode 0x00000000 = .illegal .reservedOp ∧ decode 0x0000000F = .illegal .reservedOp ∧
    decode 0x00000011 = .illegal .reservedBits ∧ decode 0x80000001 = .illegal .reservedBits

/-! ### Steps -/

/-- A step runs the latched command: where the next turn is the Core's, listed or because none is, and the latched word
decodes to i, step is exec of i (rules R120, R122; the turn list is the model's, log 2). -/
def Obligations.StepRunsLatchedCommand : Prop :=
  ∀ (s : State) (l : Latch) (i : Instr), s.lat = some l → decode l.op = .command i →
    (s.turns = [] → step s = exec i s) ∧
    (∀ rest, s.turns = .core :: rest → step s = exec i { s with turns := rest })

/-- A step takes the host's turn when it is listed first; an idle Core does nothing, and where its turn is listed only the list
is one turn shorter (rules R161, R177; log 2, log 3). -/
def Obligations.StepTakesListedTurn : Prop :=
  (∀ (s : State) (h : HostStep) (rest : List Turn), s.turns = .host h :: rest → step s = hostStep h { s with turns := rest }) ∧
  (∀ s : State, s.lat = none → s.turns = [] → step s = .next s) ∧
  (∀ (s : State) (rest : List Turn), s.lat = none → s.turns = .core :: rest → step s = .next { s with turns := rest })

/-- Rule R89: every word but the three completes with ILLEGAL_COMMAND, with the DETAIL of its row and the word in ERRINFO;
nothing else of the machine changes. The completion is the Core's turn, and the step that takes it, listed first or because no
turn is (the turn list is the model's, log 2, log 3). -/
def Obligations.IllegalWordCompletes : Prop :=
  ∀ (s : State) (l : Latch) (e : CmdError), s.lat = some l → l.op ≠ 0x1 → l.op ≠ 0x2 → l.op ≠ 0x3 →
    e = (if l.op.toNat / 16 ≠ 0 then .reservedBits else .reservedOp) →
    coreTurn s = .next (s.failedWith e (l.op.zeroExtend 64)) ∧
    (s.turns = [] → step s = .next (s.failedWith e (l.op.zeroExtend 64))) ∧
    (∀ rest, s.turns = .core :: rest → step s = .next ({ s with turns := rest }.failedWith e (l.op.zeroExtend 64))) ∧
    (s.failedWith e (l.op.zeroExtend 64)).errField = 5 ∧
    (s.failedWith e (l.op.zeroExtend 64)).detailField = (if l.op.toNat / 16 ≠ 0 then 0x02 else 0x01)

/-- Rule R118: a CMD write while BUSY = 0 latches the word and the six argument registers, sets BUSY and changes nothing
else, whatever the word. -/
def Obligations.CmdWriteAccepts : Prop :=
  ∀ (s : State) (w : Word), s.lat = none → ∃ l : Latch,
    hostRegWrite .word 0x10 w s = .next { s with lat := some l } ∧
    l.op = w ∧ l.src = s.argSrc ∧ l.dst = s.argDst ∧ l.n = s.argN ∧ l.cap = s.argCap ∧
    l.bitcnt.toNat = s.argBitcntHi.toNat * 2 ^ 32 + s.argBitcntLo.toNat ∧
    ({ s with lat := some l } : State).statusWord.getLsbD 0 = true

/-- Rule R119: a CMD write while BUSY = 1 sets DROPPED and does nothing else; the command in flight ends as it would
have. -/
def Obligations.CmdWriteWhileBusyIsDropped : Prop :=
  ∀ (s : State) (l : Latch) (w : Word), s.lat = some l →
    hostRegWrite .word 0x10 w s = .next { s with dropped := true } ∧
    ∀ t, coreTurn s = .next t → coreTurn { s with dropped := true } = .next { t with dropped := true }

/-- Rules R55, R183: a write of an argument register while a command is in flight changes that register and not the
command: it ends as it would have, the register keeping the new value for the next command. -/
def Obligations.ArgWritesMissTheCommandInFlight : Prop :=
  ∀ (s : State) (l : Latch) (o : Nat) (v : Word), s.lat = some l → o ∈ [0x14, 0x18, 0x1C, 0x20, 0x24, 0x28] →
    ∃ s', hostRegWrite .word o v s = .next s' ∧ s'.regValue (Reg.ofOffset o) = v ∧ s'.lat = some l ∧
      ∀ t, coreTurn s = .next t → coreTurn s' = .next
        { t with argSrc := s'.argSrc, argDst := s'.argDst, argN := s'.argN, argCap := s'.argCap,
                 argBitcntLo := s'.argBitcntLo, argBitcntHi := s'.argBitcntHi }

/-- Rules R31, R55: no host turn but a reset changes the latched command: BUSY stays 1 until the completion. -/
def Obligations.LatchHeldUntilCompletion : Prop :=
  ∀ (s t : State) (l : Latch) (h : HostStep), s.lat = some l → h ≠ .reset → hostStep h s = .next t → t.lat = some l

/-! ### The register port -/

/-- Rule R116: the effect of a write, register by register; every other admitted offset takes none. -/
def Obligations.RegisterWriteEffects : Prop :=
  ∀ (s : State) (v : Word),
    hostRegWrite .word 0x08 v s = .next { s with irqEn := v.getLsbD 0 } ∧
    hostRegWrite .word 0x0C v s = .next { s with
      done := if v.getLsbD 1 then false else s.done
      dropped := if v.getLsbD 3 then false else s.dropped } ∧
    (s.lat = none → hostRegWrite .word 0x10 v s = .next (s.accept v)) ∧
    (s.lat ≠ none → hostRegWrite .word 0x10 v s = .next { s with dropped := true }) ∧
    hostRegWrite .word 0x14 v s = .next { s with argSrc := v } ∧
    hostRegWrite .word 0x18 v s = .next { s with argDst := v } ∧
    hostRegWrite .word 0x1C v s = .next { s with argN := v } ∧
    hostRegWrite .word 0x20 v s = .next { s with argCap := v } ∧
    hostRegWrite .word 0x24 v s = .next { s with argBitcntLo := v } ∧
    hostRegWrite .word 0x28 v s = .next { s with argBitcntHi := v } ∧
    ∀ o, o % 4 = 0 → o < 0x100 → (o < 0x08 ∨ 0x28 < o) → hostRegWrite .word o v s = .next s

/-- Rules R26 to R53, R117: what a read returns at each admitted offset while BUSY = 0; a read changes nothing else. -/
def Obligations.IdleReadsReturnRegisters : Prop :=
  ∀ s : State, s.lat = none →
    (∀ ov ∈ [(0x00, (0x48554646 : Word)), (0x04, paramWord s.params), (0x08, if s.irqEn then 1 else 0),
        (0x0C, s.statusWord), (0x10, 0), (0x14, s.argSrc), (0x18, s.argDst), (0x1C, s.argN), (0x20, s.argCap),
        (0x24, s.argBitcntLo), (0x28, s.argBitcntHi),
        (0x2C, BitVec.ofNat 32 s.resBitcnt.toNat), (0x30, BitVec.ofNat 32 (s.resBitcnt.toNat / 2 ^ 32)),
        (0x34, s.resWordcnt), (0x38, s.resSymcnt), (0x3C, s.resCodelen),
        (0x40, BitVec.ofNat 32 s.resCode.toNat), (0x44, BitVec.ofNat 32 (s.resCode.toNat / 2 ^ 32)),
        (0x48, BitVec.ofNat 32 s.nsym.toNat),
        (0x4C, BitVec.ofNat 32 s.errinfo.toNat), (0x50, BitVec.ofNat 32 (s.errinfo.toNat / 2 ^ 32))],
      hostRegRead .word ov.1 s = .next { s with rdata := ov.2 }) ∧
    ∀ o, o % 4 = 0 → 0x54 ≤ o → o < 0x100 → hostRegRead .word o s = .next { s with rdata := 0 }

/-- Rule R38: while BUSY = 1 the result registers, NSYM and ERRINFO read a free word; a STATUS read gives BUSY, DONE and
DROPPED and zero reserved bits whatever the free word is (ERR, DETAIL and READY are its); every other register reads as
when idle. -/
def Obligations.BusyReadsAreFree : Prop :=
  ∀ (s : State) (l : Latch), s.lat = some l →
    (∀ o, o % 4 = 0 → 0x2C ≤ o → o ≤ 0x50 →
      hostRegRead .word o s = .next { s with rdata := Config.freeWord s.fresh, fresh := s.fresh + 1 }) ∧
    (∃ t, hostRegRead .word 0x0C s = .next t ∧ t.rdata.getLsbD 0 = true ∧ t.rdata.getLsbD 1 = s.done ∧
      t.rdata.getLsbD 3 = s.dropped ∧
      (∀ k, (4 ≤ k ∧ k ≤ 7) ∨ (12 ≤ k ∧ k ≤ 15) ∨ 24 ≤ k → t.rdata.getLsbD k = false) ∧
      (∀ k, k = 2 ∨ (8 ≤ k ∧ k ≤ 11) ∨ (16 ≤ k ∧ k ≤ 23) → t.rdata.getLsbD k = (Config.freeWord s.fresh).getLsbD k) ∧
      t = { s with rdata := t.rdata, fresh := s.fresh + 1 }) ∧
    ∀ o, o % 4 = 0 → o < 0x100 → o ≠ 0x0C → (o < 0x2C ∨ 0x50 < o) →
      hostRegRead .word o s = .next { s with rdata := s.regValue (Reg.ofOffset o) }

/-- Rules R31 to R37: STATUS bit by bit, in every state. -/
def Obligations.StatusWordLayout : Prop :=
  ∀ s : State,
    s.statusWord.getLsbD 0 = s.lat.isSome ∧ s.statusWord.getLsbD 1 = s.done ∧
    s.statusWord.getLsbD 2 = (match s.life with | .uninitialized => false | .ready _ _ => true) ∧
    s.statusWord.getLsbD 3 = s.dropped ∧
    s.statusWord.extractLsb' 4 4 = 0 ∧ s.statusWord.extractLsb' 8 4 = s.errField ∧
    s.statusWord.extractLsb' 12 4 = 0 ∧ s.statusWord.extractLsb' 16 8 = s.detailField ∧
    s.statusWord.extractLsb' 24 8 = 0

/-- Rules R153, R154: in every state ERR and DETAIL are the pair the tables give the last completed command's error, by name,
and only the pairs that the tables list appear. -/
def Obligations.OnlyListedErrorCodes : Prop :=
  ∀ s : State,
    (s.errField.toNat, s.detailField.toNat) = (match s.err with
      | none => (0, 0x00)
      | some .nullSrc => (1, 0x01)
      | some .nullDst => (1, 0x02)
      | some .misalignedSrc => (1, 0x03)
      | some .misalignedDst => (1, 0x04)
      | some .rangeSrc => (1, 0x05)
      | some .rangeDst => (1, 0x06)
      | some .overlap => (1, 0x07)
      | some .capacity => (1, 0x08)
      | some .uninit => (1, 0x09)
      | some .unknownSymbol => (2, 0x00)
      | some .midCode => (3, 0x01)
      | some .shortStream => (3, 0x02)
      | some .leftoverBits => (3, 0x03)
      | some .emptyAlphabet => (4, 0x00)
      | some .reservedOp => (5, 0x01)
      | some .reservedBits => (5, 0x02)) ∧
    (s.errField.toNat, s.detailField.toNat) ∈
      [(0, 0), (1, 1), (1, 2), (1, 3), (1, 4), (1, 5), (1, 6), (1, 7), (1, 8), (1, 9), (2, 0), (3, 1), (3, 2), (3, 3),
        (4, 0), (5, 1), (5, 2)]

/-- Rule R29: PARAM's fields for every admitted pair of parameters, and its value with the defaults. -/
def Obligations.ParamWordFields : Prop :=
  (∀ p : Params, p.wf = true → (paramWord p).toNat = wordBits p + 2 ^ 8 * p.addrWidth + 2 ^ 16 * 16) ∧
    paramWord Params.default = 0x00102020 ∧ paramWord ⟨.w64, 32, none⟩ = 0x00102040

/-- Rule R181: an access is admitted exactly when it is an aligned 32-bit one at 0x00 to 0xFC; an admitted one never
stops, any other stops by name. -/
def Obligations.AdmittedAccesses : Prop :=
  ∀ (s : State) (size : AccessSize) (o : Nat) (v : Word),
    (size = .word ∧ o % 4 = 0 ∧ o ≤ 0xFC →
      (∃ t, hostRegWrite size o v s = .next t) ∧ ∃ t, hostRegRead size o s = .next t) ∧
    (¬(size = .word ∧ o % 4 = 0 ∧ o ≤ 0xFC) →
      hostRegWrite size o v s = .fault .accessNotAdmitted ∧ hostRegRead size o s = .fault .accessNotAdmitted)

/-- Rules R60, R165: the level irq is DONE and IRQ_EN; every completion raises it when enabled; clearing DONE drops it;
IRQ_EN masks it without touching DONE; a dropped CMD write leaves it. -/
def Obligations.IrqFollowsDoneAndEnable : Prop :=
  (∀ s : State, s.irq = (s.done && s.irqEn)) ∧
  (∀ s t : State, s.lat ≠ none → coreTurn s = .next t → t.done = true ∧ t.irq = s.irqEn) ∧
  (∀ (s : State) (v : Word), v.getLsbD 1 = true → ∃ t, hostRegWrite .word 0x0C v s = .next t ∧ t.done = false ∧
    t.irq = false ∧ t.irqEn = s.irqEn) ∧
  (∀ (s : State) (v : Word), v.getLsbD 0 = false → ∃ t, hostRegWrite .word 0x08 v s = .next t ∧ t.irq = false ∧
    t.done = s.done) ∧
  (∀ (s t : State) (w : Word), s.lat ≠ none → hostRegWrite .word 0x10 w s = .next t → t.irq = s.irq)

/-! ### Reset -/

/-- Rule R174: the value of every register, the latch, irq and the lifecycle after reset, in State.reset and after the reset
input in every state with admitted parameters. -/
def Obligations.ResetValues : Prop :=
  ∀ t : State, (t = State.reset ∨ ∃ s : State, s.params.wf = true ∧ hostStep .reset s = .next t) →
    t.regValue .id = 0x48554646 ∧
    (t.regValue .param).toNat = wordBits t.params + 2 ^ 8 * t.params.addrWidth + 2 ^ 16 * 0x10 ∧
    (∀ r, r ≠ .id → r ≠ .param → t.regValue r = 0) ∧
    t.lat = none ∧ t.irq = false ∧ t.life = .uninitialized

/-- Rules R172, R173, R177: in every state the reset input gives a new codec with its parameters kept and every register but
PARAM as in State.reset, idle, and with no command in flight DMA memory is unchanged. The model's choices: its own fields turns,
rdata and mdata stay, and fresh counts the bytes drawn for the output region (log 18, log 6); with no turn listed the step of the
new codec leaves it as it is (log 3). -/
def Obligations.ResetMakesANewCodec : Prop :=
  ∀ s : State, ∃ t, hostStep .reset s = .next t ∧ t.life = .uninitialized ∧ t.lat = none ∧ t.irq = false ∧
    t.params = s.params ∧
    (∀ r, r ≠ .param → t.regValue r = State.reset.regValue r) ∧
    (s.lat = none → t.mem = s.mem) ∧
    t.turns = s.turns ∧ t.rdata = s.rdata ∧ t.mdata = s.mdata ∧
    (s.lat = none → t.fresh = s.fresh) ∧
    (∀ l, s.lat = some l → t.fresh = s.fresh + (outputRegion s.params s.life s.mem l).len) ∧
    (t.turns = [] → step t = .next t)

/-- Rule R176: a reset in mid-command leaves DONE 0 and changes no byte outside the command's output region and no byte of
its input region (rule R68; where the output region ends before an encoding exists is the model's reading, log 6). -/
def Obligations.ResetMidCommandTouchesOnlyOutput : Prop :=
  ∀ (s : State) (l : Latch), s.lat = some l → ∃ t, hostStep .reset s = .next t ∧ t.done = false ∧ t.lat = none ∧
    ∀ a, ((outputRegion s.params s.life s.mem l).holds a = false ∨ (inputRegion s.params l).holds a = true) →
      Memory.read t.mem a = Memory.read s.mem a

/-! ### Lifecycle and the whole machine -/

/-- Rule R25: the only transition is Uninitialized to Ready, by the completion of a successful ENCODE with n ≥ 1; in Ready
nothing but a reset changes life, tree or table. -/
def Obligations.LifecycleTransitions : Prop :=
  ∀ s t : State, step s = .next t → (∀ rest, s.turns ≠ .host .reset :: rest) →
    (s.life ≠ .uninitialized → t.life = s.life ∧ t.nsym = s.nsym) ∧
    (s.life = .uninitialized → t.life ≠ .uninitialized →
      ∃ (l : Latch) (tree : Tree), s.lat = some l ∧ l.op = 0x1 ∧ 1 ≤ l.n.toNat ∧ t.err = none ∧ t.lat = none ∧
        build (count (s.samples l)) = some tree ∧ t.life = .ready tree (derive tree) ∧
        t.nsym = BitVec.ofNat 17 tree.leafCount)

/-- Rule R115: once derived, the table is the table of every later state until a reset, over runs of any length. -/
def Obligations.TableStableUntilReset : Prop :=
  ∀ (k : Nat) (s t : State), s.life ≠ .uninitialized → .host .reset ∉ s.turns →
    Host.Core.run Sys2Proof.core k s = .next t → t.life = s.life

/-- The invariant of the machine is kept by every step, from every state that meets it. -/
def Obligations.StepKeepsInvariant : Prop :=
  ∀ s t : State, s.Inv → step s = .next t → t.Inv

/-- The state after reset meets the invariant. -/
def Obligations.ResetMeetsInvariant : Prop := State.reset.Inv

/-- Rules R63, R120, R123: with an admitted command in flight the Core's turn always answers a next state, in which BUSY is 0,
DONE is 1 and nothing of the host's side has changed; the same for exec of each command. A command one of whose regions covers
the register window is refused instead (S11; log 12); QUERY and an illegal word never are, nor is anything where the window
lies outside the DMA space. -/
def Obligations.EveryCommandCompletes : Prop :=
  ∀ (s : State) (l : Latch), s.lat = some l →
    (wordAdmitted s l = true → ∃ t, coreTurn s = .next t ∧ t.lat = none ∧ t.done = true ∧ s.SameHostSide t) ∧
    (wordAdmitted s l = false → coreTurn s = .refused .windowInRegion) ∧
    (∀ i : Instr, commandAdmitted i s l = true →
      ∃ t, exec i s = .next t ∧ t.lat = none ∧ t.done = true ∧ s.SameHostSide t) ∧
    (∀ i : Instr, commandAdmitted i s l = false → exec i s = .refused .windowInRegion) ∧
    commandAdmitted .query s l = true ∧
    (∀ why, decode l.op = .illegal why → wordAdmitted s l = true) ∧
    (s.params.regBase = none → wordAdmitted s l = true ∧ ∀ i : Instr, commandAdmitted i s l = true)

/-- Rule R77: a command that ends with an error leaves every DMA byte, life, tree, table and NSYM as they were. -/
def Obligations.FailedCommandChangesNothing : Prop :=
  ∀ s t : State, s.lat ≠ none → coreTurn s = .next t → t.err ≠ none →
    t.mem = s.mem ∧ t.life = s.life ∧ t.nsym = s.nsym

/-- Rules R53, R54, R152, R155: an error leaves every RES register 0; ERRINFO is 0 after success and after a
PRECONDITION_VIOLATION. -/
def Obligations.ErrorResultsAreZero : Prop :=
  ∀ s t : State, s.lat ≠ none → coreTurn s = .next t →
    (t.err ≠ none → t.resBitcnt = 0 ∧ t.resWordcnt = 0 ∧ t.resSymcnt = 0 ∧ t.resCodelen = 0 ∧ t.resCode = 0) ∧
    (t.errField = 0 ∨ t.errField = 1 → t.errinfo = 0)

/-- A host that polls STATUS k times while an admitted command is in flight and then waits sees BUSY = 0 and DONE = 1 (rules R92
wait, R124, R127). -/
def Obligations.PollingHostSeesCompletion : Prop :=
  ∀ (k : Nat) (s : State) (l : Latch), s.lat = some l → wordAdmitted s l = true → s.turns = scriptWait k →
    ∃ t, Host.Core.run Sys2Proof.core (k + 2) s = .next t ∧ t.lat = none ∧
      t.rdata.getLsbD 0 = false ∧ t.rdata.getLsbD 1 = true

/-- The turns the model stops on, and no others: a register access that is not admitted or a byte access to the register window
(rule R181; log 8), a host access outside the DMA space (rule R62; log 9), a host write into a region in flight (rule R180; log
7), and the completion of a command one of whose regions covers the register window (rules R63, R180; log 12). A host read of an
output byte in flight, which rule R180 forbids as well, is no stop: it reads a free byte (rule R76; log 7). -/
def Obligations.StepStopsOnlyOnBrokenDuty : Prop :=
  ∀ s : State, (∃ t, step s = .next t) ↔
    ∀ (x : Turn) (rest : List Turn), (s.turns = x :: rest ∨ (s.turns = [] ∧ x = .core)) → turnAdmitted s x = true

/-! ### DMA memory -/

/-- Rules R62, R63: the host's own accesses: a byte written is read back, every other byte is left alone; an address outside
the space stops by name, and so does a byte of the register window (rule R181; log 8, log 9). -/
def Obligations.HostMemoryIsPlain : Prop :=
  (∀ (s : State) (a : Nat) (b : Byte), s.lat = none → a < dmaSize s.params → WindowClear s.params a 1 →
    ∃ t u, hostMemWrite a b s = .next t ∧ hostMemRead a t = .next u ∧ u.mdata = b ∧ u.mem = t.mem ∧
      ∀ c, c ≠ a → Memory.read t.mem c = Memory.read s.mem c) ∧
  (∀ (s : State) (a : Nat) (b : Byte), dmaSize s.params ≤ a →
    hostMemWrite a b s = .fault .outsideDmaSpace ∧ hostMemRead a s = .fault .outsideDmaSpace) ∧
  ∀ (s : State) (a : Nat) (b : Byte), a < dmaSize s.params → ¬ WindowClear s.params a 1 →
    hostMemWrite a b s = .fault .accessNotAdmitted ∧ hostMemRead a s = .fault .accessNotAdmitted

/-- Rules R76, R180: while a command is in flight a host write into one of its regions is refused by name, a host read of an
output byte gives a free byte, and a host read of any other byte gives the byte, at every address outside the register window
(log 7). -/
def Obligations.HostAccessWhileBusy : Prop :=
  ∀ (s : State) (l : Latch) (a : Nat) (b : Byte), s.lat = some l → a < dmaSize s.params → WindowClear s.params a 1 →
    ((inputRegion s.params l).holds a = true ∨ (outputRegion s.params s.life s.mem l).holds a = true →
      hostMemWrite a b s = .refused .hostBrokeDuty) ∧
    ((inputRegion s.params l).holds a = false → (outputRegion s.params s.life s.mem l).holds a = false →
      hostMemWrite a b s = .next { s with mem := Memory.write s.mem a b }) ∧
    ((outputRegion s.params s.life s.mem l).holds a = true →
      hostMemRead a s = .next { s with mdata := Config.freeByte s.fresh, fresh := s.fresh + 1 }) ∧
    ((outputRegion s.params s.life s.mem l).holds a = false →
      hostMemRead a s = .next { s with mdata := Memory.read s.mem a })

/-! ### The tree and the table -/

/-- Rule R99: leaf k holds the k-th smallest symbol that occurs, and its count; every symbol that occurs has one leaf. -/
def Obligations.LeavesAscendWithCounts : Prop :=
  ∀ samples : List Symbol,
    (leavesFrom 0 (count samples)).Pairwise (fun x y => ∀ a ∈ x.symbols, ∀ b ∈ y.symbols, a.toNat < b.toNat) ∧
    (∀ (k : Nat) (t : Tree), (leavesFrom 0 (count samples))[k]? = some t →
      ∃ x, x ∈ samples ∧ t = .leaf k x (samples.count x)) ∧
    (∀ x ∈ samples, ∃ k, (leavesFrom 0 (count samples))[k]? = some (Tree.leaf k x (samples.count x))) ∧
    (leavesFrom 0 (count samples)).length = samples.dedup.length

/-- Rules R100, R101: one turn of BUILD's loop takes the two nodes of the strictly least keys (frequency, then index), in a
queue whose indices differ, and makes them the left and right child of a new node with their frequencies added. -/
def Obligations.BuildTurnTakesLeastTwo : Prop :=
  ∀ (next : Nat) (t u : Tree) (us : List Tree), ((t :: u :: us).map Tree.idx).Nodup →
    ∃ (a b : Tree) (rest : List Tree),
      combine (next, t :: u :: us) = (next + 1, rest ++ [.internal next (a.freq + b.freq) a b]) ∧
      (a :: b :: rest).Perm (t :: u :: us) ∧
      (∀ q ∈ b :: rest, a.freq < q.freq ∨ (a.freq = q.freq ∧ a.idx < q.idx)) ∧
      (∀ q ∈ rest, b.freq < q.freq ∨ (b.freq = q.freq ∧ b.idx < q.idx))

/-- Rules R52, R98, R99, R100, R102, R105, R109: the tree a priming ENCODE caches is the one node left by N - 1 turns of BUILD's
loop on the leaves of its samples; its leaves are those leaves, and every left child has the strictly lower key than its
sibling. It has one leaf per distinct sample, N - 1 internal nodes, weights that add up to n, the last index at the root, and
NSYM = N. -/
def Obligations.PrimedTreeShape : Prop :=
  ∀ (s t : State) (l : Latch), s.lat = some l → s.life = .uninitialized → 1 ≤ l.n.toNat → exec .encode s = .next t →
    t.err = none → ∃ tree, t.life = .ready tree (derive tree) ∧ tree.symbols.Nodup ∧
      (∀ x, x ∈ tree.symbols ↔ x ∈ s.samples l) ∧ tree.leafCount = (s.samples l).dedup.length ∧
      tree.internalCount = tree.leafCount - 1 ∧ tree.weighted = true ∧ tree.freq = l.n.toNat ∧
      tree.idx = 2 * tree.leafCount - 2 ∧ t.nsym.toNat = tree.leafCount ∧
      combine^[tree.leafCount - 1] (tree.leafCount, leavesFrom 0 (count (s.samples l))) =
        (2 * tree.leafCount - 1, [tree]) ∧
      tree.leaves.Perm (leavesFrom 0 (count (s.samples l))) ∧ tree.siblingsOrdered = true

/-- Rule R113: in every Ready state of a coherent cache no code is a prefix of another symbol's. -/
def Obligations.CodesArePrefixFree : Prop :=
  ∀ (s : State) (tree : Tree) (table : CodeTable) (x y : Symbol) (c d : Bits), s.Inv → s.life = .ready tree table →
    CodeTable.code table x = some c → CodeTable.code table y = some d → x ≠ y → ¬ c <+: d

/-- Rule R114, the spec's own inference: with N ≥ 2 the weights 2^(-length) add up to 1 (in units of 2^(-top)), and every bit
string is a proper prefix of a code or has a code as a prefix. -/
def Obligations.CodesAreComplete : Prop :=
  ∀ (s : State) (tree : Tree) (table : CodeTable), s.Inv → s.life = .ready tree table → 2 ≤ tree.leafCount →
    (∀ top, (∀ e ∈ table, e.2.length ≤ top) → (table.map (fun e => 2 ^ (top - e.2.length))).sum = 2 ^ top) ∧
    ∀ w : Bits, (∃ x c, CodeTable.code table x = some c ∧ c <+: w) ∨
      (∃ x c, CodeTable.code table x = some c ∧ w <+: c ∧ w ≠ c)

/-- Rules R108 to R112, R143: the symbols with a code are the tree's, a code has at most N - 1 bits, it is empty for N = 1 and
non-empty for N ≥ 2. The code of a symbol is the path to its leaf: 0 and its code in the left child's table for a symbol of the
left child, 1 and its code in the right child's for one of the right child, nothing for a leaf; and DECODE's walk goes left on 0
and right on 1. -/
def Obligations.CodeLengths : Prop :=
  (∀ (s : State) (tree : Tree) (table : CodeTable), s.Inv → s.life = .ready tree table → table = derive tree ∧
    (∀ x, (∃ c, CodeTable.code table x = some c) ↔ x ∈ tree.symbols) ∧
    ∀ x c, CodeTable.code table x = some c →
      c.length ≤ tree.leafCount - 1 ∧ (tree.leafCount = 1 → c = []) ∧ (2 ≤ tree.leafCount → c ≠ [])) ∧
  (∀ (i f : Nat) (x : Symbol), CodeTable.code (derive (Tree.leaf i x f)) x = some []) ∧
  ∀ (i f : Nat) (l r : Tree), (Tree.internal i f l r).symbols.Nodup →
    (∀ x ∈ l.symbols, ∃ c, CodeTable.code (derive l) x = some c ∧
      CodeTable.code (derive (Tree.internal i f l r)) x = some (false :: c)) ∧
    (∀ x ∈ r.symbols, ∃ c, CodeTable.code (derive r) x = some c ∧
      CodeTable.code (derive (Tree.internal i f l r)) x = some (true :: c)) ∧
    (Tree.internal i f l r).child false = l ∧ (Tree.internal i f l r).child true = r

/-! ### ENCODE -/

/-- Rules R128, R160: the error ENCODE reports, in the order of its checks, in every state and on all arguments, where the
command is admitted: it is when an argument check fails, and when its samples are clear of the register window and it reports an
error. Where the samples cover the window it is refused (rule R63, S11; log 12). -/
def Obligations.EncodeReportsFirstError : Prop :=
  ∀ (s : State) (l : Latch), s.lat = some l →
    (¬ EncodeArgsOk s.params l → commandAdmitted .encode s l = true) ∧
    (EncodeArgsOk s.params l → ¬ WindowClear s.params l.src.toNat (2 * l.n.toNat) →
      exec .encode s = .refused .windowInRegion) ∧
    (WindowClear s.params l.src.toNat (2 * l.n.toNat) → commandAdmitted .encode s l = false →
      (s.complete (encodeCommand s.params s.life s.mem l)).err = none) ∧
    (commandAdmitted .encode s l = true → ∃ t, exec .encode s = .next t ∧
    (if l.src.toNat = 0 then t.err = some .nullSrc
    else if l.dst.toNat = 0 then t.err = some .nullDst
    else if l.src.toNat % 2 ≠ 0 then t.err = some .misalignedSrc
    else if l.dst.toNat % wordBytes s.params ≠ 0 then t.err = some .misalignedDst
    else if dmaSize s.params < l.src.toNat + 2 * l.n.toNat then t.err = some .rangeSrc
    else if l.n.toNat = 0 then t.err = none
    else ∃ table, (match s.life with
          | .uninitialized => ∃ tree, build (count (s.samples l)) = some tree ∧ table = derive tree
          | .ready _ cached => table = cached) ∧
      (if ∃ x ∈ s.samples l, CodeTable.code table x = none then t.err = some .unknownSymbol
      else if l.cap.toNat < wordCount s.params (codesOf table (s.samples l)).length then t.err = some .capacity
      else if dmaSize s.params <
          l.dst.toNat + wordCount s.params (codesOf table (s.samples l)).length * wordBytes s.params then
        t.err = some .rangeDst
      else if ¬ RangesDisjoint l.src.toNat (2 * l.n.toNat) l.dst.toNat
          (wordCount s.params (codesOf table (s.samples l)).length * wordBytes s.params) then t.err = some .overlap
      else t.err = none)))

/-- Rule R129: an ENCODE of an empty sequence whose checks pass completes with every result 0, in either lifecycle state,
and changes nothing else. -/
def Obligations.EncodeOfNothingSucceeds : Prop :=
  ∀ (s : State) (l : Latch), s.lat = some l → EncodeArgsOk s.params l → l.n = 0 →
    exec .encode s = .next s.succeededEmpty

/-- Rules R130, R137: a priming ENCODE builds its tree from its own samples, covers them, and where its output fits it
completes with the stream packed at dst and the tree, the table, life and NSYM committed together, and where a region covers
the register window it is refused (rule R63, S11; log 12). -/
def Obligations.PrimingEncodeCompletes : Prop :=
  ∀ (s : State) (l : Latch), s.lat = some l → s.life = .uninitialized → EncodeArgsOk s.params l → l.n ≠ 0 →
    ∃ tree, build (count (s.samples l)) = some tree ∧
      (∀ x ∈ s.samples l, ∃ c, CodeTable.code (derive tree) x = some c) ∧
      (EncodeFits s.params l (codesOf (derive tree) (s.samples l)).length →
        ¬ EncodeClear s.params l (codesOf (derive tree) (s.samples l)).length →
        exec .encode s = .refused .windowInRegion) ∧
      (EncodeFits s.params l (codesOf (derive tree) (s.samples l)).length →
        EncodeClear s.params l (codesOf (derive tree) (s.samples l)).length →
        exec .encode s = .next { s with
          lat := none, done := true, err := none, errinfo := 0
          mem := writeElems (wordBytes s.params) s.mem l.dst.toNat
            (packWords (wordBits s.params) (wordCount s.params (codesOf (derive tree) (s.samples l)).length)
              (codesOf (derive tree) (s.samples l)))
          resBitcnt := BitVec.ofNat 64 (codesOf (derive tree) (s.samples l)).length
          resWordcnt := BitVec.ofNat 32 (wordCount s.params (codesOf (derive tree) (s.samples l)).length)
          resSymcnt := l.n, resCodelen := 0, resCode := 0
          life := .ready tree (derive tree), nsym := BitVec.ofNat 17 tree.leafCount })

/-- Rules R128, R131: an ENCODE in Ready whose samples the cached table covers and whose output fits completes with
the stream packed at dst; the cache stays. Where a region covers the register window it is refused (rule R63, S11; log 12). -/
def Obligations.ReadyEncodeCompletes : Prop :=
  ∀ (s : State) (l : Latch) (tree : Tree) (table : CodeTable), s.lat = some l → s.life = .ready tree table →
    EncodeArgsOk s.params l → l.n ≠ 0 → (∀ x ∈ s.samples l, ∃ c, CodeTable.code table x = some c) →
    EncodeFits s.params l (codesOf table (s.samples l)).length →
      (¬ EncodeClear s.params l (codesOf table (s.samples l)).length → exec .encode s = .refused .windowInRegion) ∧
      (EncodeClear s.params l (codesOf table (s.samples l)).length → exec .encode s = .next { s with
        lat := none, done := true, err := none, errinfo := 0
        mem := writeElems (wordBytes s.params) s.mem l.dst.toNat
          (packWords (wordBits s.params) (wordCount s.params (codesOf table (s.samples l)).length)
            (codesOf table (s.samples l)))
        resBitcnt := BitVec.ofNat 64 (codesOf table (s.samples l)).length
        resWordcnt := BitVec.ofNat 32 (wordCount s.params (codesOf table (s.samples l)).length)
        resSymcnt := l.n, resCodelen := 0, resCode := 0 })

/-- Rules R131, R156: an ENCODE in Ready with an absent sample ends with UNKNOWN_SYMBOL for the first one: its index in
ERRINFO_LO, its symbol in ERRINFO_HI; nothing is written. -/
def Obligations.ReadyEncodeNamesFirstAbsent : Prop :=
  ∀ (s : State) (l : Latch) (tree : Tree) (table : CodeTable) (k : Nat) (x : Symbol), s.lat = some l →
    s.life = .ready tree table → EncodeArgsOk s.params l → (s.samples l)[k]? = some x → CodeTable.code table x = none →
    (∀ j < k, ∀ y, (s.samples l)[j]? = some y → ∃ c, CodeTable.code table y = some c) →
    WindowClear s.params l.src.toNat (2 * l.n.toNat) →
      exec .encode s = .next (s.failedWith .unknownSymbol (BitVec.ofNat 64 (k + x.toNat * 2 ^ 32))) ∧
      (BitVec.ofNat 64 (k + x.toNat * 2 ^ 32)).toNat % 2 ^ 32 = k ∧
      (BitVec.ofNat 64 (k + x.toNat * 2 ^ 32)).toNat / 2 ^ 32 = x.toNat

/-- Rule R135: one distinct symbol with the empty code: B = 0, no word, RES_SYMCNT = n, no byte written, whatever the
capacity, and dst may equal src; dst must still pass the checks of rule R128, the range of the empty output among them. The
priming form caches the one leaf. -/
def Obligations.OneSymbolEncodeCompletes : Prop :=
  ∀ (s : State) (l : Latch) (x : Symbol), s.lat = some l → EncodeArgsOk s.params l → l.dst.toNat ≤ dmaSize s.params →
    l.n ≠ 0 → (∀ y ∈ s.samples l, y = x) → WindowClear s.params l.src.toNat (2 * l.n.toNat) →
    (s.life = .uninitialized → exec .encode s = .next
      { s.succeededEmpty with
        resSymcnt := l.n, life := .ready (.leaf 0 x l.n.toNat) [(x.toNat, [])], nsym := 1 }) ∧
    (∀ tree, s.life = .ready tree [(x.toNat, [])] → exec .encode s = .next { s.succeededEmpty with resSymcnt := l.n })

/-- Rules R134, R48, R49: after a successful ENCODE of n ≥ 1 samples RES_BITCNT is the sum of the code lengths, below 2^48 (the
spec's own inference), RES_WORDCNT is ⌈B / W⌉ and RES_SYMCNT is n. -/
def Obligations.EncodeCountsBits : Prop :=
  ∀ (s t : State) (l : Latch), s.lat = some l → l.n ≠ 0 → exec .encode s = .next t → t.err = none →
    ∃ tree table, t.life = .ready tree table ∧
      t.resBitcnt.toNat = ((s.samples l).map (fun x => ((CodeTable.code table x).getD []).length)).sum ∧
      t.resBitcnt.toNat < 2 ^ 48 ∧
      t.resWordcnt.toNat = (t.resBitcnt.toNat + (wordBits s.params - 1)) / wordBits s.params ∧
      t.resSymcnt = l.n

/-- Rules R65, R133: after a successful ENCODE of n ≥ 1 samples the word count is ⌈B / W⌉, bit b of word k at dst is stream bit
k·W + b, and the bits past the stream's end are 0. -/
def Obligations.EncodePacksTheStream : Prop :=
  ∀ (s t : State) (l : Latch), s.lat = some l → l.n ≠ 0 → exec .encode s = .next t → t.err = none →
    ∃ tree table, t.life = .ready tree table ∧
      t.resWordcnt.toNat =
        ((codesOf table (s.samples l)).length + (wordBits s.params - 1)) / wordBits s.params ∧
      ∀ k b, k < t.resWordcnt.toNat → b < wordBits s.params →
        (memRead t.mem (l.dst.toNat + k * wordBytes s.params) (wordBytes s.params)).testBit b =
          (codesOf table (s.samples l)).getD (k * wordBits s.params + b) false

/-- Rule R66, the spec's own inference: after a successful ENCODE of n ≥ 1 samples stream bit i is bit i mod 8 of the byte at
dst + i div 8, for either W. -/
def Obligations.PackedBytesAreTheStream : Prop :=
  ∀ (s t : State) (l : Latch), s.lat = some l → l.n ≠ 0 → exec .encode s = .next t → t.err = none →
    ∃ tree table, t.life = .ready tree table ∧ t.resBitcnt.toNat = (codesOf table (s.samples l)).length ∧
      ∀ i, i < t.resBitcnt.toNat →
        (Memory.read t.mem (l.dst.toNat + i / 8)).getLsbD (i % 8) = (codesOf table (s.samples l)).getD i false

/-- Rules R68, R75, R77: the frame of ENCODE in memory: every byte outside the nw words at dst reads as before, nw being what
RES_WORDCNT reports (0 on an error and for n = 0, so that nothing is written). -/
def Obligations.EncodeMemoryFrame : Prop :=
  ∀ (s t : State) (l : Latch), s.lat = some l → exec .encode s = .next t →
    ∀ a, ¬(l.dst.toNat ≤ a ∧ a < l.dst.toNat + t.resWordcnt.toNat * wordBytes s.params) →
      Memory.read t.mem a = Memory.read s.mem a

/-! ### DECODE -/

/-- Rules R139, R160: the error DECODE reports, in the order of its checks, up to the walk. A DECODE whose checks pass and one of
whose regions covers the register window is refused (rule R63, S11; log 12), any other one is not. -/
def Obligations.DecodeReportsFirstError : Prop :=
  ∀ (s : State) (l : Latch), s.lat = some l →
    (DecodeArgsOk s.params l → ¬ DecodeClear s.params l → exec .decode s = .refused .windowInRegion) ∧
    ((¬ DecodeArgsOk s.params l ∨ DecodeClear s.params l) → ∃ t, exec .decode s = .next t ∧
    (if l.src.toNat = 0 then t.err = some .nullSrc
    else if l.dst.toNat = 0 then t.err = some .nullDst
    else if l.src.toNat % wordBytes s.params ≠ 0 then t.err = some .misalignedSrc
    else if l.dst.toNat % 2 ≠ 0 then t.err = some .misalignedDst
    else if dmaSize s.params < l.src.toNat + wordCount s.params l.bitcnt.toNat * wordBytes s.params then
      t.err = some .rangeSrc
    else if dmaSize s.params < l.dst.toNat + 2 * l.n.toNat then t.err = some .rangeDst
    else if ¬ RangesDisjoint l.src.toNat (wordCount s.params l.bitcnt.toNat * wordBytes s.params) l.dst.toNat
        (2 * l.n.toNat) then t.err = some .overlap
    else if l.n.toNat = 0 ∧ l.bitcnt.toNat = 0 then t.err = none
    else match s.life with
      | .uninitialized => t.err = some .uninit
      | .ready _ _ => t.err = none ∨ t.err = some .midCode ∨ t.err = some .shortStream ∨ t.err = some .leftoverBits))

/-- Rule R140: DECODE with E = 0 once its checks pass: with B = 0 it succeeds with every result 0 in any lifecycle state;
with B > 0 it is CORRUPT_STREAM in Ready and PRECONDITION_VIOLATION (UNINIT) in Uninitialized. -/
def Obligations.DecodeOfNothing : Prop :=
  ∀ (s : State) (l : Latch), s.lat = some l → DecodeArgsOk s.params l → l.n = 0 →
    (l.bitcnt = 0 → exec .decode s = .next s.succeededEmpty) ∧
    (l.bitcnt ≠ 0 → DecodeClear s.params l → s.life = .uninitialized →
      exec .decode s = .next (s.failedWith .uninit 0)) ∧
    (l.bitcnt ≠ 0 → DecodeClear s.params l → s.life ≠ .uninitialized →
      exec .decode s = .next (s.failedWith .leftoverBits 0))

/-- Rule R141: DECODE in Uninitialized, its checks passed and not the empty case, is PRECONDITION_VIOLATION (UNINIT). -/
def Obligations.DecodeNeedsReady : Prop :=
  ∀ (s : State) (l : Latch), s.lat = some l → DecodeArgsOk s.params l → DecodeClear s.params l →
    ¬(l.n = 0 ∧ l.bitcnt = 0) → s.life = .uninitialized → exec .decode s = .next (s.failedWith .uninit 0)

/-- Rule R144: a one-leaf tree: with B = 0 DECODE completes with E copies of the symbol at dst; with B > 0 it is
LEFTOVER_BITS with ERRINFO 0. -/
def Obligations.OneSymbolDecode : Prop :=
  ∀ (s : State) (l : Latch) (i f : Nat) (x : Symbol) (table : CodeTable), s.lat = some l →
    DecodeArgsOk s.params l → DecodeClear s.params l → s.life = .ready (.leaf i x f) table →
    (l.bitcnt = 0 → l.n ≠ 0 → exec .decode s = .next
      { s.succeededEmpty with
        resSymcnt := l.n, mem := writeElems 2 s.mem l.dst.toNat (List.replicate l.n.toNat x.toNat) }) ∧
    (l.bitcnt ≠ 0 → exec .decode s = .next (s.failedWith .leftoverBits 0))

/-- Rules R139, R143, R145: if the first B bits at src are the codes of E symbols of the tree, DECODE completes with these
symbols written at dst. -/
def Obligations.DecodeOfCodesCompletes : Prop :=
  ∀ (s : State) (l : Latch) (tree : Tree) (out : List Symbol), s.lat = some l →
    DecodeArgsOk s.params l → DecodeClear s.params l → s.life = .ready tree (derive tree) → 2 ≤ tree.leafCount →
    ¬(l.n = 0 ∧ l.bitcnt = 0) →
    out.length = l.n.toNat → (∀ x ∈ out, x ∈ tree.symbols) → s.stream l = codesOf (derive tree) out →
      exec .decode s = .next { s.succeededEmpty with
        resBitcnt := l.bitcnt
        resWordcnt := BitVec.ofNat 32 (wordCount s.params l.bitcnt.toNat)
        resSymcnt := l.n
        mem := writeElems 2 s.mem l.dst.toNat (out.map BitVec.toNat) }

/-- Rule R143: whatever the stream, DECODE in a coherent Ready state with N ≥ 2 splits it into the codes of some symbols and
the rest, and answers accordingly: success with these symbols readable at dst, MID_CODE or SHORT_STREAM with ERRINFO = B,
LEFTOVER_BITS with ERRINFO = the bits of E codes. -/
def Obligations.DecodeWalkOutcomes : Prop :=
  ∀ (s : State) (l : Latch) (tree : Tree) (table : CodeTable), s.Inv → s.lat = some l → DecodeArgsOk s.params l →
    DecodeClear s.params l → s.life = .ready tree table → 2 ≤ tree.leafCount → ¬(l.n = 0 ∧ l.bitcnt = 0) →
    ∃ (t : State) (out : List Symbol) (rest : Bits), exec .decode s = .next t ∧ (∀ x ∈ out, x ∈ tree.symbols) ∧
      s.stream l = codesOf table out ++ rest ∧ out.length ≤ l.n.toNat ∧
      (if out.length = l.n.toNat then
        if rest = [] then t.err = none ∧ readSamples t.mem l.dst.toNat l.n.toNat = out
        else t.err = some .leftoverBits ∧ t.errinfo = BitVec.ofNat 64 (codesOf table out).length
      else if rest = [] then t.err = some .shortStream ∧ t.errinfo = l.bitcnt
      else t.err = some .midCode ∧ t.errinfo = l.bitcnt ∧
        ∃ x c, CodeTable.code table x = some c ∧ rest <+: c ∧ rest ≠ c)

/-- Rule R142 and S10: DECODE depends on its input region only through the first B stream bits: two memories that agree on
them give the same status, the same results and the same output bytes. -/
def Obligations.DecodeIgnoresBitsPastB : Prop :=
  ∀ (s t t' : State) (l : Latch) (m : Memory), s.lat = some l →
    (∀ i < l.bitcnt.toNat, streamBit m l.src.toNat i = streamBit s.mem l.src.toNat i) →
    exec .decode s = .next t → exec .decode { s with mem := m } = .next t' →
      t' = { t with mem := t'.mem } ∧
      ∀ a, l.dst.toNat ≤ a → a < l.dst.toNat + 2 * t.resSymcnt.toNat → Memory.read t'.mem a = Memory.read t.mem a

/-- Rules R68, R75, R77, R145: the frame of DECODE in memory: every byte outside the samples at dst reads as before, their
number being what RES_SYMCNT reports (0 on an error); DECODE never changes life or NSYM. -/
def Obligations.DecodeMemoryFrame : Prop :=
  ∀ (s t : State) (l : Latch), s.lat = some l → exec .decode s = .next t →
    t.life = s.life ∧ t.nsym = s.nsym ∧
    ∀ a, ¬(l.dst.toNat ≤ a ∧ a < l.dst.toNat + 2 * t.resSymcnt.toNat) → Memory.read t.mem a = Memory.read s.mem a

/-- Rule R147, the round trip, the spec's own inference: if ENCODE of n samples succeeds in a coherent state, DECODE of
what it wrote, with its bit count and E = n, into a region that meets DECODE's checks and is clear of the register window,
succeeds and writes the samples. -/
def Obligations.RoundTrip : Prop :=
  ∀ (s t : State) (l d : Latch), s.Inv → s.lat = some l → exec .encode s = .next t → t.err = none →
    d.src = l.dst → d.bitcnt = t.resBitcnt → d.n = l.n → DecodeArgsOk s.params d →
    WindowClear s.params d.dst.toNat (2 * d.n.toNat) →
      ∃ u, exec .decode { t with lat := some d } = .next u ∧ u.err = none ∧ u.resSymcnt = l.n ∧
        readSamples u.mem d.dst.toNat d.n.toNat = s.samples l

/-! ### QUERY -/

/-- Rule R148: QUERY in every state: UNINIT; UNKNOWN_SYMBOL with the symbol in ERRINFO_HI; or the code's length and its value
mod 2^64, the sum of c[j]·2^(L-1-j). Only ARG_N[15:0] counts. -/
def Obligations.QueryAnswers : Prop :=
  ∀ (s : State) (l : Latch), s.lat = some l →
    match s.life with
    | .uninitialized => exec .query s = .next (s.failedWith .uninit 0)
    | .ready _ table =>
      match CodeTable.code table (BitVec.ofNat 16 (l.n.toNat % 2 ^ 16)) with
      | none => exec .query s = .next (s.failedWith .unknownSymbol (BitVec.ofNat 64 (l.n.toNat % 2 ^ 16 * 2 ^ 32)))
      | some c => exec .query s = .next { s.succeededEmpty with
          resCodelen := BitVec.ofNat 32 c.length
          resCode := BitVec.ofNat 64
            ((List.range c.length).map (fun j => (c.getD j false).toNat * 2 ^ (c.length - 1 - j))).sum }

/-- Rule R149: after a successful QUERY in a coherent state RES_CODELEN is the code's length, bit L - 1 - j of RES_CODE is
code bit j where it lies below 64, and the bits from L on are 0. -/
def Obligations.QueryReturnsCodeBits : Prop :=
  ∀ (s t : State) (l : Latch) (tree : Tree) (table : CodeTable) (c : Bits), s.Inv → s.lat = some l →
    s.life = .ready tree table → CodeTable.code table (BitVec.ofNat 16 (l.n.toNat % 2 ^ 16)) = some c →
    exec .query s = .next t →
      t.resCodelen.toNat = c.length ∧
      (∀ j < c.length, c.length - 1 - j < 64 → t.resCode.getLsbD (c.length - 1 - j) = c.getD j false) ∧
      ∀ k, c.length ≤ k → t.resCode.getLsbD k = false

/-- Rules R62, R148: the frame of QUERY: no byte of memory, nothing of the cache, nothing of the host's side changes; and two
latches that agree on ARG_N[15:0] get the same answer. -/
def Obligations.QueryTouchesNothing : Prop :=
  ∀ (s t : State) (l l' : Latch), s.lat = some l → exec .query s = .next t →
    t.mem = s.mem ∧ t.life = s.life ∧ t.nsym = s.nsym ∧ s.SameHostSide t ∧
    (l'.n.toNat % 2 ^ 16 = l.n.toNat % 2 ^ 16 → exec .query { s with lat := some l' } = .next t)
end

