-- ==== Sys2Proof/Laws/State.lean ====
section
/-! SUPPORT. For each update of the state, what every field holds after it: no proof unfolds a record update again. -/
namespace Sys2Proof.Machine

/-! ### accept -/

@[simp] theorem State.accept_params (s : State) (w : Word) : (s.accept w).params = s.params := rfl
@[simp] theorem State.accept_irqEn (s : State) (w : Word) : (s.accept w).irqEn = s.irqEn := rfl
@[simp] theorem State.accept_done (s : State) (w : Word) : (s.accept w).done = s.done := rfl
@[simp] theorem State.accept_dropped (s : State) (w : Word) : (s.accept w).dropped = s.dropped := rfl
@[simp] theorem State.accept_err (s : State) (w : Word) : (s.accept w).err = s.err := rfl
@[simp] theorem State.accept_argSrc (s : State) (w : Word) : (s.accept w).argSrc = s.argSrc := rfl
@[simp] theorem State.accept_argDst (s : State) (w : Word) : (s.accept w).argDst = s.argDst := rfl
@[simp] theorem State.accept_argN (s : State) (w : Word) : (s.accept w).argN = s.argN := rfl
@[simp] theorem State.accept_argCap (s : State) (w : Word) : (s.accept w).argCap = s.argCap := rfl
@[simp] theorem State.accept_argBitcntLo (s : State) (w : Word) : (s.accept w).argBitcntLo = s.argBitcntLo := rfl
@[simp] theorem State.accept_argBitcntHi (s : State) (w : Word) : (s.accept w).argBitcntHi = s.argBitcntHi := rfl
@[simp] theorem State.accept_resBitcnt (s : State) (w : Word) : (s.accept w).resBitcnt = s.resBitcnt := rfl
@[simp] theorem State.accept_resWordcnt (s : State) (w : Word) : (s.accept w).resWordcnt = s.resWordcnt := rfl
@[simp] theorem State.accept_resSymcnt (s : State) (w : Word) : (s.accept w).resSymcnt = s.resSymcnt := rfl
@[simp] theorem State.accept_resCodelen (s : State) (w : Word) : (s.accept w).resCodelen = s.resCodelen := rfl
@[simp] theorem State.accept_resCode (s : State) (w : Word) : (s.accept w).resCode = s.resCode := rfl
@[simp] theorem State.accept_nsym (s : State) (w : Word) : (s.accept w).nsym = s.nsym := rfl
@[simp] theorem State.accept_errinfo (s : State) (w : Word) : (s.accept w).errinfo = s.errinfo := rfl
@[simp] theorem State.accept_lat (s : State) (w : Word) : (s.accept w).lat = some (s.latchOf w) := rfl
@[simp] theorem State.accept_life (s : State) (w : Word) : (s.accept w).life = s.life := rfl
@[simp] theorem State.accept_mem (s : State) (w : Word) : (s.accept w).mem = s.mem := rfl
@[simp] theorem State.accept_turns (s : State) (w : Word) : (s.accept w).turns = s.turns := rfl
@[simp] theorem State.accept_rdata (s : State) (w : Word) : (s.accept w).rdata = s.rdata := rfl
@[simp] theorem State.accept_mdata (s : State) (w : Word) : (s.accept w).mdata = s.mdata := rfl
@[simp] theorem State.accept_fresh (s : State) (w : Word) : (s.accept w).fresh = s.fresh := rfl

/-! ### dropCmd -/

@[simp] theorem State.dropCmd_params (s : State) : s.dropCmd.params = s.params := rfl
@[simp] theorem State.dropCmd_irqEn (s : State) : s.dropCmd.irqEn = s.irqEn := rfl
@[simp] theorem State.dropCmd_done (s : State) : s.dropCmd.done = s.done := rfl
@[simp] theorem State.dropCmd_dropped (s : State) : s.dropCmd.dropped = true := rfl
@[simp] theorem State.dropCmd_err (s : State) : s.dropCmd.err = s.err := rfl
@[simp] theorem State.dropCmd_argSrc (s : State) : s.dropCmd.argSrc = s.argSrc := rfl
@[simp] theorem State.dropCmd_argDst (s : State) : s.dropCmd.argDst = s.argDst := rfl
@[simp] theorem State.dropCmd_argN (s : State) : s.dropCmd.argN = s.argN := rfl
@[simp] theorem State.dropCmd_argCap (s : State) : s.dropCmd.argCap = s.argCap := rfl
@[simp] theorem State.dropCmd_argBitcntLo (s : State) : s.dropCmd.argBitcntLo = s.argBitcntLo := rfl
@[simp] theorem State.dropCmd_argBitcntHi (s : State) : s.dropCmd.argBitcntHi = s.argBitcntHi := rfl
@[simp] theorem State.dropCmd_resBitcnt (s : State) : s.dropCmd.resBitcnt = s.resBitcnt := rfl
@[simp] theorem State.dropCmd_resWordcnt (s : State) : s.dropCmd.resWordcnt = s.resWordcnt := rfl
@[simp] theorem State.dropCmd_resSymcnt (s : State) : s.dropCmd.resSymcnt = s.resSymcnt := rfl
@[simp] theorem State.dropCmd_resCodelen (s : State) : s.dropCmd.resCodelen = s.resCodelen := rfl
@[simp] theorem State.dropCmd_resCode (s : State) : s.dropCmd.resCode = s.resCode := rfl
@[simp] theorem State.dropCmd_nsym (s : State) : s.dropCmd.nsym = s.nsym := rfl
@[simp] theorem State.dropCmd_errinfo (s : State) : s.dropCmd.errinfo = s.errinfo := rfl
@[simp] theorem State.dropCmd_lat (s : State) : s.dropCmd.lat = s.lat := rfl
@[simp] theorem State.dropCmd_life (s : State) : s.dropCmd.life = s.life := rfl
@[simp] theorem State.dropCmd_mem (s : State) : s.dropCmd.mem = s.mem := rfl
@[simp] theorem State.dropCmd_turns (s : State) : s.dropCmd.turns = s.turns := rfl
@[simp] theorem State.dropCmd_rdata (s : State) : s.dropCmd.rdata = s.rdata := rfl
@[simp] theorem State.dropCmd_mdata (s : State) : s.dropCmd.mdata = s.mdata := rfl
@[simp] theorem State.dropCmd_fresh (s : State) : s.dropCmd.fresh = s.fresh := rfl

/-! ### finish -/

@[simp] theorem State.finish_params (s : State) : s.finish.params = s.params := rfl
@[simp] theorem State.finish_irqEn (s : State) : s.finish.irqEn = s.irqEn := rfl
@[simp] theorem State.finish_done (s : State) : s.finish.done = true := rfl
@[simp] theorem State.finish_dropped (s : State) : s.finish.dropped = s.dropped := rfl
@[simp] theorem State.finish_err (s : State) : s.finish.err = s.err := rfl
@[simp] theorem State.finish_argSrc (s : State) : s.finish.argSrc = s.argSrc := rfl
@[simp] theorem State.finish_argDst (s : State) : s.finish.argDst = s.argDst := rfl
@[simp] theorem State.finish_argN (s : State) : s.finish.argN = s.argN := rfl
@[simp] theorem State.finish_argCap (s : State) : s.finish.argCap = s.argCap := rfl
@[simp] theorem State.finish_argBitcntLo (s : State) : s.finish.argBitcntLo = s.argBitcntLo := rfl
@[simp] theorem State.finish_argBitcntHi (s : State) : s.finish.argBitcntHi = s.argBitcntHi := rfl
@[simp] theorem State.finish_resBitcnt (s : State) : s.finish.resBitcnt = s.resBitcnt := rfl
@[simp] theorem State.finish_resWordcnt (s : State) : s.finish.resWordcnt = s.resWordcnt := rfl
@[simp] theorem State.finish_resSymcnt (s : State) : s.finish.resSymcnt = s.resSymcnt := rfl
@[simp] theorem State.finish_resCodelen (s : State) : s.finish.resCodelen = s.resCodelen := rfl
@[simp] theorem State.finish_resCode (s : State) : s.finish.resCode = s.resCode := rfl
@[simp] theorem State.finish_nsym (s : State) : s.finish.nsym = s.nsym := rfl
@[simp] theorem State.finish_errinfo (s : State) : s.finish.errinfo = s.errinfo := rfl
@[simp] theorem State.finish_lat (s : State) : s.finish.lat = none := rfl
@[simp] theorem State.finish_life (s : State) : s.finish.life = s.life := rfl
@[simp] theorem State.finish_mem (s : State) : s.finish.mem = s.mem := rfl
@[simp] theorem State.finish_turns (s : State) : s.finish.turns = s.turns := rfl
@[simp] theorem State.finish_rdata (s : State) : s.finish.rdata = s.rdata := rfl
@[simp] theorem State.finish_mdata (s : State) : s.finish.mdata = s.mdata := rfl
@[simp] theorem State.finish_fresh (s : State) : s.finish.fresh = s.fresh := rfl

/-! ### completeOk -/

@[simp] theorem State.completeOk_params (s : State) (r : CmdOk) : (s.completeOk r).params = s.params := rfl
@[simp] theorem State.completeOk_irqEn (s : State) (r : CmdOk) : (s.completeOk r).irqEn = s.irqEn := rfl
@[simp] theorem State.completeOk_done (s : State) (r : CmdOk) : (s.completeOk r).done = true := rfl
@[simp] theorem State.completeOk_dropped (s : State) (r : CmdOk) : (s.completeOk r).dropped = s.dropped := rfl
@[simp] theorem State.completeOk_err (s : State) (r : CmdOk) : (s.completeOk r).err = none := rfl
@[simp] theorem State.completeOk_argSrc (s : State) (r : CmdOk) : (s.completeOk r).argSrc = s.argSrc := rfl
@[simp] theorem State.completeOk_argDst (s : State) (r : CmdOk) : (s.completeOk r).argDst = s.argDst := rfl
@[simp] theorem State.completeOk_argN (s : State) (r : CmdOk) : (s.completeOk r).argN = s.argN := rfl
@[simp] theorem State.completeOk_argCap (s : State) (r : CmdOk) : (s.completeOk r).argCap = s.argCap := rfl
@[simp] theorem State.completeOk_argBitcntLo (s : State) (r : CmdOk) : (s.completeOk r).argBitcntLo = s.argBitcntLo := rfl
@[simp] theorem State.completeOk_argBitcntHi (s : State) (r : CmdOk) : (s.completeOk r).argBitcntHi = s.argBitcntHi := rfl
@[simp] theorem State.completeOk_resBitcnt (s : State) (r : CmdOk) : (s.completeOk r).resBitcnt = BitVec.ofNat 64 r.bitcnt := rfl
@[simp] theorem State.completeOk_resWordcnt (s : State) (r : CmdOk) : (s.completeOk r).resWordcnt = BitVec.ofNat 32 r.wordcnt := rfl
@[simp] theorem State.completeOk_resSymcnt (s : State) (r : CmdOk) : (s.completeOk r).resSymcnt = BitVec.ofNat 32 r.symcnt := rfl
@[simp] theorem State.completeOk_resCodelen (s : State) (r : CmdOk) : (s.completeOk r).resCodelen = BitVec.ofNat 32 r.codelen := rfl
@[simp] theorem State.completeOk_resCode (s : State) (r : CmdOk) : (s.completeOk r).resCode = BitVec.ofNat 64 r.code := rfl
@[simp] theorem State.completeOk_nsym (s : State) (r : CmdOk) : (s.completeOk r).nsym = committedNsym s.nsym r.commit := rfl
@[simp] theorem State.completeOk_errinfo (s : State) (r : CmdOk) : (s.completeOk r).errinfo = 0 := rfl
@[simp] theorem State.completeOk_lat (s : State) (r : CmdOk) : (s.completeOk r).lat = none := rfl
@[simp] theorem State.completeOk_life (s : State) (r : CmdOk) : (s.completeOk r).life = committedLife s.life r.commit := rfl
@[simp] theorem State.completeOk_mem (s : State) (r : CmdOk) : (s.completeOk r).mem = writeElems r.outSize s.mem r.outAddr r.out := rfl
@[simp] theorem State.completeOk_turns (s : State) (r : CmdOk) : (s.completeOk r).turns = s.turns := rfl
@[simp] theorem State.completeOk_rdata (s : State) (r : CmdOk) : (s.completeOk r).rdata = s.rdata := rfl
@[simp] theorem State.completeOk_mdata (s : State) (r : CmdOk) : (s.completeOk r).mdata = s.mdata := rfl
@[simp] theorem State.completeOk_fresh (s : State) (r : CmdOk) : (s.completeOk r).fresh = s.fresh := rfl

/-! ### raiseErr -/

@[simp] theorem State.raiseErr_params (s : State) (e : CmdError) (i : Nat) : (s.raiseErr e i).params = s.params := rfl
@[simp] theorem State.raiseErr_irqEn (s : State) (e : CmdError) (i : Nat) : (s.raiseErr e i).irqEn = s.irqEn := rfl
@[simp] theorem State.raiseErr_done (s : State) (e : CmdError) (i : Nat) : (s.raiseErr e i).done = true := rfl
@[simp] theorem State.raiseErr_dropped (s : State) (e : CmdError) (i : Nat) : (s.raiseErr e i).dropped = s.dropped := rfl
@[simp] theorem State.raiseErr_err (s : State) (e : CmdError) (i : Nat) : (s.raiseErr e i).err = some e := rfl
@[simp] theorem State.raiseErr_argSrc (s : State) (e : CmdError) (i : Nat) : (s.raiseErr e i).argSrc = s.argSrc := rfl
@[simp] theorem State.raiseErr_argDst (s : State) (e : CmdError) (i : Nat) : (s.raiseErr e i).argDst = s.argDst := rfl
@[simp] theorem State.raiseErr_argN (s : State) (e : CmdError) (i : Nat) : (s.raiseErr e i).argN = s.argN := rfl
@[simp] theorem State.raiseErr_argCap (s : State) (e : CmdError) (i : Nat) : (s.raiseErr e i).argCap = s.argCap := rfl
@[simp] theorem State.raiseErr_argBitcntLo (s : State) (e : CmdError) (i : Nat) : (s.raiseErr e i).argBitcntLo = s.argBitcntLo := rfl
@[simp] theorem State.raiseErr_argBitcntHi (s : State) (e : CmdError) (i : Nat) : (s.raiseErr e i).argBitcntHi = s.argBitcntHi := rfl
@[simp] theorem State.raiseErr_resBitcnt (s : State) (e : CmdError) (i : Nat) : (s.raiseErr e i).resBitcnt = 0 := rfl
@[simp] theorem State.raiseErr_resWordcnt (s : State) (e : CmdError) (i : Nat) : (s.raiseErr e i).resWordcnt = 0 := rfl
@[simp] theorem State.raiseErr_resSymcnt (s : State) (e : CmdError) (i : Nat) : (s.raiseErr e i).resSymcnt = 0 := rfl
@[simp] theorem State.raiseErr_resCodelen (s : State) (e : CmdError) (i : Nat) : (s.raiseErr e i).resCodelen = 0 := rfl
@[simp] theorem State.raiseErr_resCode (s : State) (e : CmdError) (i : Nat) : (s.raiseErr e i).resCode = 0 := rfl
@[simp] theorem State.raiseErr_nsym (s : State) (e : CmdError) (i : Nat) : (s.raiseErr e i).nsym = s.nsym := rfl
@[simp] theorem State.raiseErr_errinfo (s : State) (e : CmdError) (i : Nat) : (s.raiseErr e i).errinfo = BitVec.ofNat 64 i := rfl
@[simp] theorem State.raiseErr_lat (s : State) (e : CmdError) (i : Nat) : (s.raiseErr e i).lat = none := rfl
@[simp] theorem State.raiseErr_life (s : State) (e : CmdError) (i : Nat) : (s.raiseErr e i).life = s.life := rfl
@[simp] theorem State.raiseErr_mem (s : State) (e : CmdError) (i : Nat) : (s.raiseErr e i).mem = s.mem := rfl
@[simp] theorem State.raiseErr_turns (s : State) (e : CmdError) (i : Nat) : (s.raiseErr e i).turns = s.turns := rfl
@[simp] theorem State.raiseErr_rdata (s : State) (e : CmdError) (i : Nat) : (s.raiseErr e i).rdata = s.rdata := rfl
@[simp] theorem State.raiseErr_mdata (s : State) (e : CmdError) (i : Nat) : (s.raiseErr e i).mdata = s.mdata := rfl
@[simp] theorem State.raiseErr_fresh (s : State) (e : CmdError) (i : Nat) : (s.raiseErr e i).fresh = s.fresh := rfl

/-! ### writeCtrl -/

@[simp] theorem State.writeCtrl_params (s : State) (v : Word) : (s.writeCtrl v).params = s.params := rfl
@[simp] theorem State.writeCtrl_irqEn (s : State) (v : Word) : (s.writeCtrl v).irqEn = v.getLsbD 0 := rfl
@[simp] theorem State.writeCtrl_done (s : State) (v : Word) : (s.writeCtrl v).done = s.done := rfl
@[simp] theorem State.writeCtrl_dropped (s : State) (v : Word) : (s.writeCtrl v).dropped = s.dropped := rfl
@[simp] theorem State.writeCtrl_err (s : State) (v : Word) : (s.writeCtrl v).err = s.err := rfl
@[simp] theorem State.writeCtrl_argSrc (s : State) (v : Word) : (s.writeCtrl v).argSrc = s.argSrc := rfl
@[simp] theorem State.writeCtrl_argDst (s : State) (v : Word) : (s.writeCtrl v).argDst = s.argDst := rfl
@[simp] theorem State.writeCtrl_argN (s : State) (v : Word) : (s.writeCtrl v).argN = s.argN := rfl
@[simp] theorem State.writeCtrl_argCap (s : State) (v : Word) : (s.writeCtrl v).argCap = s.argCap := rfl
@[simp] theorem State.writeCtrl_argBitcntLo (s : State) (v : Word) : (s.writeCtrl v).argBitcntLo = s.argBitcntLo := rfl
@[simp] theorem State.writeCtrl_argBitcntHi (s : State) (v : Word) : (s.writeCtrl v).argBitcntHi = s.argBitcntHi := rfl
@[simp] theorem State.writeCtrl_resBitcnt (s : State) (v : Word) : (s.writeCtrl v).resBitcnt = s.resBitcnt := rfl
@[simp] theorem State.writeCtrl_resWordcnt (s : State) (v : Word) : (s.writeCtrl v).resWordcnt = s.resWordcnt := rfl
@[simp] theorem State.writeCtrl_resSymcnt (s : State) (v : Word) : (s.writeCtrl v).resSymcnt = s.resSymcnt := rfl
@[simp] theorem State.writeCtrl_resCodelen (s : State) (v : Word) : (s.writeCtrl v).resCodelen = s.resCodelen := rfl
@[simp] theorem State.writeCtrl_resCode (s : State) (v : Word) : (s.writeCtrl v).resCode = s.resCode := rfl
@[simp] theorem State.writeCtrl_nsym (s : State) (v : Word) : (s.writeCtrl v).nsym = s.nsym := rfl
@[simp] theorem State.writeCtrl_errinfo (s : State) (v : Word) : (s.writeCtrl v).errinfo = s.errinfo := rfl
@[simp] theorem State.writeCtrl_lat (s : State) (v : Word) : (s.writeCtrl v).lat = s.lat := rfl
@[simp] theorem State.writeCtrl_life (s : State) (v : Word) : (s.writeCtrl v).life = s.life := rfl
@[simp] theorem State.writeCtrl_mem (s : State) (v : Word) : (s.writeCtrl v).mem = s.mem := rfl
@[simp] theorem State.writeCtrl_turns (s : State) (v : Word) : (s.writeCtrl v).turns = s.turns := rfl
@[simp] theorem State.writeCtrl_rdata (s : State) (v : Word) : (s.writeCtrl v).rdata = s.rdata := rfl
@[simp] theorem State.writeCtrl_mdata (s : State) (v : Word) : (s.writeCtrl v).mdata = s.mdata := rfl
@[simp] theorem State.writeCtrl_fresh (s : State) (v : Word) : (s.writeCtrl v).fresh = s.fresh := rfl

/-! ### writeStatus -/

@[simp] theorem State.writeStatus_params (s : State) (v : Word) : (s.writeStatus v).params = s.params := rfl
@[simp] theorem State.writeStatus_irqEn (s : State) (v : Word) : (s.writeStatus v).irqEn = s.irqEn := rfl
@[simp] theorem State.writeStatus_done (s : State) (v : Word) : (s.writeStatus v).done = (s.done && !v.getLsbD 1) := rfl
@[simp] theorem State.writeStatus_dropped (s : State) (v : Word) : (s.writeStatus v).dropped = (s.dropped && !v.getLsbD 3) := rfl
@[simp] theorem State.writeStatus_err (s : State) (v : Word) : (s.writeStatus v).err = s.err := rfl
@[simp] theorem State.writeStatus_argSrc (s : State) (v : Word) : (s.writeStatus v).argSrc = s.argSrc := rfl
@[simp] theorem State.writeStatus_argDst (s : State) (v : Word) : (s.writeStatus v).argDst = s.argDst := rfl
@[simp] theorem State.writeStatus_argN (s : State) (v : Word) : (s.writeStatus v).argN = s.argN := rfl
@[simp] theorem State.writeStatus_argCap (s : State) (v : Word) : (s.writeStatus v).argCap = s.argCap := rfl
@[simp] theorem State.writeStatus_argBitcntLo (s : State) (v : Word) : (s.writeStatus v).argBitcntLo = s.argBitcntLo := rfl
@[simp] theorem State.writeStatus_argBitcntHi (s : State) (v : Word) : (s.writeStatus v).argBitcntHi = s.argBitcntHi := rfl
@[simp] theorem State.writeStatus_resBitcnt (s : State) (v : Word) : (s.writeStatus v).resBitcnt = s.resBitcnt := rfl
@[simp] theorem State.writeStatus_resWordcnt (s : State) (v : Word) : (s.writeStatus v).resWordcnt = s.resWordcnt := rfl
@[simp] theorem State.writeStatus_resSymcnt (s : State) (v : Word) : (s.writeStatus v).resSymcnt = s.resSymcnt := rfl
@[simp] theorem State.writeStatus_resCodelen (s : State) (v : Word) : (s.writeStatus v).resCodelen = s.resCodelen := rfl
@[simp] theorem State.writeStatus_resCode (s : State) (v : Word) : (s.writeStatus v).resCode = s.resCode := rfl
@[simp] theorem State.writeStatus_nsym (s : State) (v : Word) : (s.writeStatus v).nsym = s.nsym := rfl
@[simp] theorem State.writeStatus_errinfo (s : State) (v : Word) : (s.writeStatus v).errinfo = s.errinfo := rfl
@[simp] theorem State.writeStatus_lat (s : State) (v : Word) : (s.writeStatus v).lat = s.lat := rfl
@[simp] theorem State.writeStatus_life (s : State) (v : Word) : (s.writeStatus v).life = s.life := rfl
@[simp] theorem State.writeStatus_mem (s : State) (v : Word) : (s.writeStatus v).mem = s.mem := rfl
@[simp] theorem State.writeStatus_turns (s : State) (v : Word) : (s.writeStatus v).turns = s.turns := rfl
@[simp] theorem State.writeStatus_rdata (s : State) (v : Word) : (s.writeStatus v).rdata = s.rdata := rfl
@[simp] theorem State.writeStatus_mdata (s : State) (v : Word) : (s.writeStatus v).mdata = s.mdata := rfl
@[simp] theorem State.writeStatus_fresh (s : State) (v : Word) : (s.writeStatus v).fresh = s.fresh := rfl

/-! ### draw -/

@[simp] theorem State.draw_params (s : State) : s.draw.params = s.params := rfl
@[simp] theorem State.draw_irqEn (s : State) : s.draw.irqEn = s.irqEn := rfl
@[simp] theorem State.draw_done (s : State) : s.draw.done = s.done := rfl
@[simp] theorem State.draw_dropped (s : State) : s.draw.dropped = s.dropped := rfl
@[simp] theorem State.draw_err (s : State) : s.draw.err = s.err := rfl
@[simp] theorem State.draw_argSrc (s : State) : s.draw.argSrc = s.argSrc := rfl
@[simp] theorem State.draw_argDst (s : State) : s.draw.argDst = s.argDst := rfl
@[simp] theorem State.draw_argN (s : State) : s.draw.argN = s.argN := rfl
@[simp] theorem State.draw_argCap (s : State) : s.draw.argCap = s.argCap := rfl
@[simp] theorem State.draw_argBitcntLo (s : State) : s.draw.argBitcntLo = s.argBitcntLo := rfl
@[simp] theorem State.draw_argBitcntHi (s : State) : s.draw.argBitcntHi = s.argBitcntHi := rfl
@[simp] theorem State.draw_resBitcnt (s : State) : s.draw.resBitcnt = s.resBitcnt := rfl
@[simp] theorem State.draw_resWordcnt (s : State) : s.draw.resWordcnt = s.resWordcnt := rfl
@[simp] theorem State.draw_resSymcnt (s : State) : s.draw.resSymcnt = s.resSymcnt := rfl
@[simp] theorem State.draw_resCodelen (s : State) : s.draw.resCodelen = s.resCodelen := rfl
@[simp] theorem State.draw_resCode (s : State) : s.draw.resCode = s.resCode := rfl
@[simp] theorem State.draw_nsym (s : State) : s.draw.nsym = s.nsym := rfl
@[simp] theorem State.draw_errinfo (s : State) : s.draw.errinfo = s.errinfo := rfl
@[simp] theorem State.draw_lat (s : State) : s.draw.lat = s.lat := rfl
@[simp] theorem State.draw_life (s : State) : s.draw.life = s.life := rfl
@[simp] theorem State.draw_mem (s : State) : s.draw.mem = s.mem := rfl
@[simp] theorem State.draw_turns (s : State) : s.draw.turns = s.turns := rfl
@[simp] theorem State.draw_rdata (s : State) : s.draw.rdata = s.rdata := rfl
@[simp] theorem State.draw_mdata (s : State) : s.draw.mdata = s.mdata := rfl
@[simp] theorem State.draw_fresh (s : State) : s.draw.fresh = s.fresh + 1 := rfl

/-! ### hwReset -/

@[simp] theorem State.hwReset_params (s : State) : s.hwReset.params = s.params := rfl
@[simp] theorem State.hwReset_irqEn (s : State) : s.hwReset.irqEn = State.reset.irqEn := rfl
@[simp] theorem State.hwReset_done (s : State) : s.hwReset.done = State.reset.done := rfl
@[simp] theorem State.hwReset_dropped (s : State) : s.hwReset.dropped = State.reset.dropped := rfl
@[simp] theorem State.hwReset_err (s : State) : s.hwReset.err = State.reset.err := rfl
@[simp] theorem State.hwReset_argSrc (s : State) : s.hwReset.argSrc = State.reset.argSrc := rfl
@[simp] theorem State.hwReset_argDst (s : State) : s.hwReset.argDst = State.reset.argDst := rfl
@[simp] theorem State.hwReset_argN (s : State) : s.hwReset.argN = State.reset.argN := rfl
@[simp] theorem State.hwReset_argCap (s : State) : s.hwReset.argCap = State.reset.argCap := rfl
@[simp] theorem State.hwReset_argBitcntLo (s : State) : s.hwReset.argBitcntLo = State.reset.argBitcntLo := rfl
@[simp] theorem State.hwReset_argBitcntHi (s : State) : s.hwReset.argBitcntHi = State.reset.argBitcntHi := rfl
@[simp] theorem State.hwReset_resBitcnt (s : State) : s.hwReset.resBitcnt = State.reset.resBitcnt := rfl
@[simp] theorem State.hwReset_resWordcnt (s : State) : s.hwReset.resWordcnt = State.reset.resWordcnt := rfl
@[simp] theorem State.hwReset_resSymcnt (s : State) : s.hwReset.resSymcnt = State.reset.resSymcnt := rfl
@[simp] theorem State.hwReset_resCodelen (s : State) : s.hwReset.resCodelen = State.reset.resCodelen := rfl
@[simp] theorem State.hwReset_resCode (s : State) : s.hwReset.resCode = State.reset.resCode := rfl
@[simp] theorem State.hwReset_nsym (s : State) : s.hwReset.nsym = State.reset.nsym := rfl
@[simp] theorem State.hwReset_errinfo (s : State) : s.hwReset.errinfo = State.reset.errinfo := rfl
@[simp] theorem State.hwReset_lat (s : State) : s.hwReset.lat = State.reset.lat := rfl
@[simp] theorem State.hwReset_life (s : State) : s.hwReset.life = State.reset.life := rfl
@[simp] theorem State.hwReset_turns (s : State) : s.hwReset.turns = s.turns := rfl
@[simp] theorem State.hwReset_rdata (s : State) : s.hwReset.rdata = s.rdata := rfl
@[simp] theorem State.hwReset_mdata (s : State) : s.hwReset.mdata = s.mdata := rfl

end Sys2Proof.Machine
end

