-- ==== Sys2Proof/Laws/Memory.lean ====
section
/-! SUPPORT. Sorted association lists and DMA memory: read after write, the canonical form, what each wide access does. -/
namespace Sys2Proof.Machine

/-! ### Association lists -/

section
variable {α : Type}

theorem Assoc.find_put (m : Assoc α) (a b : Nat) (v : α) :
    Assoc.find (Assoc.put m a v) b = if b = a then some v else Assoc.find m b := by
  induction m with
  | nil => simp [Assoc.put, Assoc.find]
  | cons e m ih =>
    obtain ⟨k, u⟩ := e
    unfold Assoc.put
    split
    · simp [Assoc.find]
    · split
      · subst ‹a = k›
        by_cases h : b = a <;> simp [Assoc.find, h]
      · by_cases h : b = k
        · subst h
          have : b ≠ a := fun h => ‹¬a = b› h.symm
          simp [Assoc.find, this]
        · simp [Assoc.find, h, ih]

theorem Assoc.find_drop (m : Assoc α) (a b : Nat) :
    Assoc.find (Assoc.drop m a) b = if b = a then none else Assoc.find m b := by
  induction m with
  | nil => simp [Assoc.drop, Assoc.find]
  | cons e m ih =>
    obtain ⟨k, u⟩ := e
    unfold Assoc.drop
    split
    · subst ‹a = k›
      rw [ih]
      by_cases h : b = a <;> simp [Assoc.find, h]
    · by_cases h : b = k
      · subst h
        have : b ≠ a := fun h => ‹¬a = b› h.symm
        simp [Assoc.find, this]
      · simp [Assoc.find, h, ih]

theorem Assoc.mem_put {m : Assoc α} {a : Nat} {v : α} {e : Nat × α} (h : e ∈ Assoc.put m a v) :
    e = (a, v) ∨ e ∈ m := by
  induction m with
  | nil => simpa [Assoc.put] using h
  | cons x m ih =>
    obtain ⟨k, u⟩ := x
    unfold Assoc.put at h
    split at h
    · simpa using h
    · split at h
      · rcases List.mem_cons.mp h with h | h
        · exact .inl h
        · exact .inr (List.mem_cons_of_mem _ h)
      · rcases List.mem_cons.mp h with h | h
        · exact .inr (h ▸ List.mem_cons_self)
        · rcases ih h with h | h
          · exact .inl h
          · exact .inr (List.mem_cons_of_mem _ h)

theorem Assoc.mem_of_mem_drop {m : Assoc α} {a : Nat} {e : Nat × α} (h : e ∈ Assoc.drop m a) : e ∈ m := by
  induction m with
  | nil => simp [Assoc.drop] at h
  | cons x m ih =>
    obtain ⟨k, u⟩ := x
    unfold Assoc.drop at h
    split at h
    · exact List.mem_cons_of_mem _ (ih h)
    · rcases List.mem_cons.mp h with h | h
      · exact h ▸ List.mem_cons_self
      · exact List.mem_cons_of_mem _ (ih h)

theorem Assoc.rising_put {m : Assoc α} (h : Assoc.Rising m) (a : Nat) (v : α) : Assoc.Rising (Assoc.put m a v) := by
  induction m with
  | nil => simp [Assoc.put, Assoc.Rising]
  | cons x m ih =>
    obtain ⟨k, u⟩ := x
    obtain ⟨hx, hm⟩ := List.pairwise_cons.mp h
    unfold Assoc.put
    split
    · refine List.pairwise_cons.mpr ⟨fun e he => ?_, h⟩
      rcases List.mem_cons.mp he with rfl | he
      · assumption
      · exact lt_trans ‹a < k› (hx e he)
    · split
      · subst ‹a = k›
        exact List.pairwise_cons.mpr ⟨hx, hm⟩
      · refine List.pairwise_cons.mpr ⟨fun e he => ?_, ih hm⟩
        rcases Assoc.mem_put he with rfl | he
        · show k < a
          omega
        · exact hx e he

theorem Assoc.rising_drop {m : Assoc α} (h : Assoc.Rising m) (a : Nat) : Assoc.Rising (Assoc.drop m a) := by
  induction m with
  | nil => simp [Assoc.drop, Assoc.Rising]
  | cons x m ih =>
    obtain ⟨k, u⟩ := x
    obtain ⟨hx, hm⟩ := List.pairwise_cons.mp h
    unfold Assoc.drop
    split
    · exact ih hm
    · exact List.pairwise_cons.mpr ⟨fun e he => hx e (Assoc.mem_of_mem_drop he), ih hm⟩

/-- A key that is not there is put beside the others. -/
theorem Assoc.put_perm {m : Assoc α} {a : Nat} (v : α) (h : Assoc.find m a = none) :
    (Assoc.put m a v).Perm ((a, v) :: m) := by
  induction m with
  | nil => simp [Assoc.put]
  | cons x m ih =>
    obtain ⟨k, u⟩ := x
    have hk : a ≠ k := by
      rintro rfl
      simp [Assoc.find] at h
    have hm : Assoc.find m a = none := by simpa [Assoc.find, hk] using h
    unfold Assoc.put
    split
    · exact List.Perm.refl _
    · exact ((ih hm).cons _).trans (List.Perm.swap _ _ _)

/-- With rising keys, what is found is what is listed. -/
theorem Assoc.find_eq_some_iff {m : Assoc α} (h : Assoc.Rising m) (a : Nat) (v : α) :
    Assoc.find m a = some v ↔ (a, v) ∈ m := by
  induction m with
  | nil => simp [Assoc.find]
  | cons x m ih =>
    obtain ⟨k, u⟩ := x
    obtain ⟨hx, hm⟩ := List.pairwise_cons.mp h
    by_cases hk : a = k
    · subst hk
      have : (a, v) ∉ m := fun hv => absurd (hx _ hv) (lt_irrefl _)
      simp [Assoc.find, this, eq_comm]
    · simp [Assoc.find, hk, ih hm]

end

/-! ### One byte -/

/-- Plain memory (rule R63): the byte written is read back, every other byte is left alone. -/
theorem Memory.read_write (m : Memory) (a c : Nat) (b : Byte) :
    Memory.read (Memory.write m a b) c = if c = a then b else Memory.read m c := by
  unfold Memory.read Memory.write
  by_cases h : b = unlistedByte <;> by_cases hc : c = a <;> simp [h, hc, Assoc.find_put, Assoc.find_drop]

theorem Memory.wf_write {m : Memory} (h : Memory.wf m) (a : Nat) (b : Byte) : Memory.wf (Memory.write m a b) := by
  unfold Memory.write
  split
  · exact ⟨Assoc.rising_drop h.1 a, fun c hc => h.2 c (Assoc.mem_of_mem_drop hc)⟩
  · refine ⟨Assoc.rising_put h.1 a b, fun c hc => ?_⟩
    rcases Assoc.mem_put hc with rfl | hc
    · assumption
    · exact h.2 c hc

theorem Memory.within_write {m : Memory} {size a : Nat} (h : Memory.within m size) (ha : a < size) (b : Byte) :
    Memory.within (Memory.write m a b) size := by
  intro c hc
  unfold Memory.write at hc
  split at hc
  · exact h c (Assoc.mem_of_mem_drop hc)
  · rcases Assoc.mem_put hc with rfl | hc
    · exact ha
    · exact h c hc

/-! ### Wide accesses -/

/-- What one byte holds after a wide write: byte c - a of the value inside, the old byte outside (rule R14). -/
theorem read_memWrite (n : Nat) : ∀ (m : Memory) (a v c : Nat),
    Memory.read (memWrite m a n v) c =
      if a ≤ c ∧ c < a + n then BitVec.ofNat 8 (v / 256 ^ (c - a)) else Memory.read m c := by
  induction n with
  | zero => intro m a v c; rw [memWrite, if_neg (by omega)]
  | succ n ih =>
    intro m a v c
    rw [memWrite, ih, Memory.read_write]
    by_cases h : c = a
    · subst h; simp
    · by_cases h2 : a + 1 ≤ c ∧ c < a + 1 + n
      · have e : c - a = (c - (a + 1)) + 1 := by omega
        rw [if_pos h2, if_pos (by omega), e, pow_succ, Nat.mul_comm, Nat.div_div_eq_div_mul]
      · rw [if_neg h2, if_neg h, if_neg (by omega)]

theorem Memory.wf_memWrite (n : Nat) : ∀ {m : Memory}, Memory.wf m → ∀ a v, Memory.wf (memWrite m a n v) := by
  induction n with
  | zero => intro m h a v; exact h
  | succ n ih => intro m h a v; exact ih (Memory.wf_write h a _) _ _

theorem Memory.within_memWrite (n : Nat) {size : Nat} : ∀ {m : Memory}, Memory.within m size → ∀ a v, a + n ≤ size →
    Memory.within (memWrite m a n v) size := by
  induction n with
  | zero => intro m h a v _; exact h
  | succ n ih => intro m h a v ha; exact ih (Memory.within_write h (by omega) _) _ _ (by omega)

/-- A wide read depends on the bytes it reads. -/
theorem memRead_congr (n : Nat) : ∀ (m m' : Memory) (a : Nat),
    (∀ c, a ≤ c → c < a + n → Memory.read m c = Memory.read m' c) → memRead m a n = memRead m' a n := by
  induction n with
  | zero => intro m m' a _; rfl
  | succ n ih =>
    intro m m' a h
    rw [memRead, memRead, h a le_rfl (by omega), ih m m' (a + 1) fun c h1 h2 => h c (by omega) (by omega)]

theorem memRead_lt (n : Nat) : ∀ (m : Memory) (a : Nat), memRead m a n < 256 ^ n := by
  induction n with
  | zero => intro m a; simp [memRead]
  | succ n ih =>
    intro m a
    have h1 := (Memory.read m a).isLt
    have h2 := ih m (a + 1)
    rw [memRead, pow_succ]
    norm_num at h1
    omega

/-- Reading back a wide write gives the value, as wide as it is. -/
theorem memRead_memWrite (n : Nat) : ∀ (m : Memory) (a v : Nat), memRead (memWrite m a n v) a n = v % 256 ^ n := by
  induction n with
  | zero => intro m a v; simp [memRead, Nat.mod_one]
  | succ n ih =>
    intro m a v
    have h0 : Memory.read (memWrite m a (n + 1) v) a = BitVec.ofNat 8 v := by simp [read_memWrite]
    rw [memRead, h0, memWrite, ih]
    have e : (BitVec.ofNat 8 v).toNat = v % 256 := by simp
    rw [e, pow_succ, Nat.mul_comm (256 ^ n), Nat.mod_mul]

/-! ### Consecutive elements -/

/-- What one byte holds after consecutive elements are written. -/
theorem read_writeElems (size : Nat) (hs : 0 < size) (vs : List Nat) : ∀ (m : Memory) (a c : Nat),
    Memory.read (writeElems size m a vs) c =
      if a ≤ c ∧ c < a + size * vs.length then
        BitVec.ofNat 8 (vs.getD ((c - a) / size) 0 / 256 ^ ((c - a) % size))
      else Memory.read m c := by
  induction vs with
  | nil => intro m a c; rw [writeElems, List.length_nil, Nat.mul_zero, if_neg (by omega)]
  | cons v vs ih =>
    intro m a c
    rw [writeElems, ih, read_memWrite]
    have hl : size * (v :: vs).length = size * vs.length + size := by simp [Nat.mul_add]
    rw [hl]
    by_cases h1 : a + size ≤ c ∧ c < a + size + size * vs.length
    · have e : c - a = (c - (a + size)) + size := by omega
      rw [if_pos h1, if_pos (by omega), e, Nat.add_div_right _ hs, Nat.add_mod_right]
      simp
    · rw [if_neg h1]
      by_cases h2 : a ≤ c ∧ c < a + size
      · have hn : 0 ≤ size * vs.length := Nat.zero_le _
        have hq : (c - a) / size = 0 := Nat.div_eq_of_lt (by omega)
        have hr : (c - a) % size = c - a := Nat.mod_eq_of_lt (by omega)
        rw [if_pos h2, if_pos (by omega), hq, hr]
        simp
      · rw [if_neg h2, if_neg (by omega)]

/-- The frame of consecutive writes, whatever the element size. -/
theorem read_writeElems_outside (size : Nat) (vs : List Nat) : ∀ (m : Memory) (a c : Nat),
    ¬(a ≤ c ∧ c < a + size * vs.length) → Memory.read (writeElems size m a vs) c = Memory.read m c := by
  induction vs with
  | nil => intro m a c _; rfl
  | cons v vs ih =>
    intro m a c h
    have hl : size * (v :: vs).length = size * vs.length + size := by simp [Nat.mul_add]
    rw [hl] at h
    have hn : 0 ≤ size * vs.length := Nat.zero_le _
    rw [writeElems, ih _ _ _ (by omega), read_memWrite, if_neg (by omega)]

theorem Memory.wf_writeElems (size : Nat) (vs : List Nat) : ∀ {m : Memory}, Memory.wf m → ∀ a,
    Memory.wf (writeElems size m a vs) := by
  induction vs with
  | nil => intro m h a; exact h
  | cons v vs ih => intro m h a; exact ih (Memory.wf_memWrite size h a v) _

theorem Memory.within_writeElems (size : Nat) {top : Nat} (vs : List Nat) : ∀ {m : Memory}, Memory.within m top → ∀ a,
    a + size * vs.length ≤ top → Memory.within (writeElems size m a vs) top := by
  induction vs with
  | nil => intro m h a _; exact h
  | cons v vs ih =>
    intro m h a ha
    have hl : size * (v :: vs).length = size * vs.length + size := by simp [Nat.mul_add]
    exact ih (Memory.within_memWrite size h a v (by omega)) _ (by omega)

theorem readWords_congr (size k : Nat) : ∀ (m m' : Memory) (a : Nat),
    (∀ c, a ≤ c → c < a + size * k → Memory.read m c = Memory.read m' c) → readWords m size a k = readWords m' size a k := by
  induction k with
  | zero => intro m m' a _; rfl
  | succ k ih =>
    intro m m' a h
    have hk : size * (k + 1) = size * k + size := by ring
    rw [readWords, readWords, memRead_congr size m m' a fun c h1 h2 => h c h1 (by omega),
      ih m m' (a + size) fun c h1 h2 => h c (by omega) (by omega)]

/-- Reading back consecutive elements gives them, each as wide as it is. -/
theorem readWords_writeElems (size : Nat) (vs : List Nat) : ∀ (m : Memory) (a : Nat),
    readWords (writeElems size m a vs) size a vs.length = vs.map (· % 256 ^ size) := by
  induction vs with
  | nil => intro m a; rfl
  | cons v vs ih =>
    intro m a
    rw [List.length_cons, readWords, writeElems, ih, List.map_cons]
    congr 1
    rw [memRead_congr size _ (memWrite m a size v) a, memRead_memWrite]
    intro c h1 h2
    exact read_writeElems_outside size vs _ _ _ (by omega)

theorem readWords_length (m : Memory) (size k : Nat) : ∀ a, (readWords m size a k).length = k := by
  induction k with
  | zero => intro a; rfl
  | succ k ih => intro a; simp [readWords, ih]

/-- Samples are 2-byte elements (rules R64, R68). -/
theorem readSamples_eq_readWords (m : Memory) (n : Nat) : ∀ a,
    readSamples m a n = (readWords m 2 a n).map (BitVec.ofNat 16) := by
  induction n with
  | zero => intro a; rfl
  | succ n ih => intro a; simp [readSamples, readWords, ih]

theorem readSamples_length (m : Memory) (a n : Nat) : (readSamples m a n).length = n := by
  simp [readSamples_eq_readWords, readWords_length]

theorem readSamples_congr (m m' : Memory) (a n : Nat)
    (h : ∀ c, a ≤ c → c < a + 2 * n → Memory.read m c = Memory.read m' c) :
    readSamples m a n = readSamples m' a n := by
  rw [readSamples_eq_readWords, readSamples_eq_readWords, readWords_congr 2 n m m' a h]

/-- Samples written are samples read (rule R145). -/
theorem readSamples_writeElems (m : Memory) (a : Nat) (out : List Symbol) :
    readSamples (writeElems 2 m a (out.map BitVec.toNat)) a out.length = out := by
  have h := readWords_writeElems 2 (out.map BitVec.toNat) m a
  rw [List.length_map] at h
  rw [readSamples_eq_readWords, h, List.map_map, List.map_map]
  conv_rhs => rw [← List.map_id out]
  refine List.map_congr_left fun s _ => ?_
  apply BitVec.eq_of_toNat_eq
  have := s.isLt
  simp only [Function.comp_apply, BitVec.toNat_ofNat, id_eq]
  norm_num
  omega

/-! ### Free bytes of a reset -/

/-- A reset in mid-command changes only output bytes that are no input bytes (rule R176). -/
theorem read_scramble_outside (keep : Region) (size n : Nat) : ∀ (m : Memory) (a k c : Nat),
    (¬(a ≤ c ∧ c < a + n) ∨ keep.holds c = true) → Memory.read (scramble keep size m a n k) c = Memory.read m c := by
  induction n with
  | zero => intro m a k c _; rfl
  | succ n ih =>
    intro m a k c h
    rw [scramble, ih _ _ _ _ (h.imp_left fun h => by omega)]
    split
    · rename_i hc
      rw [Memory.read_write, if_neg]
      rintro rfl
      rcases h with h | h
      · omega
      · simp [h] at hc
    · rfl

theorem Memory.wf_scramble (keep : Region) (size n : Nat) : ∀ {m : Memory}, Memory.wf m → ∀ a k,
    Memory.wf (scramble keep size m a n k) := by
  induction n with
  | zero => intro m h a k; exact h
  | succ n ih =>
    intro m h a k
    rw [scramble]
    split
    · exact ih (Memory.wf_write h _ _) _ _
    · exact ih h _ _

theorem Memory.within_scramble (keep : Region) (size n : Nat) : ∀ {m : Memory}, Memory.within m size → ∀ a k,
    Memory.within (scramble keep size m a n k) size := by
  induction n with
  | zero => intro m h a k; exact h
  | succ n ih =>
    intro m h a k
    rw [scramble]
    split
    · rename_i hc
      simp only [Bool.and_eq_true, decide_eq_true_eq] at hc
      exact ih (Memory.within_write h hc.1 _) _ _
    · exact ih h _ _

theorem State.reset_mem_wf : Memory.wf State.reset.mem ∧ Memory.within State.reset.mem (dmaSize State.reset.params) := by
  refine ⟨⟨List.Pairwise.nil, ?_⟩, ?_⟩ <;> intro c hc <;> simp [State.reset] at hc

end Sys2Proof.Machine
end

