-- ==== Sys2Proof/Laws/Bits.lean ====
section
/-! SUPPORT. Bits and words: a packed buffer holds the stream it was made of, at the byte level and word by word. -/
namespace Sys2Proof.Machine

theorem bitsToNat_lt (bs : Bits) : bitsToNat bs < 2 ^ bs.length := by
  induction bs with
  | nil => simp [bitsToNat]
  | cons b bs ih =>
    rw [bitsToNat, List.length_cons, pow_succ]
    have := Bool.toNat_lt b
    omega

theorem testBit_bitsToNat (bs : Bits) : ∀ i, (bitsToNat bs).testBit i = bs.getD i false := by
  induction bs with
  | nil => intro i; simp [bitsToNat]
  | cons b bs ih =>
    intro i
    have h : bitsToNat (b :: bs) = 2 ^ 1 * bitsToNat bs + b.toNat := by rw [bitsToNat]; ring
    rw [h, Nat.testBit_two_pow_mul_add _ (by have := Bool.toNat_lt b; omega)]
    cases i with
    | zero => cases b <;> simp
    | succ i => simp [ih]

theorem natToBits_eq_map (k : Nat) : ∀ v, natToBits k v = (List.range k).map v.testBit := by
  induction k with
  | zero => intro v; rfl
  | succ k ih =>
    intro v
    rw [natToBits, ih, List.range_succ_eq_map, List.map_cons, List.map_map]
    congr 1
    · simp [Nat.testBit_zero, beq_eq_decide]
    · refine List.map_congr_left fun i _ => ?_
      simp [Nat.testBit_succ]

theorem packWords_length (w nw : Nat) : ∀ bits, (packWords w nw bits).length = nw := by
  induction nw with
  | zero => intro bits; rfl
  | succ nw ih => intro bits; simp [packWords, ih]

/-- Word k holds the stream bits from k·W on (rule R133). -/
theorem packWords_getD (w nw : Nat) : ∀ (bits : Bits) (k : Nat), k < nw →
    (packWords w nw bits).getD k 0 = bitsToNat ((bits.drop (k * w)).take w) := by
  induction nw with
  | zero => intro bits k h; omega
  | succ nw ih =>
    intro bits k h
    cases k with
    | zero => simp [packWords]
    | succ k =>
      have e : w + k * w = (k + 1) * w := by ring
      rw [packWords, List.getD_cons_succ, ih _ _ (by omega), List.drop_drop, e]

/-- Bit j of word k is stream bit k·W + j, and 0 past the stream's end (rules R65, R133). -/
theorem testBit_packWords (w nw : Nat) (bits : Bits) (k j : Nat) (hk : k < nw) (hj : j < w) :
    ((packWords w nw bits).getD k 0).testBit j = bits.getD (k * w + j) false := by
  rw [packWords_getD w nw bits k hk, testBit_bitsToNat]
  simp [List.getD_eq_getElem?_getD, hj, List.getElem?_drop]

/-- Bit i of a wide little-endian read is bit i of the byte image (rules R64, R66). -/
theorem testBit_memRead (n : Nat) : ∀ (m : Memory) (a i : Nat), i < 8 * n →
    (memRead m a n).testBit i = streamBit m a i := by
  induction n with
  | zero => intro m a i h; omega
  | succ n ih =>
    intro m a i h
    have e : memRead m a (n + 1) = 2 ^ 8 * memRead m (a + 1) n + (Memory.read m a).toNat := by rw [memRead]; ring
    rw [e, Nat.testBit_two_pow_mul_add _ (Memory.read m a).isLt]
    by_cases hi : i < 8
    · rw [if_pos hi, streamBit, Nat.div_eq_of_lt hi, Nat.mod_eq_of_lt hi]
      rfl
    · have e1 : i / 8 = (i - 8) / 8 + 1 := by omega
      have e2 : i % 8 = (i - 8) % 8 := by omega
      rw [if_neg hi, ih _ _ _ (by omega), streamBit, streamBit, e1, e2, Nat.add_assoc, Nat.add_comm 1]

/-- The words of a packed buffer, bit by bit, are its byte image (rule R66). -/
theorem flatMap_readWords (size k : Nat) : ∀ (m : Memory) (a : Nat),
    (readWords m size a k).flatMap (natToBits (8 * size)) = (List.range (8 * size * k)).map (streamBit m a) := by
  induction k with
  | zero => intro m a; rfl
  | succ k ih =>
    intro m a
    have e : 8 * size * (k + 1) = 8 * size + 8 * size * k := by ring
    rw [readWords, List.flatMap_cons, ih, e, List.range_add, List.map_append, natToBits_eq_map, List.map_map]
    congr 1
    · refine List.map_congr_left fun i hi => ?_
      exact testBit_memRead size m a i (List.mem_range.mp hi)
    · refine List.map_congr_left fun i _ => ?_
      have e1 : (8 * size + i) / 8 = size + i / 8 := by omega
      have e2 : (8 * size + i) % 8 = i % 8 := by omega
      simp only [Function.comp_apply, streamBit, e1, e2, Nat.add_assoc]

theorem wordBits_eq (p : Params) : wordBits p = 8 * wordBytes p := by
  unfold wordBytes wordBits
  cases p.wordWidth <;> rfl

theorem wordBytes_pos (p : Params) : 0 < wordBytes p := by
  unfold wordBytes wordBits
  cases p.wordWidth <;> decide

theorem wordBits_pos (p : Params) : 0 < wordBits p := by
  have := wordBits_eq p
  have := wordBytes_pos p
  omega

theorem wordBits_cases (p : Params) : wordBits p = 32 ∨ wordBits p = 64 := by
  unfold wordBits
  cases p.wordWidth
  · exact .inl rfl
  · exact .inr rfl

/-- nw words hold B bits, and nw - 1 do not. -/
theorem le_wordCount_mul (p : Params) (b : Nat) : b ≤ wordCount p b * wordBits p := by
  have h := wordBits_pos p
  unfold wordCount ceilDiv
  have h1 := Nat.div_add_mod (b + (wordBits p - 1)) (wordBits p)
  have h2 := Nat.mod_lt (b + (wordBits p - 1)) h
  rw [Nat.mul_comm] at h1
  omega

theorem wordCount_le_iff (p : Params) (b k : Nat) : wordCount p b ≤ k ↔ b ≤ k * wordBits p := by
  have h := wordBits_pos p
  constructor
  · intro hk
    exact (le_wordCount_mul p b).trans (Nat.mul_le_mul_right _ hk)
  · intro hb
    unfold wordCount ceilDiv
    rw [← Nat.lt_succ_iff, Nat.div_lt_iff_lt_mul h, Nat.succ_mul]
    omega

/-- DECODE's stream is the first B bits of the byte image of its input region (rules R66, R142). -/
theorem inputBits_eq (p : Params) (m : Memory) (l : Latch) :
    inputBits p m l = (List.range l.bitCount).map (streamBit m l.srcAddr) := by
  have h := le_wordCount_mul p l.bitCount
  rw [inputBits, unpackBits, wordBits_eq, flatMap_readWords, ← List.map_take, List.take_range, Nat.min_eq_left]
  rw [← wordBits_eq, Nat.mul_comm]
  exact h

theorem inputBits_length (p : Params) (m : Memory) (l : Latch) : (inputBits p m l).length = l.bitCount := by
  simp [inputBits_eq]

/-- ENCODE's output is the byte image of its stream; the bits past the stream's end are 0 (rules R66, R133). -/
theorem streamBit_packWords (p : Params) (m : Memory) (a nw : Nat) (bits : Bits) (i : Nat) (hi : i < nw * wordBits p) :
    streamBit (writeElems (wordBytes p) m a (packWords (wordBits p) nw bits)) a i = bits.getD i false := by
  have hw := wordBits_eq p
  have hp := wordBytes_pos p
  have hb := wordBits_pos p
  have hk : i / wordBits p < nw := (Nat.div_lt_iff_lt_mul hb).mpr hi
  have hj : i % wordBits p < wordBits p := Nat.mod_lt _ hb
  have e1 : i / 8 / wordBytes p = i / wordBits p := by rw [Nat.div_div_eq_div_mul, ← hw]
  have e2 : 8 * (i / 8 % wordBytes p) + i % 8 = i % wordBits p := by
    rw [hw, Nat.mod_mul]; omega
  rw [streamBit, read_writeElems _ hp, packWords_length, if_pos]
  · have ht := testBit_packWords (wordBits p) nw bits (i / wordBits p) (i % wordBits p) hk hj
    have hdm : i / wordBits p * wordBits p + i % wordBits p = i := by rw [Nat.mul_comm]; exact Nat.div_add_mod _ _
    rw [hdm] at ht
    rw [← ht, ← e2, Nat.add_sub_cancel_left, e1]
    have h256 : (256 : Nat) ^ (i / 8 % wordBytes p) = 2 ^ (8 * (i / 8 % wordBytes p)) := by
      rw [Nat.pow_mul]
    rw [h256, BitVec.getLsbD_ofNat, Nat.testBit_div_two_pow, Nat.add_comm]
    simp [Nat.mod_lt]
  · refine ⟨by omega, ?_⟩
    have : i / 8 < wordBytes p * nw := by
      rw [Nat.div_lt_iff_lt_mul (by decide)]
      calc i < nw * wordBits p := hi
        _ = wordBytes p * nw * 8 := by rw [hw]; ring
    omega

/-- Reading back a packed stream gives the stream (rules R133, R142). -/
theorem streamBits_packWords (p : Params) (m : Memory) (a nw : Nat) (bits : Bits) (h : bits.length ≤ nw * wordBits p) :
    (List.range bits.length).map (streamBit (writeElems (wordBytes p) m a (packWords (wordBits p) nw bits)) a) = bits := by
  refine List.ext_getElem (by simp) fun i h1 h2 => ?_
  rw [List.getElem_map, List.getElem_range, streamBit_packWords p m a nw bits i (by omega)]
  simp [List.getD_eq_getElem?_getD, h2]

end Sys2Proof.Machine
end

