-- ==== Sys2Proof/Laws/Codes.lean ====
section
/-! SUPPORT. The code table as paths of the tree: DERIVE, prefix-freeness, completeness, and what the decoder's walk does. -/
namespace Sys2Proof.Machine

/-- The path to a symbol's leaf (the rightmost such leaf, the one DERIVE records last). -/
def Tree.pathTo : Tree → Symbol → Option Bits
  | .leaf _ s _, x => if x = s then some [] else none
  | .internal _ _ l r, x =>
    match r.pathTo x with
    | some q => some (true :: q)
    | none => (l.pathTo x).map (false :: ·)

/-- The node a bit string leads to. -/
def Tree.follow (t : Tree) (bits : Bits) : Tree := bits.foldl Tree.child t

/-- Every leaf with its path, from left to right. -/
def Tree.paths : Tree → List (Symbol × Bits)
  | .leaf _ s _ => [(s, [])]
  | .internal _ _ l r => l.paths.map (fun e => (e.1, false :: e.2)) ++ r.paths.map (fun e => (e.1, true :: e.2))

/-! ### DERIVE -/

theorem find_deriveWalk (t : Tree) : ∀ (p : Bits) (table : CodeTable) (s : Symbol),
    Assoc.find (deriveWalk t p table) s.toNat =
      match t.pathTo s with
      | some q => some (p ++ q)
      | none => Assoc.find table s.toNat := by
  induction t with
  | leaf i x f =>
    intro p table s
    rw [deriveWalk, Assoc.find_put, Tree.pathTo]
    by_cases h : s = x
    · simp [h]
    · have : ¬ s.toNat = x.toNat := fun e => h (BitVec.eq_of_toNat_eq e)
      simp [h, this]
  | internal i f l r ihl ihr =>
    intro p table s
    rw [deriveWalk, ihr, Tree.pathTo]
    cases hr : r.pathTo s with
    | some q => simp
    | none =>
      simp only [ihl]
      cases hl : l.pathTo s <;> simp

/-- code(s) is the path from the root to s's leaf (rules R108, R111). -/
theorem code_derive (t : Tree) (s : Symbol) : CodeTable.code (derive t) s = t.pathTo s := by
  rw [CodeTable.code, derive, find_deriveWalk]
  cases t.pathTo s <;> simp [Assoc.find]

theorem rising_deriveWalk (t : Tree) : ∀ (p : Bits) {table : CodeTable}, Assoc.Rising table →
    Assoc.Rising (deriveWalk t p table) := by
  induction t with
  | leaf i x f => intro p table h; exact Assoc.rising_put h _ _
  | internal i f l r ihl ihr => intro p table h; exact ihr _ (ihl _ h)

theorem rising_derive (t : Tree) : Assoc.Rising (derive t) := rising_deriveWalk t _ List.Pairwise.nil

/-- dom(table) is the set of the leaves' symbols (rule R109). -/
theorem pathTo_isSome (t : Tree) (s : Symbol) : (t.pathTo s).isSome ↔ s ∈ t.symbols := by
  induction t with
  | leaf i x f => simp [Tree.pathTo, Tree.symbols]
  | internal i f l r ihl ihr =>
    rw [Tree.pathTo, Tree.symbols, List.mem_append, ← ihl, ← ihr]
    cases r.pathTo s <;> simp

theorem symbols_length (t : Tree) : t.symbols.length = t.leafCount := by
  induction t with
  | leaf i x f => rfl
  | internal i f l r ihl ihr => simp [Tree.symbols, Tree.leafCount, ihl, ihr]

theorem leafCount_pos (t : Tree) : 0 < t.leafCount := by
  induction t with
  | leaf i x f => exact Nat.one_pos
  | internal i f l r ihl ihr => rw [Tree.leafCount]; omega

theorem internalCount_eq (t : Tree) : t.internalCount + 1 = t.leafCount := by
  induction t with
  | leaf i x f => rfl
  | internal i f l r ihl ihr => rw [Tree.leafCount, Tree.internalCount]; omega

/-- A code has at most N - 1 bits (rules R107, R111). -/
theorem pathTo_length_lt (t : Tree) : ∀ {s : Symbol} {q : Bits}, t.pathTo s = some q → q.length < t.leafCount := by
  induction t with
  | leaf i x f =>
    intro s q h
    rw [Tree.pathTo] at h
    split at h
    · cases h; exact Nat.one_pos
    · cases h
  | internal i f l r ihl ihr =>
    intro s q h
    have hl := leafCount_pos l
    have hr := leafCount_pos r
    rw [Tree.pathTo] at h
    rw [Tree.leafCount]
    cases hp : r.pathTo s with
    | some q' =>
      rw [hp] at h
      cases h
      have := ihr hp
      rw [List.length_cons]; omega
    | none =>
      rw [hp] at h
      obtain ⟨q', h1, rfl⟩ := Option.map_eq_some_iff.mp h
      have := ihl h1
      rw [List.length_cons]; omega

theorem pathTo_internal_ne_nil {i f : Nat} {l r : Tree} {s : Symbol} {q : Bits}
    (h : (Tree.internal i f l r).pathTo s = some q) : q ≠ [] := by
  rw [Tree.pathTo] at h
  rintro rfl
  cases hp : r.pathTo s with
  | some q' => rw [hp] at h; cases h
  | none =>
    rw [hp] at h
    obtain ⟨q', _, h2⟩ := Option.map_eq_some_iff.mp h
    cases h2

/-! ### Paths and leaves -/

theorem follow_cons (t : Tree) (b : Bool) (bits : Bits) : t.follow (b :: bits) = (t.child b).follow bits := rfl

theorem follow_append (t : Tree) (xs ys : Bits) : t.follow (xs ++ ys) = (t.follow xs).follow ys :=
  List.foldl_append

/-- A code leads to its symbol's leaf. -/
theorem follow_pathTo (t : Tree) : ∀ {s : Symbol} {q : Bits}, t.pathTo s = some q → ∃ i f, t.follow q = .leaf i s f := by
  induction t with
  | leaf i x f =>
    intro s q h
    rw [Tree.pathTo] at h
    split at h
    · cases h; subst ‹s = x›; exact ⟨i, f, rfl⟩
    · cases h
  | internal i f l r ihl ihr =>
    intro s q h
    rw [Tree.pathTo] at h
    cases hp : r.pathTo s with
    | some q' =>
      rw [hp] at h
      cases h
      exact ihr hp
    | none =>
      rw [hp] at h
      obtain ⟨q', h1, rfl⟩ := Option.map_eq_some_iff.mp h
      exact ihl h1

/-- A proper prefix of a code leads to an internal node. -/
theorem follow_pathTo_prefix (t : Tree) : ∀ {s : Symbol} {p q : Bits}, t.pathTo s = some (p ++ q) → q ≠ [] →
    ∃ i f l r, t.follow p = .internal i f l r := by
  induction t with
  | leaf i x f =>
    intro s p q h hq
    rw [Tree.pathTo] at h
    split at h
    · have := Option.some.inj h
      simp at this
      exact absurd this.2 hq
    · cases h
  | internal i f l r ihl ihr =>
    intro s p q h hq
    cases p with
    | nil => exact ⟨i, f, l, r, rfl⟩
    | cons b p =>
      rw [Tree.pathTo] at h
      cases hp : r.pathTo s with
      | some q' =>
        rw [hp] at h
        have e := Option.some.inj h
        rw [List.cons_append] at e
        injection e with e1 e2
        subst e1 e2
        exact ihr hp hq
      | none =>
        rw [hp] at h
        obtain ⟨q', h1, e⟩ := Option.map_eq_some_iff.mp h
        rw [List.cons_append] at e
        injection e with e1 e2
        subst e1 e2
        exact ihl h1 hq

/-- No code is a prefix of another (rule R113). -/
theorem pathTo_prefix_free (t : Tree) {s x : Symbol} {p q : Bits} (hp : t.pathTo s = some p) (hq : t.pathTo x = some q)
    (h : p <+: q) : s = x := by
  obtain ⟨rest, rfl⟩ := h
  obtain ⟨i, f, hs⟩ := follow_pathTo t hp
  by_cases hr : rest = []
  · subst hr
    rw [List.append_nil] at hq
    obtain ⟨j, g, hx⟩ := follow_pathTo t hq
    rw [hs] at hx
    exact (Tree.leaf.inj hx).2.1
  · obtain ⟨j, g, l, r, hx⟩ := follow_pathTo_prefix t hq hr
    rw [hs] at hx
    cases hx

/-- With distinct symbols, a bit string that leads to a leaf and passes only internal nodes is its symbol's code. -/
theorem pathTo_of_follow (t : Tree) : t.symbols.Nodup → ∀ {q : Bits} {i f : Nat} {s : Symbol},
    t.follow q = .leaf i s f → (∀ p rest, q = p ++ rest → rest ≠ [] → (t.follow p).isLeaf = false) →
    t.pathTo s = some q := by
  induction t with
  | leaf k x g =>
    intro _ q i f s h hp
    cases q with
    | nil =>
      cases h
      simp [Tree.pathTo]
    | cons b q =>
      have := hp [] (b :: q) rfl (by simp)
      cases this
  | internal k g l r ihl ihr =>
    intro hn q i f s h hp
    rw [Tree.symbols] at hn
    obtain ⟨hnl, hnr, hd⟩ := List.nodup_append.mp hn
    cases q with
    | nil => cases h
    | cons b q =>
      have hpp : ∀ p rest, q = p ++ rest → rest ≠ [] → (((Tree.internal k g l r).child b).follow p).isLeaf = false :=
        fun p rest e hr => hp (b :: p) rest (by rw [e]; rfl) hr
      rw [Tree.pathTo]
      cases b with
      | true =>
        have := ihr hnr (q := q) h hpp
        rw [this]
      | false =>
        have hl := ihl hnl (q := q) h hpp
        have hr : r.pathTo s = none := by
          rw [← Option.not_isSome_iff_eq_none, pathTo_isSome]
          intro hm
          exact hd s ((pathTo_isSome l s).mp (by rw [hl]; rfl)) s hm rfl
        rw [hr, hl]
        rfl

/-! ### The walk of DECODE -/

/-- A bit string from `pos` that reaches no leaf moves the walk position. -/
theorem walk_inside (root : Tree) (e : Nat) (rest : Bits) : ∀ (q : Bits) (pos : Tree) (i : Nat),
    (∀ p x, q = p ++ x → p ≠ [] → (pos.follow p).isLeaf = false) →
    walk root (q ++ rest) (e + 1) pos i = walk root rest (e + 1) (pos.follow q) (i + q.length) := by
  intro q
  induction q with
  | nil => intro pos i _; rfl
  | cons b q ih =>
    intro pos i h
    have hb := h [b] q rfl (by simp)
    rw [follow_cons] at hb
    rw [List.cons_append, walk]
    cases hc : pos.child b with
    | leaf k s f => rw [hc] at hb; cases hb
    | internal k f l r =>
      simp only
      rw [← hc, ih, follow_cons, List.length_cons, Nat.add_assoc, Nat.add_comm 1]
      intro p x e hp
      have := h (b :: p) x (by rw [e]; rfl) (by simp)
      rwa [follow_cons] at this

/-- A code on the stream emits its symbol and puts the walk back at the root (rule R143). -/
theorem walk_code (root : Tree) (e : Nat) (rest : Bits) (q : Bits) (s : Symbol) (i : Nat)
    (hr : root.isLeaf = false) (hq : root.pathTo s = some q) :
    walk root (q ++ rest) (e + 1) root i = WalkResult.emit s (walk root rest e root (i + q.length)) := by
  have hne : q ≠ [] := by
    cases root with
    | leaf k x f => cases hr
    | internal k f l r => exact pathTo_internal_ne_nil hq
  obtain ⟨init, b, rfl⟩ := (List.eq_nil_or_concat q).resolve_left hne
  rw [List.concat_eq_append] at hq ⊢
  obtain ⟨k, f, hf⟩ := follow_pathTo root hq
  rw [List.append_assoc, walk_inside]
  · rw [follow_append] at hf
    rw [List.singleton_append, walk]
    have hc : (root.follow init).child b = .leaf k s f := hf
    rw [hc, List.length_append, List.length_singleton, Nat.add_assoc]
  · intro p x e' hp
    obtain ⟨_, _, _, _, h⟩ := follow_pathTo_prefix root (s := s) (p := p) (q := x ++ [b])
      (by rw [hq, e', List.append_assoc]) (by simp)
    rw [h]
    rfl

/-- The codes of some symbols, all in the table, followed by more bits. -/
theorem walk_codes (root : Tree) (hr : root.isLeaf = false) (e : Nat) (rest : Bits) : ∀ (out : List Symbol) (i : Nat),
    (∀ s ∈ out, s ∈ root.symbols) →
    walk root (out.flatMap (fun s => (root.pathTo s).getD []) ++ rest) (out.length + e) root i =
      out.foldr WalkResult.emit
        (walk root rest e root (i + (out.flatMap (fun s => (root.pathTo s).getD [])).length)) := by
  intro out
  induction out with
  | nil => intro i _; simp
  | cons s out ih =>
    intro i h
    obtain ⟨q, hq⟩ := Option.isSome_iff_exists.mp ((pathTo_isSome root s).mpr (h s List.mem_cons_self))
    have e1 : (s :: out).length + e = (out.length + e) + 1 := by simp; omega
    rw [List.flatMap_cons, hq, e1, Option.getD_some, List.append_assoc, walk_code root _ _ q s i hr hq,
      ih _ fun x hx => h x (List.mem_cons_of_mem _ hx), List.foldr_cons, List.length_append, Nat.add_assoc]

theorem foldr_emit_ok (out more : List Symbol) : out.foldr WalkResult.emit (.ok more) = .ok (out ++ more) := by
  induction out with
  | nil => rfl
  | cons s out ih => rw [List.foldr_cons, ih]; rfl

theorem foldr_emit_error (out : List Symbol) (e : CmdError) (i : Nat) :
    out.foldr WalkResult.emit (.error e i) = .error e i := by
  induction out with
  | nil => rfl
  | cons s out ih => rw [List.foldr_cons, ih]; rfl

theorem follow_ne_self (root : Tree) : ∀ (q : Bits), q ≠ [] → (∀ p x, q = p ++ x → (root.follow p).isLeaf = false) →
    root.follow q ≠ root := by
  have hsize : ∀ (t : Tree) (b : Bool), t.isLeaf = false → sizeOf (t.child b) < sizeOf t := by
    intro t b h
    cases t with
    | leaf k s f => cases h
    | internal k f l r => cases b <;> simp +arith [Tree.child]
  have hle : ∀ (q : Bits) (t : Tree), (∀ p x, q = p ++ x → (t.follow p).isLeaf = false) → q ≠ [] →
      sizeOf (t.follow q) < sizeOf t := by
    intro q
    induction q with
    | nil => intro t _ h; exact absurd rfl h
    | cons b q ih =>
      intro t h _
      have h0 := hsize t b (h [] (b :: q) rfl)
      rw [follow_cons]
      by_cases hq : q = []
      · subst hq; exact h0
      · refine lt_trans (ih (t.child b) (fun p x e => ?_) hq) h0
        have := h (b :: p) x (by rw [e]; rfl)
        rwa [follow_cons] at this
  intro q hq h e
  have := hle q root h hq
  rw [e] at this
  exact lt_irrefl _ this

/-- Every bit string read from an internal root is a sequence of codes followed by a string that reaches no leaf
(rule R114: the walk never leaves the tree). -/
theorem split_codes (root : Tree) (hr : root.isLeaf = false) (hn : root.symbols.Nodup) : ∀ (k : Nat) (bits : Bits), bits.length ≤ k →
    ∃ (out : List Symbol) (tail : Bits), (∀ s ∈ out, s ∈ root.symbols) ∧
      bits = out.flatMap (fun s => (root.pathTo s).getD []) ++ tail ∧
      ∀ p x, tail = p ++ x → (root.follow p).isLeaf = false := by
  intro k
  induction k with
  | zero =>
    intro bits h
    obtain rfl := List.length_eq_zero_iff.mp (Nat.le_zero.mp h)
    refine ⟨[], [], by simp, rfl, fun p x e => ?_⟩
    obtain ⟨rfl, -⟩ := List.append_eq_nil_iff.mp e.symm
    exact hr
  | succ k ih =>
    intro bits hk
    by_cases hall : ∀ p x, bits = p ++ x → (root.follow p).isLeaf = false
    · exact ⟨[], bits, by simp, rfl, hall⟩
    · -- the shortest prefix that reaches a leaf
      have hex : ∃ j, ∃ p x, bits = p ++ x ∧ p.length = j ∧ (root.follow p).isLeaf = true := by
        push Not at hall
        obtain ⟨p, x, e, h⟩ := hall
        exact ⟨p.length, p, x, e, rfl, by simpa using h⟩
      classical
      obtain ⟨p, x, e, hlen, hleaf⟩ := Nat.find_spec hex
      have hmin : ∀ p' x', bits = p' ++ x' → p'.length < p.length → (root.follow p').isLeaf = false := by
        intro p' x' e' hl
        by_contra hc
        exact Nat.find_min hex (hlen ▸ hl) ⟨p', x', e', rfl, by simpa using hc⟩
      cases hf : root.follow p with
      | internal a b c d => rw [hf] at hleaf; cases hleaf
      | leaf j s f =>
        have hpath : root.pathTo s = some p := by
          refine pathTo_of_follow root hn hf fun p' rest e' hne => ?_
          refine hmin p' (rest ++ x) (by rw [e, e', List.append_assoc]) ?_
          rw [e', List.length_append]
          have := List.length_pos_iff.mpr hne
          omega
        have hp0 : p ≠ [] := by
          rintro rfl
          rw [show root.follow [] = root from rfl] at hleaf
          rw [hr] at hleaf
          cases hleaf
        have hx : x.length ≤ k := by
          have := List.length_pos_iff.mpr hp0
          rw [e, List.length_append] at hk
          omega
        obtain ⟨out, tail, h1, h2, h3⟩ := ih x hx
        refine ⟨s :: out, tail, ?_, ?_, h3⟩
        · intro y hy
          rcases List.mem_cons.mp hy with rfl | hy
          · exact (pathTo_isSome root _).mp (by rw [hpath]; rfl)
          · exact h1 y hy
        · rw [List.flatMap_cons, hpath, Option.getD_some, List.append_assoc, ← h2, e]

/-! ### The listing of the table -/

theorem paths_symbols (t : Tree) : t.paths.map Prod.fst = t.symbols := by
  induction t with
  | leaf i x f => rfl
  | internal i f l r ihl ihr =>
    rw [Tree.paths, Tree.symbols, List.map_append, List.map_map, List.map_map, ← ihl, ← ihr]
    rfl

/-- With distinct symbols the table lists every leaf's path, once. -/
theorem deriveWalk_perm (t : Tree) : t.symbols.Nodup → ∀ (p : Bits) (table : CodeTable),
    (∀ s ∈ t.symbols, Assoc.find table s.toNat = none) →
    (deriveWalk t p table).Perm (t.paths.map (fun e => (e.1.toNat, p ++ e.2)) ++ table) := by
  induction t with
  | leaf i x f =>
    intro _ p table h
    simpa [deriveWalk, Tree.paths] using Assoc.put_perm p (h x (by simp [Tree.symbols]))
  | internal i f l r ihl ihr =>
    intro hn p table h
    rw [Tree.symbols] at hn
    obtain ⟨hnl, hnr, hd⟩ := List.nodup_append.mp hn
    have hl := ihl hnl (p ++ [false]) table fun s hs => h s (by simp [Tree.symbols, hs])
    have hr := ihr hnr (p ++ [true]) (deriveWalk l (p ++ [false]) table) fun s hs => by
      rw [find_deriveWalk]
      have hnone : l.pathTo s = none := by
        rw [← Option.not_isSome_iff_eq_none, pathTo_isSome]
        intro hm
        exact hd s hm s hs rfl
      rw [hnone]
      exact h s (by simp [Tree.symbols, hs])
    rw [deriveWalk, Tree.paths]
    refine hr.trans ((hl.append_left _).trans ?_)
    rw [List.map_append, List.map_map, List.map_map, ← List.append_assoc]
    refine List.Perm.append_right _ (List.perm_append_comm.trans ?_)
    simp [Function.comp_def]

theorem derive_perm (t : Tree) (hn : t.symbols.Nodup) :
    (derive t).Perm (t.paths.map (fun e => (e.1.toNat, e.2))) := by
  have := deriveWalk_perm t hn [] [] fun s _ => rfl
  simpa [derive] using this

/-- The weights 2^(-length) of a tree's paths add up to 1 (rule R114), in units of 2^(-top). -/
theorem paths_kraft (t : Tree) : ∀ (top : Nat), (∀ e ∈ t.paths, e.2.length ≤ top) →
    (t.paths.map (fun e => 2 ^ (top - e.2.length))).sum = 2 ^ top := by
  induction t with
  | leaf i x f => intro top _; simp [Tree.paths]
  | internal i f l r ihl ihr =>
    intro top h
    obtain ⟨k, rfl⟩ : ∃ k, top = k + 1 := by
      have hne : l.paths ≠ [] := by
        intro h0
        have := congrArg List.length (paths_symbols l)
        rw [h0, symbols_length] at this
        have := leafCount_pos l
        simp at *
        omega
      obtain ⟨e, he⟩ := List.exists_mem_of_ne_nil _ hne
      have := h (e.1, false :: e.2) (by rw [Tree.paths]; exact List.mem_append_left _ (List.mem_map.mpr ⟨e, he, rfl⟩))
      rw [List.length_cons] at this
      exact ⟨top - 1, by omega⟩
    have hl := ihl k fun e he => by
      have := h (e.1, false :: e.2) (by rw [Tree.paths]; exact List.mem_append_left _ (List.mem_map.mpr ⟨e, he, rfl⟩))
      simpa using this
    have hr := ihr k fun e he => by
      have := h (e.1, true :: e.2) (by rw [Tree.paths]; exact List.mem_append_right _ (List.mem_map.mpr ⟨e, he, rfl⟩))
      simpa using this
    rw [Tree.paths, List.map_append, List.sum_append, List.map_map, List.map_map, pow_succ, Nat.mul_two]
    simp only [Function.comp_def, List.length_cons, Nat.add_sub_add_right]
    rw [hl, hr]

theorem isLeaf_of_two_le {t : Tree} (h : 2 ≤ t.leafCount) : t.isLeaf = false := by
  cases t with
  | leaf i s f => simp [Tree.leafCount] at h
  | internal i f l r => rfl

/-- Distinct symbols are at most 2^16. -/
theorem leafCount_le {t : Tree} (h : t.symbols.Nodup) : t.leafCount ≤ 2 ^ 16 := by
  rw [← symbols_length]
  have := (h.map (f := BitVec.toFin) (fun a b h => BitVec.eq_of_toFin_eq h)).length_le_card
  rwa [Fintype.card_fin, List.length_map] at this

/-- Some leaf lies to the left below every node. -/
theorem exists_leaf_below (t : Tree) : ∃ q i s f, t.follow q = .leaf i s f ∧
    ∀ p rest, q = p ++ rest → rest ≠ [] → (t.follow p).isLeaf = false := by
  induction t with
  | leaf i s f => exact ⟨[], i, s, f, rfl, fun p rest h hr => absurd (List.append_eq_nil_iff.mp h.symm).2 hr⟩
  | internal i f l r ih _ =>
    obtain ⟨q, j, s, g, h1, h2⟩ := ih
    refine ⟨false :: q, j, s, g, by rw [follow_cons]; exact h1, fun p rest h hr => ?_⟩
    cases p with
    | nil => rfl
    | cons b p =>
      simp only [List.cons_append, List.cons.injEq] at h
      rw [follow_cons, ← h.1]
      exact h2 p rest h.2 hr

/-- A bit string that reaches no leaf is a proper prefix of a code (rule R114). -/
theorem exists_code_extending {t : Tree} (hn : t.symbols.Nodup) {tail : Bits}
    (hp : ∀ p x, tail = p ++ x → (t.follow p).isLeaf = false) : ∃ x c, t.pathTo x = some c ∧ tail <+: c ∧ tail ≠ c := by
  obtain ⟨q, i, x, f, h1, h2⟩ := exists_leaf_below (t.follow tail)
  have hin := hp tail [] (by simp)
  have hq : q ≠ [] := by
    rintro rfl
    change t.follow tail = _ at h1
    rw [h1] at hin
    cases hin
  refine ⟨x, tail ++ q, ?_, ⟨q, rfl⟩, by simpa using hq⟩
  refine pathTo_of_follow t hn (i := i) (f := f) (by rw [follow_append]; exact h1) fun p rest h hr => ?_
  rcases List.append_eq_append_iff.mp h with ⟨z, rfl, h'⟩ | ⟨z, rfl, h'⟩
  · rw [follow_append]
    exact h2 z rest h' hr
  · exact hp p z rfl

end Sys2Proof.Machine
end

