-- ==== Sys2Proof/Laws/Build.lean ====
section
/-! SUPPORT. COUNT and BUILD: what the counters hold, and what the tree built from them is. -/
namespace Sys2Proof.Machine

/-! ### COUNT -/

theorem find_countOne (f : FreqTable) (s x : Symbol) :
    Assoc.find (countOne f s) x.toNat =
      if x = s then some ((Assoc.find f x.toNat).getD 0 + 1) else Assoc.find f x.toNat := by
  rw [countOne, Assoc.find_put]
  by_cases h : x = s
  · subst h; simp
  · have : ¬ x.toNat = s.toNat := fun e => h (BitVec.eq_of_toNat_eq e)
    simp [h, this]

/-- A counter is the number of occurrences added to what it held. -/
theorem find_foldl_countOne (samples : List Symbol) : ∀ (f : FreqTable) (x : Symbol),
    Assoc.find (samples.foldl countOne f) x.toNat =
      if x ∈ samples then some ((Assoc.find f x.toNat).getD 0 + samples.count x) else Assoc.find f x.toNat := by
  induction samples with
  | nil => intro f x; simp
  | cons s rest ih =>
    intro f x
    rw [List.foldl_cons, ih, find_countOne]
    by_cases hx : x = s
    · subst hx
      by_cases hm : x ∈ rest
      · simp [hm]; omega
      · simp [hm, List.count_eq_zero_of_not_mem hm]
    · have hc : (s :: rest).count x = rest.count x := List.count_cons_of_ne (Ne.symm hx)
      simp [hx, hc]

/-- The table a COUNT leaves: keys rise, are symbols, and every listed count is positive. -/
def FreqTable.Good (f : FreqTable) : Prop := Assoc.Rising f ∧ ∀ e ∈ f, e.1 < 2 ^ 16 ∧ 0 < e.2

theorem countOne_good {f : FreqTable} (h : f.Good) (s : Symbol) : (countOne f s).Good := by
  refine ⟨Assoc.rising_put h.1 _ _, fun e he => ?_⟩
  rcases Assoc.mem_put he with rfl | he
  · exact ⟨s.isLt, Nat.succ_pos _⟩
  · exact h.2 e he

theorem foldl_countOne_good (samples : List Symbol) : ∀ {f : FreqTable}, f.Good → (samples.foldl countOne f).Good := by
  induction samples with
  | nil => intro f h; exact h
  | cons s rest ih => intro f h; exact ih (countOne_good h s)

theorem count_good (samples : List Symbol) : (count samples).Good :=
  foldl_countOne_good samples ⟨List.Pairwise.nil, fun e he => by simp at he⟩

theorem Assoc.find_none_of_lt {α : Type} {m : Assoc α} {a : Nat} (h : ∀ e ∈ m, a < e.1) : Assoc.find m a = none := by
  induction m with
  | nil => rfl
  | cons e m ih =>
    obtain ⟨k, u⟩ := e
    have h1 : a < k := h _ List.mem_cons_self
    rw [Assoc.find, if_neg (by omega), ih fun e he => h e (List.mem_cons_of_mem _ he)]

theorem Assoc.sum_put {f : FreqTable} (hf : Assoc.Rising f) (a v : Nat) :
    ((Assoc.put f a v).map Prod.snd).sum + (Assoc.find f a).getD 0 = (f.map Prod.snd).sum + v := by
  induction f with
  | nil => simp [Assoc.put, Assoc.find]
  | cons e f ih =>
    obtain ⟨k, u⟩ := e
    obtain ⟨hx, hm⟩ := List.pairwise_cons.mp hf
    unfold Assoc.put
    by_cases h1 : a < k
    · have hn : Assoc.find ((k, u) :: f) a = none := Assoc.find_none_of_lt fun e he => by
        rcases List.mem_cons.mp he with rfl | he
        · exact h1
        · exact lt_trans h1 (hx e he)
      rw [if_pos h1, hn]
      simp; omega
    · by_cases h2 : a = k
      · subst h2
        simp [Assoc.find]; omega
      · have := ih hm
        simp [h1, h2, Assoc.find]; omega

theorem sum_countOne {f : FreqTable} (h : f.Good) (s : Symbol) :
    ((countOne f s).map Prod.snd).sum = (f.map Prod.snd).sum + 1 := by
  have := Assoc.sum_put h.1 s.toNat ((Assoc.find f s.toNat).getD 0 + 1)
  rw [countOne]
  omega

theorem sum_foldl_countOne (samples : List Symbol) : ∀ {f : FreqTable}, f.Good →
    ((samples.foldl countOne f).map Prod.snd).sum = (f.map Prod.snd).sum + samples.length := by
  induction samples with
  | nil => intro f _; simp
  | cons s rest ih =>
    intro f h
    rw [List.foldl_cons, ih (countOne_good h s), sum_countOne h, List.length_cons]
    omega

/-- The counts add up to the number of samples. -/
theorem sum_count (samples : List Symbol) : ((count samples).map Prod.snd).sum = samples.length := by
  have := sum_foldl_countOne samples (f := []) ⟨List.Pairwise.nil, fun e he => by simp at he⟩
  simpa [count] using this

theorem find_count (samples : List Symbol) (x : Symbol) :
    Assoc.find (count samples) x.toNat = if x ∈ samples then some (samples.count x) else none := by
  simp [count, find_foldl_countOne, Assoc.find]

theorem count_ne_nil {samples : List Symbol} (h : samples ≠ []) : count samples ≠ [] := by
  intro h0
  have := sum_count samples
  rw [h0] at this
  simp only [List.map_nil, List.sum_nil] at this
  exact h (List.length_eq_zero_iff.mp this.symm)

/-! ### The leaves -/

theorem leavesFrom_length (f : FreqTable) : ∀ k, (leavesFrom k f).length = f.length := by
  induction f with
  | nil => intro k; rfl
  | cons e f ih => intro k; simp [leavesFrom, ih]

/-- Leaf k + j holds the j-th entry of the frequency table (rule R99). -/
theorem leavesFrom_getElem? (f : FreqTable) : ∀ (k j : Nat),
    (leavesFrom k f)[j]? = f[j]?.map (fun e => Tree.leaf (k + j) (BitVec.ofNat 16 e.1) e.2) := by
  induction f with
  | nil => intro k j; rfl
  | cons e f ih =>
    intro k j
    cases j with
    | zero => rfl
    | succ j =>
      rw [leavesFrom, List.getElem?_cons_succ, List.getElem?_cons_succ, ih]
      have : k + 1 + j = k + (j + 1) := by omega
      rw [this]

/-! ### Forests: what every turn of BUILD's loop keeps -/

/-- The symbols of a forest's leaves. -/
def forestSymbols (q : List Tree) : List Symbol := q.flatMap Tree.symbols

/-- The frequencies of a forest's roots, added. -/
def forestFreq (q : List Tree) : Nat := (q.map Tree.freq).sum

theorem forestSymbols_leavesFrom (f : FreqTable) : ∀ k,
    forestSymbols (leavesFrom k f) = f.map (fun e => BitVec.ofNat 16 e.1) := by
  induction f with
  | nil => intro k; rfl
  | cons e f ih =>
    intro k
    have := ih (k + 1)
    simp only [forestSymbols] at this
    simp [leavesFrom, forestSymbols, Tree.symbols, this]

theorem forestFreq_leavesFrom (f : FreqTable) : ∀ k, forestFreq (leavesFrom k f) = (f.map Prod.snd).sum := by
  induction f with
  | nil => intro k; rfl
  | cons e f ih =>
    intro k
    have := ih (k + 1)
    simp only [forestFreq] at this
    simp [leavesFrom, forestFreq, Tree.freq, this]

theorem forestSymbols_perm {q r : List Tree} (h : q.Perm r) : (forestSymbols q).Perm (forestSymbols r) :=
  h.flatMap_right _

theorem forestFreq_perm {q r : List Tree} (h : q.Perm r) : forestFreq q = forestFreq r :=
  (h.map _).sum_eq

/-- The node taken and the nodes left are the nodes there were (rule R98). -/
theorem popLeast_perm (us : List Tree) : ∀ t, ((popLeast t us).1 :: (popLeast t us).2).Perm (t :: us) := by
  induction us with
  | nil => intro t; exact List.Perm.refl _
  | cons u us ih =>
    intro t
    rw [popLeast]
    split
    · exact (List.Perm.swap _ _ _).trans ((ih u).cons t)
    · exact List.Perm.refl _

theorem keyBelow_iff (q r : Tree) : keyBelow q r = true ↔ q.freq < r.freq ∨ (q.freq = r.freq ∧ q.idx < r.idx) := by
  simp [keyBelow]

/-- The node taken has the least key (rules R98, R100). -/
theorem popLeast_least (us : List Tree) : ∀ t, ∀ q ∈ (popLeast t us).2, keyBelow q (popLeast t us).1 = false := by
  induction us with
  | nil => intro t q hq; simp [popLeast] at hq
  | cons u us ih =>
    intro t q hq
    rw [popLeast] at hq ⊢
    split at hq <;> rename_i hk
    · rw [if_pos hk]
      rcases List.mem_cons.mp hq with rfl | hq
      · rw [Bool.eq_false_iff]
        intro h
        rw [keyBelow_iff] at h hk
        simp only at h
        omega
      · exact ih u q hq
    · rw [if_neg hk]
      have hk' : ¬(popLeast u us).1.freq < t.freq ∧ ¬((popLeast u us).1.freq = t.freq ∧ (popLeast u us).1.idx < t.idx) := by
        rw [keyBelow_iff] at hk
        exact not_or.mp hk
      have hq' : q ∈ (popLeast u us).1 :: (popLeast u us).2 := (popLeast_perm us u).mem_iff.mpr hq
      rw [Bool.eq_false_iff, Ne, keyBelow_iff]
      simp only
      rcases List.mem_cons.mp hq' with rfl | hm
      · omega
      · have := ih u q hm
        rw [Bool.eq_false_iff, Ne, keyBelow_iff] at this
        omega

theorem popLeast_length (t : Tree) (us : List Tree) : (popLeast t us).2.length = us.length := by
  have := (popLeast_perm us t).length_eq
  simpa using this

/-- One turn of the loop, when two nodes are left (rules R98, R101): the two least nodes become the children of a new
node, first pop left, at the end of the queue. -/
theorem combine_eq (next : Nat) (t u : Tree) (us : List Tree) : ∃ a b rest,
    combine (next, t :: u :: us) = (next + 1, rest ++ [.internal next (a.freq + b.freq) a b]) ∧
      (a :: b :: rest).Perm (t :: u :: us) ∧ (∀ q ∈ b :: rest, keyBelow q a = false) ∧
      (∀ q ∈ rest, keyBelow q b = false) := by
  have hl := popLeast_length t (u :: us)
  have hp := popLeast_perm (u :: us) t
  have hk := popLeast_least (u :: us) t
  rcases hv : popLeast t (u :: us) with ⟨a, rest1⟩
  rw [hv] at hl hp hk
  cases rest1 with
  | nil => simp at hl
  | cons v vs =>
    have hp2 := popLeast_perm vs v
    refine ⟨a, (popLeast v vs).1, (popLeast v vs).2, ?_, (hp2.cons a).trans hp, ?_, popLeast_least vs v⟩
    · rw [combine, hv]
    · exact fun q hq => hk q (hp2.mem_iff.mp hq)

theorem combine_short (next : Nat) (q : List Tree) (h : q.length < 2) : combine (next, q) = (next, q) := by
  match q, h with
  | [], _ => rfl
  | [t], _ => rfl

/-- What a turn of the loop keeps: the symbols, the total frequency, the weights. -/
theorem combine_keeps (next : Nat) (q : List Tree) :
    (forestSymbols (combine (next, q)).2).Perm (forestSymbols q) ∧
      forestFreq (combine (next, q)).2 = forestFreq q ∧
      ((∀ t ∈ q, t.weighted = true) → ∀ t ∈ (combine (next, q)).2, t.weighted = true) ∧
      (2 ≤ q.length → (combine (next, q)).2.length = q.length - 1 ∧ (combine (next, q)).1 = next + 1) := by
  match q with
  | [] => exact ⟨List.Perm.refl _, rfl, fun h => h, fun h => absurd h (by decide)⟩
  | [t] => exact ⟨List.Perm.refl _, rfl, fun h => h, fun h => absurd h (by simp)⟩
  | t :: u :: us =>
    obtain ⟨a, b, rest, he, hp, -, -⟩ := combine_eq next t u us
    rw [he]
    have hp' : (rest ++ [a, b]).Perm (t :: u :: us) := (List.perm_append_comm).trans hp
    refine ⟨?_, ?_, ?_, ?_⟩
    · refine List.Perm.trans ?_ (forestSymbols_perm hp')
      simp [forestSymbols, Tree.symbols]
    · rw [← forestFreq_perm hp']
      simp [forestFreq, Tree.freq]
    · intro hw x hx
      rcases List.mem_append.mp hx with hx | hx
      · exact hw x (hp'.mem_iff.mp (List.mem_append_left _ hx))
      · obtain rfl := List.mem_singleton.mp hx
        have ha := hw a (hp.mem_iff.mp List.mem_cons_self)
        have hb := hw b (hp.mem_iff.mp (List.mem_cons_of_mem _ List.mem_cons_self))
        simp [Tree.weighted, ha, hb]
    · intro _
      have := hp.length_eq
      simp at this ⊢
      omega

theorem combineTimes_keeps (k : Nat) : ∀ (next : Nat) (q : List Tree), k + 1 ≤ q.length →
    (forestSymbols (combineTimes k (next, q)).2).Perm (forestSymbols q) ∧
      forestFreq (combineTimes k (next, q)).2 = forestFreq q ∧
      ((∀ t ∈ q, t.weighted = true) → ∀ t ∈ (combineTimes k (next, q)).2, t.weighted = true) ∧
      (combineTimes k (next, q)).2.length = q.length - k := by
  induction k with
  | zero => intro next q _; exact ⟨List.Perm.refl _, rfl, fun h => h, rfl⟩
  | succ k ih =>
    intro next q hq
    obtain ⟨h1, h2, h3, h4⟩ := combine_keeps next q
    obtain ⟨h5, h6⟩ := h4 (by omega)
    rw [combineTimes]
    rcases hc : combine (next, q) with ⟨n', q'⟩
    rw [hc] at h1 h2 h3 h5
    simp only at h1 h2 h3 h5
    obtain ⟨i1, i2, i3, i4⟩ := ih n' q' (by omega)
    exact ⟨i1.trans h1, i2.trans h2, fun h => i3 (h3 h), by omega⟩

/-- The loop of BUILD leaves one node whose index is the last one given out (rule R102). -/
theorem combineTimes_last (k : Nat) : ∀ (next : Nat) (q : List Tree), k + 2 ≤ q.length →
    ∃ rest i f l r, combineTimes (k + 1) (next, q) = (next + k + 1, rest ++ [.internal i f l r]) ∧ i = next + k := by
  induction k with
  | zero =>
    intro next q hq
    match q, hq with
    | t :: u :: us, _ =>
      obtain ⟨a, b, rest, he, -⟩ := combine_eq next t u us
      exact ⟨rest, next, _, a, b, by rw [combineTimes, combineTimes, he], rfl⟩
  | succ k ih =>
    intro next q hq
    match q, hq with
    | t :: u :: us, hq =>
      obtain ⟨a, b, rest, he, hp, -⟩ := combine_eq next t u us
      have hlen := hp.length_eq
      simp only [List.length_cons] at hlen hq
      obtain ⟨rest', i, f, l, r, e1, e2⟩ := ih (next + 1) (rest ++ [.internal next (a.freq + b.freq) a b])
        (by simp only [List.length_append, List.length_singleton]; omega)
      refine ⟨rest', i, f, l, r, ?_, by omega⟩
      rw [combineTimes, he, e1]
      congr 1
      omega

/-- The tree BUILD makes of a non-empty frequency table (rules R98, R102, R105). -/
theorem build_spec {f : FreqTable} (hf : f.Good) (hne : f ≠ []) : ∃ t, build f = some t ∧
    t.symbols.Perm (f.map (fun e => BitVec.ofNat 16 e.1)) ∧ t.freq = (f.map Prod.snd).sum ∧ t.weighted = true ∧
    t.leafCount = f.length ∧ t.idx = 2 * f.length - 2 := by
  have hpos := List.length_pos_iff.mpr hne
  have hl := leavesFrom_length f 0
  have hw : ∀ t ∈ leavesFrom 0 f, t.weighted = true := by
    intro t ht
    obtain ⟨j, hj⟩ := List.mem_iff_getElem?.mp ht
    rw [leavesFrom_getElem?] at hj
    obtain ⟨e, he, rfl⟩ := Option.map_eq_some_iff.mp hj
    simp [Tree.weighted, (hf.2 e (List.mem_of_getElem? he)).2]
  obtain ⟨h1, h2, h3, h4⟩ := combineTimes_keeps ((leavesFrom 0 f).length - 1) (leavesFrom 0 f).length (leavesFrom 0 f)
    (by omega)
  have h3 := h3 hw
  have hone : ∃ t, (combineTimes ((leavesFrom 0 f).length - 1) ((leavesFrom 0 f).length, leavesFrom 0 f)).2 = [t] :=
    List.length_eq_one_iff.mp (by omega)
  obtain ⟨t, ht⟩ := hone
  rw [ht] at h1 h2 h3
  have hb : build f = some t := by simp only [build]; rw [ht]; rfl
  have hs : t.symbols.Perm (f.map (fun e => BitVec.ofNat 16 e.1)) := by
    have := forestSymbols_leavesFrom f 0
    rw [this] at h1
    simpa [forestSymbols] using h1
  refine ⟨t, hb, hs, ?_, h3 t List.mem_cons_self, ?_, ?_⟩
  · rw [forestFreq_leavesFrom] at h2
    simpa [forestFreq] using h2
  · rw [← symbols_length, hs.length_eq, List.length_map]
  · by_cases h : f.length = 1
    · obtain ⟨e, rfl⟩ := List.length_eq_one_iff.mp h
      have ht' : [Tree.leaf 0 (BitVec.ofNat 16 e.1) e.2] = [t] := ht
      obtain rfl := List.head_eq_of_cons_eq ht'
      rfl
    · obtain ⟨rest, i, g, l, r, e1, e2⟩ := combineTimes_last (f.length - 2) (leavesFrom 0 f).length (leavesFrom 0 f)
        (by omega)
      have e3 : (leavesFrom 0 f).length - 1 = f.length - 2 + 1 := by omega
      rw [e3, e1] at ht
      have : rest = [] := by
        have := congrArg List.length ht
        simpa using this
      subst this
      obtain rfl := List.head_eq_of_cons_eq (show [Tree.internal i g l r] = [t] from ht)
      simp only [Tree.idx]
      omega

theorem ofNat_keys_nodup {f : FreqTable} (hf : f.Good) : (f.map (fun e => (BitVec.ofNat 16 e.1 : Symbol))).Nodup := by
  rw [List.Nodup, List.pairwise_map]
  refine hf.1.imp_of_mem fun ha hb hlt h => ?_
  have ha := (hf.2 _ ha).1
  have hb := (hf.2 _ hb).1
  have := congrArg BitVec.toNat h
  simp only [BitVec.toNat_ofNat] at this
  rw [Nat.mod_eq_of_lt ha, Nat.mod_eq_of_lt hb] at this
  omega

theorem mem_symbols_count {samples : List Symbol} (x : Symbol) :
    x ∈ (count samples).map (fun e => (BitVec.ofNat 16 e.1 : Symbol)) ↔ x ∈ samples := by
  have hg := count_good samples
  have hf := find_count samples x
  constructor
  · intro h
    obtain ⟨e, he, hx⟩ := List.mem_map.mp h
    have hlt := (hg.2 e he).1
    have hk : e.1 = x.toNat := by
      rw [← hx, BitVec.toNat_ofNat, Nat.mod_eq_of_lt hlt]
    have : Assoc.find (count samples) x.toNat = some e.2 :=
      (Assoc.find_eq_some_iff hg.1 _ _).mpr (by rw [← hk]; exact he)
    rw [hf] at this
    by_contra hc
    rw [if_neg hc] at this
    cases this
  · intro h
    rw [if_pos h] at hf
    have := (Assoc.find_eq_some_iff hg.1 _ _).mp hf
    refine List.mem_map.mpr ⟨_, this, ?_⟩
    simp

/-- The tree a priming ENCODE builds from n ≥ 1 samples (rule R105). -/
theorem build_count {samples : List Symbol} (h : samples ≠ []) : ∃ t, build (count samples) = some t ∧
    t.symbols.Nodup ∧ (∀ x, x ∈ t.symbols ↔ x ∈ samples) ∧ t.freq = samples.length ∧ t.weighted = true ∧
    t.idx = 2 * t.leafCount - 2 := by
  obtain ⟨t, hb, hs, hf, hw, hl, hi⟩ := build_spec (count_good samples) (count_ne_nil h)
  refine ⟨t, hb, hs.nodup_iff.mpr (ofNat_keys_nodup (count_good samples)), fun x => ?_, ?_, hw, by rw [hl]; exact hi⟩
  · rw [hs.mem_iff, mem_symbols_count]
  · rw [hf, sum_count]

/-- Samples that are all one symbol give the one leaf (rule R103). -/
theorem build_single {xs : List Symbol} {x : Symbol} (hne : xs ≠ []) (h : ∀ y ∈ xs, y = x) :
    build (count xs) = some (.leaf 0 x xs.length) := by
  have hmem : x ∈ xs := by
    obtain ⟨y, ys, rfl⟩ := List.exists_cons_of_ne_nil hne
    rw [← h y (by simp)]
    simp
  have hc : xs.count x = xs.length := by
    conv_lhs => rw [List.eq_replicate_of_mem h]
    simp
  obtain ⟨hr, hg⟩ := count_good xs
  have hf := find_count xs x
  rw [if_pos hmem, hc] at hf
  have hm := (Assoc.find_eq_some_iff hr _ _).mp hf
  have hall : ∀ e ∈ count xs, e.1 = x.toNat := by
    intro e he
    have h16 := (hg e he).1
    have hy := find_count xs (BitVec.ofNat 16 e.1)
    have ht : (BitVec.ofNat 16 e.1).toNat = e.1 := by simp; omega
    rw [ht, (Assoc.find_eq_some_iff hr e.1 e.2).mpr he] at hy
    split_ifs at hy with hmem'
    rw [← h _ hmem', ht]
  have hcs : count xs = [(x.toNat, xs.length)] := by
    cases hcs : count xs with
    | nil => rw [hcs] at hm; cases hm
    | cons a as =>
      rw [hcs] at hm hall hr
      cases as with
      | nil => rw [List.mem_singleton] at hm; rw [hm]
      | cons b bs =>
        rw [Assoc.Rising, List.pairwise_cons] at hr
        have := hr.1 b (by simp)
        rw [hall a (by simp), hall b (by simp)] at this
        omega
  rw [hcs]
  simp [build, leavesFrom, combineTimes]

/-! ### BUILD's loop -/

theorem combineTimes_eq_iterate (k : Nat) : ∀ x, combineTimes k x = combine^[k] x := by
  induction k with
  | zero => intro x; rfl
  | succ k ih => intro x; rw [combineTimes, ih, Function.iterate_succ_apply]

/-- The queue of BUILD's loop: its indices differ and lie below the next one, and siblings are in key order below them. -/
def ForestOk (x : Nat × List Tree) : Prop :=
  (x.2.map Tree.idx).Nodup ∧ ∀ t ∈ x.2, t.idx < x.1 ∧ t.siblingsOrdered = true

theorem combine_forest {x : Nat × List Tree} (h : ForestOk x) :
    ForestOk (combine x) ∧ ((combine x).2.flatMap Tree.leaves).Perm (x.2.flatMap Tree.leaves) := by
  obtain ⟨next, q⟩ := x
  match q, h with
  | [], h => exact ⟨h, List.Perm.refl _⟩
  | [t], h => exact ⟨h, List.Perm.refl _⟩
  | t :: u :: us, ⟨hn, hall⟩ =>
    obtain ⟨a, b, rest, he, hp, ha, -⟩ := combine_eq next t u us
    rw [he]
    have hnd : ((a :: b :: rest).map Tree.idx).Nodup := (hp.map _).nodup_iff.mpr hn
    have hall' : ∀ t ∈ a :: b :: rest, t.idx < next ∧ t.siblingsOrdered = true := fun t ht => hall t (hp.mem_iff.mp ht)
    simp only [List.map_cons, List.nodup_cons, List.mem_cons, not_or] at hnd
    have hkey : a.freq < b.freq ∨ (a.freq = b.freq ∧ a.idx < b.idx) := by
      have h1 := (not_congr (keyBelow_iff b a)).mp (by simp [ha b List.mem_cons_self])
      have h2 := hnd.1.1
      omega
    have hrest : ∀ t ∈ rest, t.idx < next ∧ t.siblingsOrdered = true := fun t ht => hall' t (by simp [ht])
    refine ⟨⟨?_, ?_⟩, ?_⟩
    · rw [List.map_append, List.nodup_append']
      refine ⟨hnd.2.2, by simp, ?_⟩
      intro i hi hj
      obtain ⟨t, ht, rfl⟩ := List.mem_map.mp hi
      have := (hrest t ht).1
      rw [List.map_singleton, List.mem_singleton] at hj
      change t.idx = next at hj
      omega
    · intro t ht
      rcases List.mem_append.mp ht with ht | ht
      · exact ⟨Nat.lt_succ_of_lt (hrest t ht).1, (hrest t ht).2⟩
      · obtain rfl := List.mem_singleton.mp ht
        refine ⟨Nat.lt_succ_self _, ?_⟩
        simp [Tree.siblingsOrdered, hkey, (hall' a (by simp)).2, (hall' b (by simp)).2]
    · refine List.Perm.trans ?_ (hp.flatMap_right _)
      simp only [List.flatMap_append, List.flatMap_cons, List.flatMap_nil, List.append_nil, Tree.leaves]
      rw [← List.append_assoc a.leaves]
      exact List.perm_append_comm

theorem iterate_combine_forest (k : Nat) : ∀ {x : Nat × List Tree}, ForestOk x →
    ForestOk (combine^[k] x) ∧ ((combine^[k] x).2.flatMap Tree.leaves).Perm (x.2.flatMap Tree.leaves) := by
  induction k with
  | zero => intro x h; exact ⟨h, List.Perm.refl _⟩
  | succ k ih =>
    intro x h
    obtain ⟨h1, h2⟩ := combine_forest h
    obtain ⟨h3, h4⟩ := ih h1
    rw [Function.iterate_succ_apply]
    exact ⟨h3, h4.trans h2⟩

theorem leaves_length (t : Tree) : t.leaves.length = t.leafCount := by
  induction t with
  | leaf i x f => rfl
  | internal i f l r ihl ihr => simp [Tree.leaves, Tree.leafCount, ihl, ihr]

theorem forestOk_leavesFrom (f : FreqTable) : ForestOk (f.length, leavesFrom 0 f) ∧
    (leavesFrom 0 f).flatMap Tree.leaves = leavesFrom 0 f := by
  have hidx : ∀ (f : FreqTable) (k : Nat), (leavesFrom k f).map Tree.idx = List.range' k f.length := by
    intro f
    induction f with
    | nil => intro k; rfl
    | cons e f ih => intro k; rw [leavesFrom, List.map_cons, ih, List.length_cons, List.range'_succ]; rfl
  have hleaf : ∀ t ∈ leavesFrom 0 f, ∃ j x g, t = .leaf j x g := by
    intro t ht
    obtain ⟨j, hj⟩ := List.mem_iff_getElem?.mp ht
    rw [leavesFrom_getElem?] at hj
    obtain ⟨e, -, rfl⟩ := Option.map_eq_some_iff.mp hj
    exact ⟨_, _, _, rfl⟩
  refine ⟨⟨by rw [hidx]; exact List.nodup_range', fun t ht => ⟨?_, ?_⟩⟩, ?_⟩
  · have : t.idx ∈ (leavesFrom 0 f).map Tree.idx := List.mem_map_of_mem ht
    rw [hidx] at this
    simpa using this
  · obtain ⟨_, _, _, rfl⟩ := hleaf t ht
    rfl
  · have : (leavesFrom 0 f).flatMap Tree.leaves = (leavesFrom 0 f).flatMap (fun t => [t]) := by
      refine List.flatMap_congr fun t ht => ?_
      obtain ⟨_, _, _, rfl⟩ := hleaf t ht
      rfl
    rw [this]
    simp

theorem iterate_combine_fst (k : Nat) : ∀ (next : Nat) (q : List Tree), k + 1 ≤ q.length →
    (combine^[k] (next, q)).1 = next + k := by
  induction k with
  | zero => intro next q _; rfl
  | succ k ih =>
    intro next q hq
    obtain ⟨-, -, -, h⟩ := combine_keeps next q
    obtain ⟨h1, h2⟩ := h (by omega)
    rw [Function.iterate_succ_apply]
    rcases hc : combine (next, q) with ⟨n, r⟩
    rw [hc] at h1 h2
    simp only at h1 h2
    rw [ih n r (by omega), h2]
    omega

/-- The tree BUILD gives is the one node its loop leaves, over the leaves it started from (rules R98 to R102). -/
theorem build_loop {f : FreqTable} {t : Tree} (hne : f ≠ []) (h : build f = some t) :
    combine^[f.length - 1] (f.length, leavesFrom 0 f) = (2 * f.length - 1, [t]) ∧
      t.leaves.Perm (leavesFrom 0 f) ∧ t.siblingsOrdered = true := by
  have hpos := List.length_pos_iff.mpr hne
  have hl := leavesFrom_length f 0
  obtain ⟨-, -, -, hlen⟩ := combineTimes_keeps (f.length - 1) f.length (leavesFrom 0 f) (by omega)
  have h1 := iterate_combine_fst (f.length - 1) f.length (leavesFrom 0 f) (by omega)
  have hb : (combine^[f.length - 1] (f.length, leavesFrom 0 f)).2.head? = some t := by
    rw [← combineTimes_eq_iterate, ← h, build, hl]
  rw [combineTimes_eq_iterate] at hlen
  have he : combine^[f.length - 1] (f.length, leavesFrom 0 f) = (2 * f.length - 1, [t]) := by
    obtain ⟨u, hu⟩ := List.length_eq_one_iff.mp (show _ = 1 by rw [hlen]; omega)
    rw [hu] at hb
    refine Prod.ext (by rw [h1]; simp only; omega) ?_
    rw [hu]
    simpa using hb
  obtain ⟨hok, hleaves⟩ := iterate_combine_forest (f.length - 1) (forestOk_leavesFrom f).1
  rw [(forestOk_leavesFrom f).2, he] at hleaves
  rw [he] at hok
  refine ⟨he, by simpa using hleaves, (hok.2 t (by simp)).2⟩

end Sys2Proof.Machine
end

