-- ==== Sys2Proof/Laws/Commands.lean ====
section
/-! SUPPORT. For each shared operation of the commands one lemma that says what it can do: the checks, the choice of the
table, the three commands, completion. -/
namespace Sys2Proof.Machine

/-! ### Checks -/

theorem overlaps_eq_false_iff (r q : Region) : r.overlaps q = false ↔ RangesDisjoint r.base r.len q.base q.len := by
  unfold RangesDisjoint Region.overlaps
  simp only [Bool.and_eq_false_iff, decide_eq_false_iff_not]
  omega

theorem inRange_iff (p : Params) (r : Region) : r.inRange p = true ↔ r.base + r.len ≤ dmaSize p := by
  simp [Region.inRange]

theorem not_inRange_iff (p : Params) (r : Region) : (!r.inRange p) = true ↔ dmaSize p < r.base + r.len := by
  simp [Region.inRange]

theorem windowClear_iff (p : Params) (r : Region) : r.overlaps (windowRegion p) = false ↔ WindowClear p r.base r.len := by
  rw [overlaps_eq_false_iff]
  unfold WindowClear windowRegion
  cases p.regBase
  · simp only [Option.not_mem_none, false_imp_iff, implies_true, iff_true]
    exact .inr (.inl rfl)
  · simp

/-- A byte outside the register window is one the window is clear of (rule R63). -/
theorem windowRegion_holds_eq_false_iff (p : Params) (a : Nat) : (windowRegion p).holds a = false ↔ WindowClear p a 1 := by
  unfold WindowClear windowRegion
  cases p.regBase with
  | none => simp [Region.holds]
  | some b =>
    simp [Region.holds, RangesDisjoint]
    omega

/-- A list of regions is clear of the window when each of them is (rule R63). -/
theorem clearOfWindow_iff (p : Params) (rs : List Region) :
    clearOfWindow p rs = true ↔ ∀ r ∈ rs, WindowClear p r.base r.len := by
  simp only [clearOfWindow, List.all_eq_true, Bool.not_eq_true', windowClear_iff]

theorem holds_iff (r : Region) (a : Nat) : r.holds a = true ↔ r.base ≤ a ∧ a < r.base + r.len := by
  simp [Region.holds]

theorem encodeArgError_eq_none_iff (p : Params) (l : Latch) : encodeArgError p l = none ↔ EncodeArgsOk p l := by
  unfold encodeArgError EncodeArgsOk Latch.srcAddr Latch.dstAddr Latch.sampleCount sampleRegion Region.inRange
  split_ifs <;> simp_all

/-- The first check that fails is reported, in the order of rule R160. -/
theorem encodeArgError_eq (p : Params) (l : Latch) : encodeArgError p l =
    if l.src.toNat = 0 then some .nullSrc
    else if l.dst.toNat = 0 then some .nullDst
    else if l.src.toNat % 2 ≠ 0 then some .misalignedSrc
    else if l.dst.toNat % wordBytes p ≠ 0 then some .misalignedDst
    else if dmaSize p < l.src.toNat + 2 * l.n.toNat then some .rangeSrc
    else none := by
  have h := not_inRange_iff p (sampleRegion l.src.toNat l.n.toNat)
  unfold encodeArgError Latch.srcAddr Latch.dstAddr Latch.sampleCount
  simp only [h]
  rfl

theorem decodeArgError_eq (p : Params) (l : Latch) : decodeArgError p l =
    if l.src.toNat = 0 then some .nullSrc
    else if l.dst.toNat = 0 then some .nullDst
    else if l.src.toNat % wordBytes p ≠ 0 then some .misalignedSrc
    else if l.dst.toNat % 2 ≠ 0 then some .misalignedDst
    else if dmaSize p < l.src.toNat + wordCount p l.bitcnt.toNat * wordBytes p then some .rangeSrc
    else if dmaSize p < l.dst.toNat + 2 * l.n.toNat then some .rangeDst
    else if (packedRegion p l.src.toNat (wordCount p l.bitcnt.toNat)).overlaps (sampleRegion l.dst.toNat l.n.toNat) then
      some .overlap
    else none := by
  have h1 := not_inRange_iff p (packedRegion p l.src.toNat (wordCount p l.bitcnt.toNat))
  have h2 := not_inRange_iff p (sampleRegion l.dst.toNat l.n.toNat)
  unfold decodeArgError Latch.srcAddr Latch.dstAddr Latch.expected Latch.bitCount
  simp only [h1, h2]
  rfl

theorem decodeArgError_eq_none_iff (p : Params) (l : Latch) : decodeArgError p l = none ↔ DecodeArgsOk p l := by
  have ho := overlaps_eq_false_iff (packedRegion p l.src.toNat (wordCount p l.bitcnt.toNat))
    (sampleRegion l.dst.toNat l.n.toNat)
  rw [decodeArgError_eq, DecodeArgsOk]
  simp only [packedRegion, sampleRegion] at ho ⊢
  rw [← ho]
  split_ifs <;> simp_all

/-- Every error of an argument check is a PRECONDITION_VIOLATION. -/
theorem encodeArgError_code {p : Params} {l : Latch} {e : CmdError} (h : encodeArgError p l = some e) : e.code = 1 := by
  rw [encodeArgError_eq] at h
  split_ifs at h <;> (cases h; rfl)

theorem decodeArgError_code {p : Params} {l : Latch} {e : CmdError} (h : decodeArgError p l = some e) : e.code = 1 := by
  rw [decodeArgError_eq] at h
  split_ifs at h <;> (cases h; rfl)

theorem samples_length (s : State) (l : Latch) : (s.samples l).length = l.n.toNat := readSamples_length _ _ _

theorem samples_ne_nil {s : State} {l : Latch} (h : l.n.toNat ≠ 0) : s.samples l ≠ [] := by
  intro h0
  have := samples_length s l
  rw [h0] at this
  exact h this.symm

theorem inputBits_eq_stream (s : State) (l : Latch) : inputBits s.params s.mem l = s.stream l := inputBits_eq _ _ _

theorem codesOf_length (table : CodeTable) (xs : List Symbol) :
    (codesOf table xs).length = (xs.map (fun x => ((CodeTable.code table x).getD []).length)).sum := by
  simp [codesOf, List.length_flatMap]

theorem wordCount_zero (p : Params) : wordCount p 0 = 0 := by
  have := (wordCount_le_iff p 0 0).mpr (by simp)
  omega

/-- A stream that fits has fewer than 2^48 bits and fewer than 2^32 words (rules R47, R48). -/
theorem EncodeFits.bounds {p : Params} {l : Latch} {b : Nat} (h : EncodeFits p l b) :
    b < 2 ^ 48 ∧ wordCount p b < 2 ^ 32 := by
  have h1 := (wordCount_le_iff p b l.cap.toNat).mp h.1
  have h2 := l.cap.isLt
  refine ⟨?_, lt_of_le_of_lt h.1 h2⟩
  rcases wordBits_cases p with e | e <;> rw [e] at h1 <;> omega

/-- What the invariant says of a Ready state. -/
theorem State.Inv.ready {s : State} {tree : Tree} {table : CodeTable} (hi : s.Inv) (hl : s.life = .ready tree table) :
    tree.symbols.Nodup ∧ tree.weighted = true ∧ tree.freq < 2 ^ 32 ∧ table = derive tree ∧
      s.nsym = BitVec.ofNat 17 tree.leafCount := by
  have := hi.2.2.2
  unfold State.CacheInv at this
  rwa [hl] at this

/-! ### The choice of the table -/

theorem firstAbsent_eq_none_iff (table : CodeTable) (xs : List Symbol) : ∀ i,
    firstAbsent table i xs = none ↔ ∀ x ∈ xs, (CodeTable.code table x).isSome := by
  induction xs with
  | nil => intro i; simp [firstAbsent]
  | cons x xs ih =>
    intro i
    rw [firstAbsent]
    split <;> simp_all

theorem firstAbsent_eq_some (table : CodeTable) (xs : List Symbol) : ∀ {i j : Nat} {x : Symbol},
    firstAbsent table i xs = some (j, x) → ∃ k, j = i + k ∧ xs[k]? = some x ∧ CodeTable.code table x = none ∧
      ∀ m < k, ∀ y, xs[m]? = some y → (CodeTable.code table y).isSome := by
  induction xs with
  | nil => intro i j x h; simp [firstAbsent] at h
  | cons y ys ih =>
    intro i j x h
    rw [firstAbsent] at h
    split at h
    · obtain ⟨k, h1, h2, h3, h4⟩ := ih h
      refine ⟨k + 1, by omega, by simpa using h2, h3, fun m hm z hz => ?_⟩
      cases m with
      | zero =>
        obtain rfl : y = z := by simpa using hz
        assumption
      | succ m => exact h4 m (by omega) z (by simpa using hz)
    · cases h
      have hn : ¬(CodeTable.code table y).isSome = true := by assumption
      refine ⟨0, rfl, rfl, by simpa using hn, fun m hm => absurd hm (by omega)⟩

theorem firstAbsent_of_least (table : CodeTable) (xs : List Symbol) : ∀ (i k : Nat) (x : Symbol),
    xs[k]? = some x → CodeTable.code table x = none →
    (∀ m < k, ∀ y, xs[m]? = some y → (CodeTable.code table y).isSome) → firstAbsent table i xs = some (i + k, x) := by
  induction xs with
  | nil => intro i k x h; simp at h
  | cons y ys ih =>
    intro i k x h hx hall
    rw [firstAbsent]
    cases k with
    | zero =>
      obtain rfl : y = x := by simpa using h
      simp [hx]
    | succ k =>
      rw [if_pos (hall 0 (by omega) y rfl), ih (i + 1) k x (by simpa using h) hx fun m hm z hz =>
        hall (m + 1) (by omega) z (by simpa using hz)]
      congr 2
      omega

/-- What a choice of a table means: primed from the samples, or the cached table that covers them (rules R130, R131). -/
theorem chooseTable_use {life : Life} {xs : List Symbol} {table : CodeTable} {commit : Option (Tree × CodeTable)}
    (h : chooseTable life xs = .use table commit) :
    (life = .uninitialized ∧ ∃ tree, build (count xs) = some tree ∧ table = derive tree ∧ commit = some (tree, derive tree)) ∨
    (∃ tree, life = .ready tree table ∧ commit = none ∧ ∀ x ∈ xs, (CodeTable.code table x).isSome) := by
  unfold chooseTable at h
  cases life with
  | uninitialized =>
    cases hb : build (count xs) with
    | none => simp [hb] at h
    | some tree =>
      simp only [hb, TableChoice.use.injEq] at h
      exact .inl ⟨rfl, tree, rfl, h.1.symm, h.2.symm⟩
  | ready tree t =>
    cases hf : firstAbsent t 0 xs with
    | some e => simp [hf] at h
    | none =>
      simp only [hf, TableChoice.use.injEq] at h
      obtain ⟨rfl, rfl⟩ := h
      exact .inr ⟨tree, rfl, rfl, (firstAbsent_eq_none_iff t xs 0).mp hf⟩

/-- A priming ENCODE of at least one sample always has a table, which covers its samples (rules R104, R130). -/
theorem chooseTable_uninitialized {xs : List Symbol} (h : xs ≠ []) : ∃ tree, build (count xs) = some tree ∧
    chooseTable .uninitialized xs = .use (derive tree) (some (tree, derive tree)) ∧
    ∀ x ∈ xs, (CodeTable.code (derive tree) x).isSome := by
  obtain ⟨tree, hb, -, hm, -⟩ := build_count h
  refine ⟨tree, hb, by simp [chooseTable, hb], fun x hx => ?_⟩
  rw [code_derive, pathTo_isSome]
  exact (hm x).mpr hx

theorem chooseTable_ready {tree : Tree} {table : CodeTable} {xs : List Symbol}
    (h : ∀ x ∈ xs, (CodeTable.code table x).isSome) : chooseTable (.ready tree table) xs = .use table none := by
  simp [chooseTable, (firstAbsent_eq_none_iff table xs 0).mpr h]

theorem chooseTable_error {life : Life} {xs : List Symbol} {e : CmdError} {i : Nat} (hne : xs ≠ [])
    (h : chooseTable life xs = .error e i) : e = .unknownSymbol ∧ ∃ tree table k x, life = .ready tree table ∧
      i = k + x.toNat * 2 ^ 32 ∧ xs[k]? = some x ∧ CodeTable.code table x = none ∧
      ∀ m < k, ∀ y, xs[m]? = some y → (CodeTable.code table y).isSome := by
  cases life with
  | uninitialized =>
    obtain ⟨tree, -, hc, -⟩ := chooseTable_uninitialized hne
    rw [hc] at h
    cases h
  | ready tree table =>
    unfold chooseTable at h
    cases hf : firstAbsent table 0 xs with
    | none => simp [hf] at h
    | some jx =>
      obtain ⟨j, x⟩ := jx
      simp only [hf, TableChoice.error.injEq] at h
      obtain ⟨k, h1, h2, h3, h4⟩ := firstAbsent_eq_some table xs hf
      refine ⟨h.1.symm, tree, table, k, x, rfl, ?_, h2, h3, h4⟩
      rw [← h.2, h1, Nat.zero_add]

/-- How each command ends. -/
def resultOf (i : Instr) (s : State) (l : Latch) : CmdResult :=
  match i with
  | .encode => encodeCommand s.params s.life s.mem l
  | .decode => decodeCommand s.params s.life s.mem l
  | .query => queryCommand s.life l

/-! ### ENCODE -/

/-- What ENCODE's completion writes for a stream (rules R121, R128). -/
def encodeOk (p : Params) (l : Latch) (bits : Bits) (commit : Option (Tree × CodeTable)) : CmdOk :=
  { bitcnt := bits.length, wordcnt := wordCount p bits.length, symcnt := l.n.toNat, codelen := 0, code := 0,
    outAddr := l.dst.toNat, outSize := wordBytes p,
    out := packWords (wordBits p) (wordCount p bits.length) bits, commit := commit }

theorem emitStream_of_fits {p : Params} {l : Latch} {bits : Bits} (commit : Option (Tree × CodeTable))
    (h : EncodeFits p l bits.length) : emitStream p l bits commit = .ok (encodeOk p l bits commit) := by
  obtain ⟨h1, h2, h3⟩ := h
  have ho := (overlaps_eq_false_iff (sampleRegion l.src.toNat l.n.toNat)
    (packedRegion p l.dst.toNat (wordCount p bits.length))).mpr h3
  have hr := (inRange_iff p (packedRegion p l.dst.toNat (wordCount p bits.length))).mpr h2
  unfold emitStream encodeOk
  simp only [Latch.capWords, Latch.dstAddr, Latch.srcAddr, Latch.sampleCount, ho, hr]
  rw [if_neg (by omega)]
  simp

/-- The checks of the output, in the order of rule R160. -/
theorem emitStream_eq (p : Params) (l : Latch) (bits : Bits) (commit : Option (Tree × CodeTable)) :
    emitStream p l bits commit =
      if l.cap.toNat < wordCount p bits.length then .error .capacity 0
      else if dmaSize p < l.dst.toNat + wordCount p bits.length * wordBytes p then .error .rangeDst 0
      else if (sampleRegion l.src.toNat l.n.toNat).overlaps (packedRegion p l.dst.toNat (wordCount p bits.length)) then
        .error .overlap 0
      else .ok (encodeOk p l bits commit) := by
  have h := not_inRange_iff p (packedRegion p l.dst.toNat (wordCount p bits.length))
  unfold emitStream encodeOk Latch.capWords Latch.dstAddr Latch.srcAddr Latch.sampleCount
  simp only [h, gt_iff_lt]
  rfl

theorem emitStream_ok {p : Params} {l : Latch} {bits : Bits} {commit : Option (Tree × CodeTable)} {r : CmdOk}
    (h : emitStream p l bits commit = .ok r) : EncodeFits p l bits.length ∧ r = encodeOk p l bits commit := by
  rw [emitStream_eq] at h
  split_ifs at h with h1 h2 h3
  · cases h
    have h3 : (sampleRegion l.src.toNat l.n.toNat).overlaps (packedRegion p l.dst.toNat (wordCount p bits.length)) = false := by
      simpa using h3
    have := (overlaps_eq_false_iff _ _).mp h3
    exact ⟨⟨by omega, by omega, this⟩, rfl⟩

theorem emitStream_error {p : Params} {l : Latch} {bits : Bits} {commit : Option (Tree × CodeTable)} {e : CmdError} {i : Nat}
    (h : emitStream p l bits commit = .error e i) : e.code = 1 ∧ i = 0 := by
  rw [emitStream_eq] at h
  split_ifs at h <;> (cases h; exact ⟨rfl, rfl⟩)

theorem encodeCommand_of_args {p : Params} {life : Life} {mem : Memory} {l : Latch} (ha : EncodeArgsOk p l) :
    encodeCommand p life mem l =
      if l.n.toNat = 0 then .ok CmdOk.empty
      else match chooseTable life (readSamples mem l.src.toNat l.n.toNat) with
        | .error e info => .error e info
        | .use table commit => emitStream p l (codesOf table (readSamples mem l.src.toNat l.n.toNat)) commit := by
  unfold encodeCommand
  rw [(encodeArgError_eq_none_iff p l).mpr ha]
  rfl

/-- Everything a successful ENCODE is (rules R128, R129). -/
theorem encodeCommand_ok {p : Params} {life : Life} {mem : Memory} {l : Latch} {r : CmdOk}
    (h : encodeCommand p life mem l = .ok r) : EncodeArgsOk p l ∧
      ((l.n.toNat = 0 ∧ r = CmdOk.empty) ∨
        (l.n.toNat ≠ 0 ∧ ∃ table commit,
          chooseTable life (readSamples mem l.src.toNat l.n.toNat) = .use table commit ∧
          EncodeFits p l (codesOf table (readSamples mem l.src.toNat l.n.toNat)).length ∧
          r = encodeOk p l (codesOf table (readSamples mem l.src.toNat l.n.toNat)) commit)) := by
  have ha : EncodeArgsOk p l := by
    rw [← encodeArgError_eq_none_iff]
    unfold encodeCommand at h
    cases ha : encodeArgError p l with
    | some e => rw [ha] at h; cases h
    | none => rfl
  refine ⟨ha, ?_⟩
  rw [encodeCommand_of_args ha] at h
  split_ifs at h with hn
  · cases h; exact .inl ⟨hn, rfl⟩
  · cases hc : chooseTable life (readSamples mem l.src.toNat l.n.toNat) with
    | error e i => rw [hc] at h; cases h
    | use table commit =>
      rw [hc] at h
      obtain ⟨h1, h2⟩ := emitStream_ok h
      exact .inr ⟨hn, table, commit, rfl, h1, h2⟩

theorem encodeCommand_argError {p : Params} {life : Life} {mem : Memory} {l : Latch} {e : CmdError}
    (h : encodeArgError p l = some e) : encodeCommand p life mem l = .error e 0 := by
  unfold encodeCommand
  rw [h]

/-- When ENCODE is admitted (rule R63): an argument check answers first, or its samples are clear of the register window and,
where it succeeds, so are its words. -/
theorem encodeAdmitted_iff (s : State) (l : Latch) : commandAdmitted .encode s l = true ↔
    (EncodeArgsOk s.params l → WindowClear s.params l.src.toNat (2 * l.n.toNat) ∧
      ∀ r, encodeCommand s.params s.life s.mem l = .ok r → WindowClear s.params r.outAddr (r.outSize * r.out.length)) := by
  unfold commandAdmitted
  rw [clearOfWindow_iff, ← encodeArgError_eq_none_iff]
  simp only [usedRegions, encodeRegions]
  cases encodeArgError s.params l with
  | some e => simp
  | none =>
    cases encodeCommand s.params s.life s.mem l with
    | error e i => simp [sampleRegion, Latch.srcAddr, Latch.sampleCount]
    | ok r => simp [sampleRegion, Latch.srcAddr, Latch.sampleCount]

/-- ENCODE of a stream that fits is admitted exactly when both regions are clear of the window (rule R63). -/
theorem encodeAdmitted_fits {s : State} {l : Latch} {table : CodeTable} {commit : Option (Tree × CodeTable)}
    (ha : EncodeArgsOk s.params l) (hn : l.n.toNat ≠ 0) (hc : chooseTable s.life (s.samples l) = .use table commit)
    (hf : EncodeFits s.params l (codesOf table (s.samples l)).length) :
    resultOf .encode s l = .ok (encodeOk s.params l (codesOf table (s.samples l)) commit) ∧
      (commandAdmitted .encode s l = true ↔ EncodeClear s.params l (codesOf table (s.samples l)).length) := by
  have hr : encodeCommand s.params s.life s.mem l = .ok (encodeOk s.params l (codesOf table (s.samples l)) commit) := by
    rw [encodeCommand_of_args ha, if_neg hn]
    rw [State.samples] at hc hf ⊢
    rw [hc]
    exact emitStream_of_fits commit hf
  refine ⟨hr, ?_⟩
  rw [encodeAdmitted_iff, hr]
  simp only [CmdResult.ok.injEq, forall_eq', encodeOk, packWords_length, Nat.mul_comm (wordBytes s.params)]
  exact ⟨fun h => h ha, fun h _ => h⟩

/-! ### DECODE -/

/-- When DECODE is admitted (rule R63): an argument check answers first, or both regions are clear of the window. -/
theorem decodeAdmitted_iff (s : State) (l : Latch) : commandAdmitted .decode s l = true ↔
    (DecodeArgsOk s.params l → DecodeClear s.params l) := by
  unfold commandAdmitted
  rw [clearOfWindow_iff, ← decodeArgError_eq_none_iff]
  simp only [usedRegions, decodeRegions]
  cases decodeArgError s.params l with
  | some e => simp
  | none =>
    simp [packedRegion, sampleRegion, Latch.srcAddr, Latch.dstAddr, Latch.expected, Latch.bitCount]

/-- What DECODE's completion writes for the symbols decoded (rules R121, R139, R145). -/
def decodeOk (p : Params) (l : Latch) (out : List Symbol) : CmdOk :=
  { bitcnt := l.bitcnt.toNat, wordcnt := wordCount p l.bitcnt.toNat, symcnt := l.n.toNat, codelen := 0, code := 0,
    outAddr := l.dst.toNat, outSize := 2, out := out.map BitVec.toNat, commit := none }

theorem decodeCommand_of_args {p : Params} {life : Life} {mem : Memory} {l : Latch} (ha : DecodeArgsOk p l) :
    decodeCommand p life mem l =
      if l.n.toNat = 0 ∧ l.bitcnt.toNat = 0 then .ok CmdOk.empty
      else match life with
        | .uninitialized => .error .uninit 0
        | .ready tree _ =>
          match decodeBits tree (inputBits p mem l) l.n.toNat with
          | .error e consumed => .error e consumed
          | .ok out => .ok (decodeOk p l out) := by
  unfold decodeCommand
  rw [(decodeArgError_eq_none_iff p l).mpr ha]
  rfl

/-- Everything a successful DECODE is (rules R139, R140). -/
theorem decodeCommand_ok {p : Params} {life : Life} {mem : Memory} {l : Latch} {r : CmdOk}
    (h : decodeCommand p life mem l = .ok r) : DecodeArgsOk p l ∧
      ((l.n.toNat = 0 ∧ l.bitcnt.toNat = 0 ∧ r = CmdOk.empty) ∨
        (¬(l.n.toNat = 0 ∧ l.bitcnt.toNat = 0) ∧ ∃ tree table out, life = .ready tree table ∧
          decodeBits tree (inputBits p mem l) l.n.toNat = .ok out ∧ r = decodeOk p l out)) := by
  have ha : DecodeArgsOk p l := by
    rw [← decodeArgError_eq_none_iff]
    unfold decodeCommand at h
    cases ha : decodeArgError p l with
    | some e => rw [ha] at h; cases h
    | none => rfl
  refine ⟨ha, ?_⟩
  rw [decodeCommand_of_args ha] at h
  split_ifs at h with h0
  · cases h; exact .inl ⟨h0.1, h0.2, rfl⟩
  · cases life with
    | uninitialized => cases h
    | ready tree table =>
      simp only at h
      cases hd : decodeBits tree (inputBits p mem l) l.n.toNat with
      | error e i => rw [hd] at h; cases h
      | ok out =>
        rw [hd] at h
        cases h
        exact .inr ⟨h0, tree, table, out, rfl, hd, rfl⟩

theorem walk_ok_length (root : Tree) : ∀ (bits : Bits) (e : Nat) (pos : Tree) (i : Nat) (out : List Symbol),
    walk root bits e pos i = .ok out → out.length = e := by
  intro bits
  induction bits with
  | nil =>
    intro e pos i out h
    cases e with
    | zero => cases h; rfl
    | succ e => rw [walk] at h; split_ifs at h
  | cons b bits ih =>
    intro e pos i out h
    cases e with
    | zero => cases h
    | succ e =>
      rw [walk] at h
      cases hc : pos.child b with
      | leaf k s f =>
        rw [hc] at h
        simp only at h
        cases hw : walk root bits e root (i + 1) with
        | error _ _ => rw [hw] at h; cases h
        | ok out' =>
          rw [hw] at h
          cases h
          rw [List.length_cons, ih _ _ _ _ hw]
      | internal k f l r =>
        rw [hc] at h
        exact ih _ _ _ _ h

/-- A successful decode gives E symbols (rules R143, R144). -/
theorem decodeBits_ok_length {root : Tree} {bits : Bits} {e : Nat} {out : List Symbol}
    (h : decodeBits root bits e = .ok out) : out.length = e := by
  unfold decodeBits at h
  cases root with
  | leaf i s f =>
    simp only at h
    split_ifs at h
    cases h
    simp
  | internal k f l r => exact walk_ok_length _ _ _ _ _ _ h

theorem decodeBits_internal {root : Tree} (hr : root.isLeaf = false) (bits : Bits) (e : Nat) :
    decodeBits root bits e = walk root bits e root 0 := by
  cases root with
  | leaf i s f => cases hr
  | internal k f l r => rfl

theorem codesOf_derive (t : Tree) (xs : List Symbol) :
    codesOf (derive t) xs = xs.flatMap (fun s => (t.pathTo s).getD []) := by
  unfold codesOf
  simp only [code_derive]

/-- A walk over the codes of some symbols and a tail that reaches no leaf: the four outcomes of rule R143. -/
theorem walk_outcome {root : Tree} (hr : root.isLeaf = false) {out : List Symbol} (hout : ∀ s ∈ out, s ∈ root.symbols)
    {tail : Bits} (htail : ∀ p x, tail = p ++ x → (root.follow p).isLeaf = false) (e : Nat) (he : out.length ≤ e) :
    walk root (codesOf (derive root) out ++ tail) e root 0 =
      if out.length = e then
        (if tail = [] then .ok out else .error .leftoverBits (codesOf (derive root) out).length)
      else if tail = [] then .error .shortStream (codesOf (derive root) out).length
      else .error .midCode ((codesOf (derive root) out).length + tail.length) := by
  obtain ⟨d, rfl⟩ := Nat.exists_eq_add_of_le he
  rw [codesOf_derive, walk_codes root hr d tail out 0 hout, Nat.zero_add]
  cases d with
  | zero =>
    rw [Nat.add_zero, if_pos rfl]
    cases tail with
    | nil => rw [walk, foldr_emit_ok, List.append_nil, if_pos rfl]
    | cons b tail => rw [walk, foldr_emit_error, if_neg (by simp)]
  | succ d =>
    rw [if_neg (by omega)]
    by_cases ht : tail = []
    · subst ht
      rw [if_pos rfl, walk, if_neg (by simp), foldr_emit_error]
    · have hw := walk_inside root d [] tail root (codesOf (derive root) out).length fun p x e _ => htail p x e
      rw [List.append_nil, codesOf_derive] at hw
      rw [if_neg ht, hw, walk, if_pos (follow_ne_self root tail ht htail), foldr_emit_error]

/-- More symbols on the stream than expected: the walk stops after E of them (rule R143). -/
theorem walk_surplus {root : Tree} (hr : root.isLeaf = false) {out more : List Symbol}
    (hout : ∀ s ∈ out ++ more, s ∈ root.symbols) (hmore : more ≠ []) (tail : Bits) :
    walk root (codesOf (derive root) (out ++ more) ++ tail) out.length root 0 =
      .error .leftoverBits (codesOf (derive root) out).length := by
  have hne : codesOf (derive root) more ++ tail ≠ [] := by
    obtain ⟨s, more', rfl⟩ := List.exists_cons_of_ne_nil hmore
    obtain ⟨q, hq⟩ := Option.isSome_iff_exists.mp
      ((pathTo_isSome root s).mpr (hout s (List.mem_append_right _ List.mem_cons_self)))
    have hq0 : q ≠ [] := by
      cases root with
      | leaf i x f => cases hr
      | internal i f l r => exact pathTo_internal_ne_nil hq
    rw [codesOf_derive, List.flatMap_cons, hq]
    simp [hq0]
  have hsplit : codesOf (derive root) (out ++ more) ++ tail =
      codesOf (derive root) out ++ (codesOf (derive root) more ++ tail) := by
    simp [codesOf]
  have hw := walk_codes root hr 0 (codesOf (derive root) more ++ tail) out 0
    fun s hs => hout s (List.mem_append_left _ hs)
  rw [hsplit, codesOf_derive root out]
  rw [Nat.add_zero] at hw
  rw [hw, Nat.zero_add]
  obtain ⟨b, rest, hb⟩ := List.exists_cons_of_ne_nil hne
  rw [hb, walk, foldr_emit_error]

/-- The codes of E symbols decode to them (rules R143, R147). -/
theorem decodeBits_codes {root : Tree} (h2 : 2 ≤ root.leafCount) {out : List Symbol} (hm : ∀ x ∈ out, x ∈ root.symbols) :
    decodeBits root (codesOf (derive root) out) out.length = .ok out := by
  have hr := isLeaf_of_two_le h2
  rw [decodeBits_internal hr]
  have := walk_outcome hr hm (tail := []) (fun p x h => by rw [(List.append_eq_nil_iff.mp h.symm).1]; exact hr) out.length le_rfl
  rwa [List.append_nil, if_pos rfl, if_pos rfl] at this

/-! ### QUERY -/

theorem querySym_eq (l : Latch) : l.querySym = BitVec.ofNat 16 (l.n.toNat % 2 ^ 16) := by
  apply BitVec.eq_of_toNat_eq
  simp [Latch.querySym, BitVec.extractLsb'_toNat]

theorem codeValue_eq_sum (c : Bits) :
    codeValue c = ((List.range c.length).map (fun j => (c.getD j false).toNat * 2 ^ (c.length - 1 - j))).sum := by
  induction c with
  | nil => rfl
  | cons b c ih =>
    have happ : ∀ (xs : Bits) (y : Bool), bitsToNat (xs ++ [y]) = bitsToNat xs + y.toNat * 2 ^ xs.length := by
      intro xs y
      induction xs with
      | nil => simp [bitsToNat]
      | cons x xs ih => rw [List.cons_append, bitsToNat, ih, bitsToNat, List.length_cons, pow_succ]; ring
    have h1 : codeValue (b :: c) = codeValue c + b.toNat * 2 ^ c.length := by
      unfold codeValue
      rw [List.reverse_cons, happ, List.length_reverse]
    rw [h1, ih, List.length_cons, List.range_succ_eq_map, List.map_cons, List.sum_cons, List.map_map]
    have h2 : ((List.range c.length).map ((fun j => ((b :: c).getD j false).toNat * 2 ^ (c.length + 1 - 1 - j)) ∘ Nat.succ)) =
        (List.range c.length).map (fun j => (c.getD j false).toNat * 2 ^ (c.length - 1 - j)) := by
      refine List.map_congr_left fun j _ => ?_
      have : c.length + 1 - 1 - (j + 1) = c.length - 1 - j := by omega
      simp only [Function.comp_apply, Nat.succ_eq_add_one, List.getD_cons_succ, this]
    rw [h2]
    simp
    omega

theorem testBit_codeValue (c : Bits) (j : Nat) (hj : j < c.length) :
    (codeValue c).testBit (c.length - 1 - j) = c.getD j false := by
  unfold codeValue
  rw [testBit_bitsToNat, List.getD_eq_getElem?_getD, List.getD_eq_getElem?_getD, List.getElem?_reverse (by omega)]
  congr 2
  omega

theorem codeValue_lt (c : Bits) : codeValue c < 2 ^ c.length := by
  have := bitsToNat_lt c.reverse
  rwa [List.length_reverse] at this

/-! ### Completion -/

/-- Everything exec can do with a latched command: its completion, or the refusal of a command that is not admitted (rules
R63, R120). -/
theorem exec_cases {s : State} {l : Latch} (h : s.lat = some l) (i : Instr) : exec i s =
    if commandAdmitted i s l then .next (s.complete (resultOf i s l)) else .refused .windowInRegion := by
  cases i <;> simp only [exec, execEncode, execDecode, execQuery, withLatch, h] <;> rfl

/-- Every admitted command is its completion (rule R120). -/
theorem exec_eq {s : State} {l : Latch} (h : s.lat = some l) {i : Instr} (ha : commandAdmitted i s l = true) :
    exec i s = .next (s.complete (resultOf i s l)) := by
  rw [exec_cases h, if_pos ha]

theorem exec_next {s t : State} {i : Instr} (h : exec i s = .next t) :
    ∃ l, s.lat = some l ∧ commandAdmitted i s l = true ∧ t = s.complete (resultOf i s l) := by
  cases hl : s.lat with
  | none => cases i <;> simp [exec, execEncode, execDecode, execQuery, withLatch, hl] at h
  | some l =>
    rw [exec_cases hl] at h
    split_ifs at h with ha
    cases h
    exact ⟨l, rfl, ha, rfl⟩

/-- How the latched word's command, legal or not, ends (rule R122). -/
def resultOfWord (s : State) (l : Latch) : CmdResult :=
  match decode l.op with
  | .command i => resultOf i s l
  | .illegal why => .error (illegalError why) l.op.toNat

theorem coreTurn_some {s : State} {l : Latch} (h : s.lat = some l) : coreTurn s =
    if wordAdmitted s l then .next (s.complete (resultOfWord s l)) else .refused .windowInRegion := by
  unfold coreTurn resultOfWord wordAdmitted
  simp only [h]
  cases hd : decode l.op with
  | command i => exact exec_cases h i
  | illegal why => rfl

/-- The Core's turn: idle, the completion of the latched word, or its refusal (rules R63, R120, R177). -/
theorem coreTurn_cases (s : State) : (s.lat = none ∧ coreTurn s = .next s) ∨
    ∃ l, s.lat = some l ∧ ((wordAdmitted s l = true ∧ coreTurn s = .next (s.complete (resultOfWord s l))) ∨
      (wordAdmitted s l = false ∧ coreTurn s = .refused .windowInRegion)) := by
  cases h : s.lat with
  | none => exact .inl ⟨rfl, by simp [coreTurn, h]⟩
  | some l =>
    refine .inr ⟨l, rfl, ?_⟩
    rw [coreTurn_some h]
    cases wordAdmitted s l
    · exact .inr ⟨rfl, rfl⟩
    · exact .inl ⟨rfl, rfl⟩

theorem coreTurn_next {s t : State} (h : coreTurn s = .next t) : (s.lat = none ∧ t = s) ∨
    ∃ l, s.lat = some l ∧ wordAdmitted s l = true ∧ t = s.complete (resultOfWord s l) := by
  rcases coreTurn_cases s with ⟨h1, h2⟩ | ⟨l, h1, ⟨h2, h3⟩ | ⟨-, h3⟩⟩
  · rw [h2] at h; cases h; exact .inl ⟨h1, rfl⟩
  · rw [h3] at h; cases h; exact .inr ⟨l, h1, h2, rfl⟩
  · rw [h3] at h; cases h

/-- The completion reads the latch, the parameters, the cache and memory only (rule R55). -/
theorem coreTurn_congr {s s' t : State} {l : Latch} (h : s.lat = some l) (h' : s'.lat = some l)
    (h1 : s'.params = s.params) (h2 : s'.life = s.life) (h3 : s'.mem = s.mem) (ht : coreTurn s = .next t) :
    ∃ r, t = s.complete r ∧ coreTurn s' = .next (s'.complete r) := by
  rw [coreTurn_some h] at ht
  split_ifs at ht with ha
  cases ht
  have hr : resultOfWord s' l = resultOfWord s l := by
    unfold resultOfWord resultOf
    rw [h1, h2, h3]
  have ha' : wordAdmitted s' l = true := by
    rw [← ha]
    unfold wordAdmitted commandAdmitted usedRegions
    rw [h1, h2, h3]
  exact ⟨_, rfl, by rw [coreTurn_some h', if_pos ha', hr]⟩

/-- What a completion does and does not change (rules R54, R120). -/
theorem complete_frame (s : State) (r : CmdResult) :
    (s.complete r).lat = none ∧ (s.complete r).done = true ∧ s.SameHostSide (s.complete r) := by
  cases r <;> exact ⟨rfl, rfl, rfl, rfl, rfl, rfl, rfl, rfl, rfl, rfl, rfl, rfl, rfl, rfl, rfl⟩

end Sys2Proof.Machine
end

