-- ==== Sys2Proof/Laws/PerInstr.lean ====
section
/-! SUPPORT. The per-instruction family WordShape: what the word of each command looks like (30_encoding.md rule R87). -/
namespace Sys2Proof.Laws.WordShape

/-- The command's word has RSV = 0 and a nonzero OP, which is its op code. -/
def Statement (i : Instr) : Prop :=
  rsvField (encode i) = 0 ∧ opField (encode i) = opCode i ∧ opCode i ≠ 0

theorem encode : Statement .encode := by unfold Statement; decide

theorem decode : Statement .decode := by unfold Statement; decide

theorem query : Statement .query := by unfold Statement; decide

end Sys2Proof.Laws.WordShape
end

