-- ==== Sys2Proof/Laws/Port.lean ====
section
/-! SUPPORT. The register port, the host's steps and the step function: what each can do, said once. -/
namespace Sys2Proof.Machine

/-! ### STATUS and PARAM, bit by bit -/

theorem getLsbD_ofBool (b : Bool) (k : Nat) : (BitVec.ofBool b).getLsbD k = (decide (k = 0) && b) := by
  cases b <;> cases k <;> simp

/-- STATUS bit by bit (rules R31 to R37). -/
theorem State.statusWord_getLsbD (s : State) (k : Nat) : s.statusWord.getLsbD k =
    if k = 0 then s.busy else if k = 1 then s.done else if k = 2 then s.readyBit else if k = 3 then s.dropped
    else if k < 8 then false else if k < 12 then s.errField.getLsbD (k - 8)
    else if k < 16 then false else if k < 24 then s.detailField.getLsbD (k - 16) else false := by
  by_cases hk : k < 32
  · unfold State.statusWord
    interval_cases k <;> simp only [BitVec.getLsbD_append, getLsbD_ofBool] <;> simp
  · rw [BitVec.getLsbD_of_ge _ _ (by omega)]
    simp [show ¬ k = 0 by omega, show ¬ k = 1 by omega, show ¬ k = 2 by omega, show ¬ k = 3 by omega,
      show ¬ k < 8 by omega, show ¬ k < 12 by omega, show ¬ k < 16 by omega, show ¬ k < 24 by omega]

/-- The open bits of STATUS while BUSY = 1 (rule R38). -/
theorem openStatusBits_getLsbD (k : Nat) : openStatusBits.getLsbD k =
    decide (k = 2 ∨ (8 ≤ k ∧ k ≤ 11) ∨ (16 ≤ k ∧ k ≤ 23)) := by
  by_cases hk : k < 32
  · interval_cases k <;> decide
  · rw [BitVec.getLsbD_of_ge _ _ (by omega)]
    exact (decide_eq_false (by omega)).symm

/-- STATUS while BUSY = 1: a free bit where the bit is open, the bit of STATUS elsewhere (rule R38). -/
theorem State.busyStatusWord_getLsbD (s : State) (f : Word) (k : Nat) : (s.busyStatusWord f).getLsbD k =
    if k = 2 ∨ (8 ≤ k ∧ k ≤ 11) ∨ (16 ≤ k ∧ k ≤ 23) then f.getLsbD k else s.statusWord.getLsbD k := by
  unfold State.busyStatusWord
  by_cases hk : k < 32
  · simp only [BitVec.getLsbD_or, BitVec.getLsbD_and, BitVec.getLsbD_not, openStatusBits_getLsbD, hk]
    by_cases h : k = 2 ∨ (8 ≤ k ∧ k ≤ 11) ∨ (16 ≤ k ∧ k ≤ 23) <;> simp [h]
  · rw [BitVec.getLsbD_of_ge _ _ (by omega), BitVec.getLsbD_of_ge _ _ (by omega), BitVec.getLsbD_of_ge _ _ (by omega)]
    simp

theorem BitVec_append_toNat {m n : Nat} (x : BitVec m) (y : BitVec n) : (x ++ y).toNat = x.toNat * 2 ^ n + y.toNat := by
  rw [BitVec.toNat_append, Nat.shiftLeft_eq, Nat.mul_comm, ← Nat.two_pow_add_eq_or_of_lt y.isLt]

/-- PARAM as a number (rule R29). -/
theorem paramWord_toNat (p : Params) :
    (paramWord p).toNat = wordBits p % 2 ^ 8 + 2 ^ 8 * (p.addrWidth % 2 ^ 8) + 2 ^ 16 * 16 := by
  unfold paramWord
  have h0 : (0 : BitVec 8).toNat = 0 := rfl
  have h16 : (16 : BitVec 8).toNat = 16 := rfl
  simp only [BitVec_append_toNat, BitVec.toNat_ofNat, h0, h16]
  omega

/-! ### The host's steps -/

theorem accessAdmitted_iff (size : AccessSize) (o : Nat) :
    accessAdmitted size o = true ↔ size = .word ∧ o % 4 = 0 ∧ o < 0x100 := by
  simp [accessAdmitted, and_assoc]

/-- An admitted write is the write of the register at its offset (rules R116, R181). -/
theorem hostRegWrite_word {o : Nat} (h4 : o % 4 = 0) (h : o < 0x100) (v : Word) (s : State) :
    hostRegWrite .word o v s = .next (s.writeReg (Reg.ofOffset o) v) := by
  rw [hostRegWrite, if_pos ((accessAdmitted_iff _ _).mpr ⟨rfl, h4, h⟩)]

/-- An admitted read is the read of the register at its offset (rules R117, R181). -/
theorem hostRegRead_word {o : Nat} (h4 : o % 4 = 0) (h : o < 0x100) (s : State) :
    hostRegRead .word o s = .next (s.readReg (Reg.ofOffset o)) := by
  rw [hostRegRead, if_pos ((accessAdmitted_iff _ _).mpr ⟨rfl, h4, h⟩)]

/-- A read while BUSY = 0 returns the register (rule R117). -/
theorem readReg_idle {s : State} (h : s.lat = none) (r : Reg) : s.readReg r = { s with rdata := s.regValue r } := by
  simp [State.readReg, State.busy, h]

/-- A CMD write while BUSY = 0 (rule R118), while BUSY = 1 (rule R119). -/
theorem writeCmd_idle {s : State} (h : s.lat = none) (v : Word) : s.writeReg .cmd v = s.accept v := by
  simp [State.writeReg, State.writeCmd, State.busy, h]

theorem writeCmd_busy {s : State} (h : s.lat ≠ none) (v : Word) : s.writeReg .cmd v = s.dropCmd := by
  have : s.lat.isSome = true := Option.isSome_iff_ne_none.mpr h
  simp [State.writeReg, State.writeCmd, State.busy, this]

/-- A register write never touches the parameters, memory, the cache or the model's own fields; a latched command stays. -/
theorem writeReg_keeps (s : State) (r : Reg) (v : Word) :
    (s.writeReg r v).params = s.params ∧ (s.writeReg r v).mem = s.mem ∧ (s.writeReg r v).life = s.life ∧
      (s.writeReg r v).nsym = s.nsym ∧ (s.writeReg r v).turns = s.turns ∧
      (s.lat ≠ none → (s.writeReg r v).lat = s.lat) := by
  cases r <;> try exact ⟨rfl, rfl, rfl, rfl, rfl, fun _ => rfl⟩
  show (s.writeCmd v).params = _ ∧ _
  unfold State.writeReg State.writeCmd State.busy
  cases h : s.lat <;> simp [h]

/-- A register read touches nothing but what the port returns and the count of free values (rule R117). -/
theorem readReg_keeps (s : State) (r : Reg) :
    s.readReg r = { s with rdata := (s.readReg r).rdata, fresh := (s.readReg r).fresh } := by
  unfold State.readReg
  split_ifs <;> rfl

/-- What a host step that is no reset keeps (rules R25, R55, R116, R117). -/
theorem hostStep_keeps {h : HostStep} {s t : State} (hr : h ≠ .reset) (ht : hostStep h s = .next t) :
    t.params = s.params ∧ t.life = s.life ∧ t.nsym = s.nsym ∧ t.turns = s.turns ∧ (s.lat ≠ none → t.lat = s.lat) := by
  cases h with
  | regWrite size o v =>
    simp only [hostStep, hostRegWrite] at ht
    split_ifs at ht
    cases ht
    obtain ⟨h1, -, h3, h4, h5, h6⟩ := writeReg_keeps s (Reg.ofOffset o) v
    exact ⟨h1, h3, h4, h5, h6⟩
  | regRead size o =>
    simp only [hostStep, hostRegRead] at ht
    split_ifs at ht
    cases ht
    rw [readReg_keeps]
    exact ⟨rfl, rfl, rfl, rfl, fun _ => rfl⟩
  | memWrite a b =>
    simp only [hostStep, hostMemWrite] at ht
    split_ifs at ht
    cases ht
    exact ⟨rfl, rfl, rfl, rfl, fun _ => rfl⟩
  | memRead a =>
    simp only [hostStep, hostMemRead] at ht
    split_ifs at ht <;> cases ht <;> exact ⟨rfl, rfl, rfl, rfl, fun _ => rfl⟩
  | reset => exact absurd rfl hr

/-- Memory after a host step: a byte of the space written, or free bytes of a reset, or unchanged. -/
theorem hostStep_mem {h : HostStep} {s t : State} (ht : hostStep h s = .next t) :
    t.mem = s.mem ∨ (∃ a b, a < dmaSize s.params ∧ t.mem = Memory.write s.mem a b) ∨
      ∃ keep a n k, t.mem = scramble keep (dmaSize s.params) s.mem a n k := by
  cases h with
  | regWrite size o v =>
    simp only [hostStep, hostRegWrite] at ht
    split_ifs at ht
    cases ht
    exact .inl (writeReg_keeps s (Reg.ofOffset o) v).2.1
  | regRead size o =>
    simp only [hostStep, hostRegRead] at ht
    split_ifs at ht
    cases ht
    rw [readReg_keeps]
    exact .inl rfl
  | memWrite a b =>
    simp only [hostStep, hostMemWrite] at ht
    split_ifs at ht with h1 h2
    cases ht
    exact .inr (.inl ⟨a, b, by omega, rfl⟩)
  | memRead a =>
    simp only [hostStep, hostMemRead] at ht
    split_ifs at ht <;> cases ht <;> exact .inl rfl
  | reset =>
    cases ht
    exact .inr (.inr ⟨_, _, _, _, rfl⟩)

/-- Everything a step can do (rules R20, R120): the Core's turn or the host's, on the state with that turn taken. -/
theorem step_cases (s : State) :
    (∃ rest, (s.turns = [] ∧ rest = [] ∨ s.turns = .core :: rest) ∧ step s = coreTurn { s with turns := rest }) ∨
    ∃ h rest, s.turns = .host h :: rest ∧ step s = hostStep h { s with turns := rest } := by
  unfold step
  rcases ht : s.turns with _ | ⟨_ | h, rest⟩
  · refine .inl ⟨[], .inl ⟨rfl, rfl⟩, ?_⟩
    have : ({ s with turns := [] } : State) = s := by rw [← ht]
    rw [this]
  · exact .inl ⟨rest, .inr rfl, rfl⟩
  · exact .inr ⟨h, rest, rfl, rfl⟩

/-- A step takes one turn from the list and lists no other (rule R124; log 2). -/
theorem step_turns {s t : State} (h : step s = .next t) : t.turns = s.turns.tail := by
  rcases step_cases s with ⟨rest, hrest, hs⟩ | ⟨x, rest, hrest, hs⟩
  · have hr : s.turns.tail = rest := by rcases hrest with ⟨a, b⟩ | a <;> simp_all
    rw [hs] at h
    rcases coreTurn_next h with ⟨-, rfl⟩ | ⟨l, -, -, rfl⟩
    · exact hr.symm
    · have := complete_frame { s with turns := rest } (resultOfWord { s with turns := rest } l)
      rw [hr]
      exact this.2.2.2.2.2.2.2.2.2.2.2.1
  · rw [hs] at h
    rw [hrest]
    by_cases hr : x = .reset
    · subst hr; cases h; rfl
    · exact (hostStep_keeps hr h).2.2.2.1

/-- Runs of several steps, one step at a time. -/
theorem run_next {k : Nat} {s t : State} (h : step s = .next t) :
    Host.Core.run Sys2Proof.core (k + 1) s = Host.Core.run Sys2Proof.core k t := by
  have g : ∀ (M : Host.Core) (k : Nat) (s t : M.State), M.step s = .next t → M.run (k + 1) s = M.run k t := by
    intro M k s t h
    rw [Host.Core.run, h]
  exact g Sys2Proof.core k s t h

theorem run_succ {k : Nat} {s t : State} (h : Host.Core.run Sys2Proof.core (k + 1) s = .next t) :
    ∃ u, step s = .next u ∧ Host.Core.run Sys2Proof.core k u = .next t := by
  have g : ∀ (M : Host.Core) (k : Nat) (s t : M.State), M.run (k + 1) s = .next t →
      ∃ u, M.step s = .next u ∧ M.run k u = .next t := by
    intro M k s t h
    rw [Host.Core.run] at h
    split at h
    · exact ⟨_, by assumption, h⟩
    · cases h
    · cases h
  exact g Sys2Proof.core k s t h

/-! ### Completion of a command -/

theorem emitStream_commit {p : Params} {l : Latch} {bits : Bits} {c : Option (Tree × CodeTable)} {r : CmdOk}
    (h : emitStream p l bits c = .ok r) : r.commit = c := by
  rw [(emitStream_ok h).2]
  rfl

/-- A command that is no ENCODE commits nothing, and neither does one in Ready (rule R25). -/
theorem resultOf_commit {i : Instr} {s : State} {l : Latch} {r : CmdOk} (h : resultOf i s l = .ok r) :
    r.commit = none ∨ (i = .encode ∧ s.life = .uninitialized ∧ l.n.toNat ≠ 0 ∧ ∃ tree,
      build (count (s.samples l)) = some tree ∧ r.commit = some (tree, derive tree)) := by
  cases i with
  | encode =>
    obtain ⟨-, h | ⟨hn, table, commit, hc, -, hr⟩⟩ := encodeCommand_ok h
    · exact .inl (by rw [h.2]; rfl)
    · rcases chooseTable_use hc with ⟨hl, tree, hb, -, rfl⟩ | ⟨tree, -, rfl, -⟩
      · exact .inr ⟨rfl, hl, hn, tree, hb, by rw [hr]; rfl⟩
      · exact .inl (by rw [hr]; rfl)
  | decode =>
    obtain ⟨-, ⟨-, -, h⟩ | ⟨-, tree, table, out, -, -, h⟩⟩ := decodeCommand_ok h <;> exact .inl (by rw [h]; rfl)
  | query =>
    simp only [resultOf, queryCommand] at h
    split at h
    · cases h
    · split at h <;> cases h
      exact .inl rfl

/-- Every output lies in the DMA space (rules R71, R75). -/
theorem resultOf_inRange {i : Instr} {s : State} {l : Latch} {r : CmdOk} (h : resultOf i s l = .ok r) :
    r.outAddr + r.outSize * r.out.length ≤ dmaSize s.params := by
  have hempty : CmdOk.empty.outAddr + CmdOk.empty.outSize * CmdOk.empty.out.length ≤ dmaSize s.params := Nat.zero_le _
  cases i with
  | encode =>
    obtain ⟨-, h | ⟨-, table, commit, -, hf, hr⟩⟩ := encodeCommand_ok h
    · rw [h.2]; exact hempty
    · have := hf.2.1
      simp only [hr, encodeOk, packWords_length]
      rwa [Nat.mul_comm (wordBytes s.params)]
  | decode =>
    obtain ⟨ha, ⟨-, -, h⟩ | ⟨-, tree, table, out, -, hd, h⟩⟩ := decodeCommand_ok h
    · rw [h]; exact hempty
    · have := ha.2.2.2.2.2.1
      simp only [h, decodeOk, List.length_map, decodeBits_ok_length hd]
      exact this
  | query =>
    simp only [resultOf, queryCommand] at h
    split at h
    · cases h
    · split at h <;> cases h
      exact hempty

end Sys2Proof.Machine
end

