-- ==== Sys2Proof/Tests/Slice0.lean ====
section
/-! SUPPORT. Tests whose expected results come from 95_test_vectors.md and the rules of spec/, and a witness for the
hypotheses of every statement. -/
namespace Sys2Proof.Tests
open Sys2Proof.Machine

/-! ### Helpers -/

/-- A latched command. -/
def cmd (op src dst n cap : Word) (bits : DWord) : Latch := ⟨op, src, dst, n, cap, bits⟩

/-- A state after reset but for the parameters, the lifecycle, memory and the command in flight. -/
def busyAt (p : Params) (life : Life) (mem : Memory) (l : Latch) : State :=
  { State.reset with
    params := p, life := life, mem := mem, lat := some l
    nsym := match life with | .uninitialized => 0 | .ready tree _ => BitVec.ofNat 17 tree.leafCount }

def p64 : Params := ⟨.w64, 32, none⟩
def p16 : Params := ⟨.w32, 16, none⟩

/-- The register window on the last sample of E1, on the first byte past E1's samples, on E1's output, and on D1's output. -/
def pOnInput : Params := ⟨.w32, 32, some 0x1008⟩
def pPastInput : Params := ⟨.w32, 32, some 0x100A⟩
def pOnOutput : Params := ⟨.w32, 32, some 0x1F04⟩
def pOnD1 : Params := ⟨.w32, 32, some 0x3009⟩

/-- Samples at 0x1000, at 0x1100. -/
def at1000 (xs : List Nat) : Memory := writeElems 2 [] 0x1000 xs
def at1100 (xs : List Nat) : Memory := writeElems 2 [] 0x1100 xs

/-- One word of 4 bytes at 0x2000. -/
def word2000 (v : Nat) : Memory := memWrite [] 0x2000 4 v

/-- The trees of the vectors B1, B3 and B4, node by node. -/
def treeB1 : Tree := .internal 2 5 (.leaf 1 9 2) (.leaf 0 5 3)
def treeB3 : Tree := .leaf 0 7 3
def treeB4 : Tree := .internal 6 8 (.leaf 0 0 4) (.internal 5 4 (.leaf 1 1 2) (.internal 4 2 (.leaf 2 2 1) (.leaf 3 3 1)))

def readyB1 : Life := .ready treeB1 (derive treeB1)
def readyB3 : Life := .ready treeB3 (derive treeB3)
def readyB4 : Life := .ready treeB4 (derive treeB4)

/-- The step answers a next state that passes the check. -/
def passes (o : StepResult) (check : State → Bool) : Bool :=
  match o with
  | .next t => check t
  | .fault _ => false
  | .refused _ => false

/-- The step is refused because a region covers the register window. -/
def refusedForWindow : StepResult → Bool
  | .next _ => false
  | .fault _ => false
  | .refused r => decide (r = .windowInRegion)

/-- n bytes from an address on. -/
def bytes (m : Memory) (a n : Nat) : List Byte := (List.range n).map (fun i => Memory.read m (a + i))

/-! ### Well-formedness (rules R7, R8, R87) -/

theorem test_wf_addr_width_too_small : Params.wf ⟨.w32, 15, none⟩ = false := by decide
theorem test_wf_addr_width_too_large : Params.wf ⟨.w64, 33, none⟩ = false := by decide
theorem test_wf_bounds : Params.wf ⟨.w32, 16, none⟩ = true ∧ Params.wf ⟨.w64, 32, some 0x4000⟩ = true := by decide

/-- Every command is well formed: a command word has no operand field (rule R87). -/
theorem test_wf_commands : Instr.wf .encode = true ∧ Instr.wf .decode = true ∧ Instr.wf .query = true := by decide

/-! ### Decoding, each word written out from rule R88: CMD[31:4] = 0 above OP -/

theorem test_word_encode : decode 0b00000000000000000000000000000001#32 = .command .encode := by decide
theorem test_word_decode : decode 0b00000000000000000000000000000010#32 = .command .decode := by decide
theorem test_word_query : decode 0b00000000000000000000000000000011#32 = .command .query := by decide

/-- The vectors C1 to C4 and a reserved bit just above OP. -/
theorem test_word_illegal : decode 0b00000000000000000000000000000000#32 = .illegal .reservedOp ∧
    decode 0b00000000000000000000000000001111#32 = .illegal .reservedOp ∧
    decode 0b00000000000000000000000000010001#32 = .illegal .reservedBits ∧
    decode 0b10000000000000000000000000000001#32 = .illegal .reservedBits := by decide

theorem test_table_rows : decodeTableWord 32 1 = some .encode ∧ decodeTableWord 32 2 = some .decode ∧
    decodeTableWord 32 3 = some .query ∧ decodeTableWord 32 16 = none := by decide

/-! ### One step of each command -/

/-- Vector E1: the priming ENCODE of [5, 9, 5, 5, 9]. -/
theorem test_encode_primes :
    passes (step (busyAt .default .uninitialized (at1000 [5, 9, 5, 5, 9]) (cmd 1 0x1000 0x2000 5 1 0)))
      (fun t => decide (t.statusWord = 0x00000006) && decide (t.resBitcnt = 5) && decide (t.nsym = 2) &&
        decide (t.life = readyB1) && decide (bytes t.mem 0x2000 5 = [0x0D, 0, 0, 0, 0])) = true := by decide

/-- Vector E14: a stream of 36 bits in two words, with the cached table B4. -/
theorem test_encode_crosses_a_word :
    passes (step (busyAt .default readyB4 (at1100 (List.replicate 12 3)) (cmd 1 0x1100 0x3000 12 2 0)))
      (fun t => decide (t.statusWord = 0x00000006) && decide (t.resBitcnt = 36) && decide (t.resWordcnt = 2) &&
        decide (bytes t.mem 0x3000 8 = [0xFF, 0xFF, 0xFF, 0xFF, 0x0F, 0, 0, 0])) = true := by decide

/-- Vector D2: the bits past B are not read. -/
theorem test_decode_ignores_high_bits :
    passes (step (busyAt .default readyB1 (word2000 0xFFFFFFED) (cmd 2 0x2000 0x3000 5 0 5)))
      (fun t => decide (t.statusWord = 0x00000006) && decide (t.resSymcnt = 5) &&
        decide (bytes t.mem 0x3000 10 = [5, 0, 9, 0, 5, 0, 5, 0, 9, 0])) = true := by decide

/-- Vector D8: the stream ends inside a code. -/
theorem test_decode_mid_code :
    passes (step (busyAt .default readyB4 (word2000 3) (cmd 2 0x2000 0x3000 1 0 2)))
      (fun t => decide (t.statusWord = 0x00010306) && decide (t.errinfo = 2)) = true := by decide

/-- Vector Q4: bits 31:16 of ARG_N are ignored. -/
theorem test_query_low_half :
    passes (step (busyAt .default readyB4 [] (cmd 3 0 0 0x00010003 0 0)))
      (fun t => decide (t.statusWord = 0x00000006) && decide (t.resCodelen = 3) && decide (t.resCode = 7)) = true := by decide

/-- Vector Q3: a symbol without a code. -/
theorem test_query_unknown :
    passes (step (busyAt .default readyB4 [] (cmd 3 0 0 5 0 0)))
      (fun t => decide (t.statusWord = 0x00000206) && decide (t.errinfo = 0x0000000500000000)) = true := by decide

/-! ### The tree and the ports -/

/-- Vector B10: the nodes of rule R57, with their tie-breaks. -/
theorem test_build_ties : (build (count ([1, 2, 3, 4] ++ List.replicate 12 3))).map Tree.arena =
    some [(0, .leaf 1 1), (1, .leaf 2 1), (2, .leaf 3 13), (3, .leaf 4 1), (4, .internal 2 0 1), (5, .internal 3 3 4),
      (6, .internal 16 5 2)] := by decide

/-- Vector C5: clearing DONE keeps ERR and DETAIL. -/
theorem test_status_write_keeps_err :
    passes (hostRegWrite .word 0x0C 0x2 { State.reset with done := true, err := some .reservedOp })
      (fun t => decide (t.statusWord = 0x00010500)) = true := by decide

/-- The host's reading of the opcode table: each row's word is the first one to run after reset. -/
theorem test_fetch_word : passes (step (State.reset.withFetchWord 32 1)) (fun t => decide (t.err = some .nullSrc)) = true ∧
    passes (step (State.reset.withFetchWord 32 2)) (fun t => decide (t.err = some .nullSrc)) = true ∧
    passes (step (State.reset.withFetchWord 32 3)) (fun t => decide (t.err = some .uninit)) = true := by decide

/-! ### Witnesses: data that meet the hypotheses of each statement, each clause at a boundary -/

/-- E1, E13 and their like in flight, and the DECODE of D1. -/
def sE1 : State := busyAt .default .uninitialized (at1000 [5, 9, 5, 5, 9]) (cmd 1 0x1000 0x2000 5 1 0)
def lE1 : Latch := cmd 1 0x1000 0x2000 5 1 0
def sE14 : State := busyAt .default readyB4 (at1100 (List.replicate 12 3)) (cmd 1 0x1100 0x3000 12 2 0)
def lE14 : Latch := cmd 1 0x1100 0x3000 12 2 0
def sD1 : State := busyAt .default readyB1 (word2000 0xD) (cmd 2 0x2000 0x3000 5 0 5)
def lD1 : Latch := cmd 2 0x2000 0x3000 5 0 5
def sQ2 : State := busyAt .default readyB4 [] (cmd 3 0 0 2 0 0)
def lQ2 : Latch := cmd 3 0 0 2 0 0

theorem sE1_inv : sE1.Inv := by
  unfold State.Inv State.CacheInv
  refine ⟨by decide, by decide, by decide, rfl⟩

theorem sE14_inv : sE14.Inv := by
  unfold State.Inv State.CacheInv
  refine ⟨by decide, by decide, by decide, ?_⟩
  show treeB4.symbols.Nodup ∧ treeB4.weighted = true ∧ treeB4.freq < 2 ^ 32 ∧ derive treeB4 = derive treeB4 ∧
    sE14.nsym = BitVec.ofNat 17 treeB4.leafCount
  decide

theorem sD1_inv : sD1.Inv := by
  unfold State.Inv State.CacheInv
  refine ⟨by decide, by decide, by decide, ?_⟩
  show treeB1.symbols.Nodup ∧ treeB1.weighted = true ∧ treeB1.freq < 2 ^ 32 ∧ derive treeB1 = derive treeB1 ∧
    sD1.nsym = BitVec.ofNat 17 treeB1.leafCount
  decide

theorem sQ2_inv : sQ2.Inv := by
  unfold State.Inv State.CacheInv
  refine ⟨by decide, by decide, by decide, ?_⟩
  show treeB4.symbols.Nodup ∧ treeB4.weighted = true ∧ treeB4.freq < 2 ^ 32 ∧ derive treeB4 = derive treeB4 ∧
    sQ2.nsym = BitVec.ofNat 17 treeB4.leafCount
  decide

/-- Rule R88's rows at the words where they meet. -/
theorem test_witness_OpcodeMapIsTotal :
    (0x10 : Word).toNat / 16 ≠ 0 ∧ (0xFFFFFFFF : Word).toNat / 16 ≠ 0 ∧
    ((1 : Word).toNat / 16 = 0 ∧ (1 : Word).toNat % 16 = 1) ∧ ((2 : Word).toNat / 16 = 0 ∧ (2 : Word).toNat % 16 = 2) ∧
    ((3 : Word).toNat / 16 = 0 ∧ (3 : Word).toNat % 16 = 3) ∧ ((0 : Word).toNat / 16 = 0 ∧ (0 : Word).toNat % 16 = 0) ∧
    ((4 : Word).toNat / 16 = 0 ∧ 4 ≤ (4 : Word).toNat % 16) ∧ ((15 : Word).toNat / 16 = 0 ∧ 4 ≤ (15 : Word).toNat % 16) := by
  decide

theorem test_witness_DecodeInvertsEncode : ∀ i ∈ [Instr.encode, .decode, .query], i.wf = true := by decide

theorem test_witness_StepRunsLatchedCommand :
    sE1.lat = some lE1 ∧ decode lE1.op = .command .encode ∧ sE1.turns = [] ∧
    (State.reset.withFetchWord 32 3).lat = some (cmd 3 0 0 0 0 0) ∧
    (State.reset.withFetchWord 32 3).turns = .core :: [] ∧ decode (cmd 3 0 0 0 0 0).op = .command .query := by decide

theorem test_witness_StepTakesListedTurn :
    ({ State.reset with turns := [.host .reset] } : State).turns = .host .reset :: [] ∧
    State.reset.lat = none ∧ State.reset.turns = [] ∧
    ({ State.reset with turns := [.core, .host .reset] } : State).turns = .core :: [.host .reset] ∧
    ({ State.reset with turns := [.core, .host .reset] } : State).lat = none := by decide

/-- The words 0, 4, 0x10 and 0xFFFFFFFF in flight. -/
theorem test_witness_IllegalWordCompletes : ∀ v ∈ [0, 4, 0x10, 0xFFFFFFFF],
    (busyAt .default .uninitialized [] (cmd (BitVec.ofNat 32 v) 0 0 0 0 0)).lat = some (cmd (BitVec.ofNat 32 v) 0 0 0 0 0) ∧
    BitVec.ofNat 32 v ≠ 1 ∧ BitVec.ofNat 32 v ≠ 2 ∧ BitVec.ofNat 32 v ≠ 3 ∧
    (busyAt .default .uninitialized [] (cmd (BitVec.ofNat 32 v) 0 0 0 0 0)).turns = [] ∧
    (State.reset.withFetchWord 32 v).lat = some (cmd (BitVec.ofNat 32 v) 0 0 0 0 0) ∧
    (State.reset.withFetchWord 32 v).turns = .core :: [] := by decide

theorem test_witness_CmdWriteAccepts : State.reset.lat = none := by decide

theorem test_witness_CmdWriteWhileBusyIsDropped : sE1.lat = some lE1 ∧ ∃ t, coreTurn sE1 = .next t :=
  ⟨by decide, _, rfl⟩

theorem test_witness_ArgWritesMissTheCommandInFlight :
    sE1.lat = some lE1 ∧ (0x14 ∈ [0x14, 0x18, 0x1C, 0x20, 0x24, 0x28]) ∧ (0x28 ∈ [0x14, 0x18, 0x1C, 0x20, 0x24, 0x28]) ∧
    ∃ t, coreTurn sE1 = .next t := ⟨by decide, by decide, by decide, _, rfl⟩

theorem test_witness_LatchHeldUntilCompletion :
    sE1.lat = some lE1 ∧ HostStep.regWrite .word 0x10 3 ≠ .reset ∧ ∃ t, hostStep (.regWrite .word 0x10 3) sE1 = .next t :=
  ⟨by decide, by decide, _, rfl⟩

/-- Idle, busy, and the first and last offsets that take no write. -/
theorem test_witness_RegisterWriteEffects : State.reset.lat = none ∧ sE1.lat ≠ none ∧
    ∀ o ∈ [0x00, 0x04, 0x2C, 0x54, 0xFC], o % 4 = 0 ∧ o < 0x100 ∧ (o < 0x08 ∨ 0x28 < o) := by decide

theorem test_witness_IdleReadsReturnRegisters : State.reset.lat = none ∧
    ∀ o ∈ [0x54, 0xFC], o % 4 = 0 ∧ 0x54 ≤ o ∧ o < 0x100 := by decide

/-- The open registers, the fixed and the open STATUS bits, and the registers around the open ones. -/
theorem test_witness_BusyReadsAreFree : sE1.lat = some lE1 ∧
    (∀ o ∈ [0x2C, 0x50], o % 4 = 0 ∧ 0x2C ≤ o ∧ o ≤ 0x50) ∧
    (∀ k ∈ [4, 7, 12, 15, 24, 31], (4 ≤ k ∧ k ≤ 7) ∨ (12 ≤ k ∧ k ≤ 15) ∨ 24 ≤ k) ∧
    (∀ k ∈ [2, 8, 11, 16, 23], k = 2 ∨ (8 ≤ k ∧ k ≤ 11) ∨ (16 ≤ k ∧ k ≤ 23)) ∧
    (∀ o ∈ [0x00, 0x08, 0x10, 0x28, 0x54, 0xFC], o % 4 = 0 ∧ o < 0x100 ∧ o ≠ 0x0C ∧ (o < 0x2C ∨ 0x50 < o)) := by decide

theorem test_witness_ParamWordFields :
    ∀ p ∈ [(⟨.w32, 16, none⟩ : Params), ⟨.w32, 32, none⟩, ⟨.w64, 16, none⟩, ⟨.w64, 32, some 0x4000⟩], p.wf = true := by decide

theorem test_witness_AdmittedAccesses :
    (∀ o ∈ [0x00, 0xFC], AccessSize.word = .word ∧ o % 4 = 0 ∧ o ≤ 0xFC) ∧
    (∀ x ∈ [(AccessSize.word, 0x100), (.word, 0x02), (.byte, 0x00), (.half, 0x04), (.double, 0x08)],
      ¬(x.1 = .word ∧ x.2 % 4 = 0 ∧ x.2 ≤ 0xFC)) := by decide

theorem test_witness_IrqFollowsDoneAndEnable : sE1.lat ≠ none ∧ (2 : Word).getLsbD 1 = true ∧
    (0 : Word).getLsbD 0 = false ∧ (∃ t, coreTurn sE1 = .next t) ∧ ∃ t, hostRegWrite .word 0x10 1 sE1 = .next t :=
  ⟨by decide, by decide, by decide, ⟨_, rfl⟩, _, rfl⟩

theorem test_witness_ResetValues : Reg.ctrl ≠ .id ∧ Reg.ctrl ≠ .param ∧ sE1.params.wf = true ∧
    ∃ t, hostStep .reset sE1 = .next t := ⟨by decide, by decide, by decide, _, rfl⟩

theorem test_witness_ResetMakesANewCodec : Reg.status ≠ .param ∧ State.reset.lat = none ∧
    sE1.lat = some lE1 ∧ (outputRegion sE1.params sE1.life sE1.mem lE1).len = 4 ∧
    ∃ t, hostStep .reset State.reset = .next t ∧ t.turns = [] :=
  ⟨by decide, by decide, by decide, by decide, _, rfl, by decide⟩

/-- Bytes just outside the output region of E1, and a byte of its input region. -/
theorem test_witness_ResetMidCommandTouchesOnlyOutput : sE1.lat = some lE1 ∧
    (outputRegion sE1.params sE1.life sE1.mem lE1).holds 0x1FFF = false ∧
    (outputRegion sE1.params sE1.life sE1.mem lE1).holds 0x2004 = false ∧
    (inputRegion sE1.params lE1).holds 0x1009 = true := by decide

/-- A step in Ready, and the step that leaves Uninitialized. -/
theorem test_witness_LifecycleTransitions :
    (∃ t, step sE14 = .next t ∧ sE14.life ≠ .uninitialized ∧ ∀ rest, sE14.turns ≠ .host .reset :: rest) ∧
    ∃ t, step sE1 = .next t ∧ sE1.life = .uninitialized ∧ t.life ≠ .uninitialized ∧
      ∀ rest, sE1.turns ≠ .host .reset :: rest :=
  ⟨⟨_, rfl, by decide, fun _ h => by cases h⟩, _, rfl, by decide, by decide, fun _ h => by cases h⟩

theorem test_witness_TableStableUntilReset : sE14.life ≠ .uninitialized ∧ .host .reset ∉ sE14.turns ∧
    ∃ t, Host.Core.run Sys2Proof.core 2 sE14 = .next t :=
  ⟨by decide, by decide, _, rfl⟩

theorem test_witness_StepKeepsInvariant : sE1.Inv ∧ ∃ t, step sE1 = .next t := ⟨sE1_inv, _, rfl⟩

/-- E1 in flight with the register window at a place. -/
def sE1At (p : Params) : State := busyAt p .uninitialized (at1000 [5, 9, 5, 5, 9]) lE1

/-- D1 in flight with the register window at a place. -/
def sD1At (p : Params) : State := busyAt p readyB1 (word2000 0xD) lD1

/-- E14 in flight with the register window on the last byte of its output. -/
def sE14Win : State := busyAt ⟨.w32, 32, some 0x3007⟩ readyB4 (at1100 (List.replicate 12 3)) lE14

/-- Admitted with no window, with it just past the samples, and ending just before the output; refused on the last sample and
on the output (rule R63, S11), the last byte of D1's samples being enough; a QUERY, an illegal word, and an argument check that
fails, which answers first. -/
theorem test_witness_EveryCommandCompletes : sE1.lat = some lE1 ∧ wordAdmitted sE1 lE1 = true ∧ sE1.params.regBase = none ∧
    (sE1At pPastInput).lat = some lE1 ∧ wordAdmitted (sE1At pPastInput) lE1 = true ∧
    wordAdmitted (sE1At ⟨.w32, 32, some 0x1F00⟩) lE1 = true ∧
    (sE1At pOnInput).lat = some lE1 ∧ wordAdmitted (sE1At pOnInput) lE1 = false ∧
    wordAdmitted (sE1At pOnOutput) lE1 = false ∧ commandAdmitted .decode (sD1At pOnD1) lD1 = false ∧
    commandAdmitted .query (sE1At pOnInput) lE1 = true ∧ decode (cmd 0 0 0 0 0 0).op = .illegal .reservedOp ∧
    refusedForWindow (step (sE1At pOnInput)) = true ∧ refusedForWindow (step (sD1At pOnD1)) = true ∧
    passes (step (busyAt pOnInput .uninitialized [] (cmd 1 0x1000 0x2002 5 1 0)))
      (fun t => decide (t.err = some .misalignedDst)) = true := by decide

/-- A command that fails: QUERY in Uninitialized. -/
def sFail : State := busyAt .default .uninitialized [] (cmd 3 0 0 2 0 0)

theorem test_witness_FailedCommandChangesNothing : sFail.lat ≠ none ∧ ∃ t, coreTurn sFail = .next t ∧ t.err ≠ none :=
  ⟨by decide, _, rfl, by decide⟩

/-- A PRECONDITION_VIOLATION and a success. -/
theorem test_witness_ErrorResultsAreZero :
    (sFail.lat ≠ none ∧ ∃ t, coreTurn sFail = .next t ∧ t.err ≠ none ∧ t.errField = 1) ∧
    sQ2.lat ≠ none ∧ ∃ t, coreTurn sQ2 = .next t ∧ t.errField = 0 :=
  ⟨⟨by decide, _, rfl, by decide, by decide⟩, by decide, _, rfl, by decide⟩

theorem test_witness_PollingHostSeesCompletion :
    ({ sE1 with turns := scriptWait 2 } : State).lat = some lE1 ∧
    wordAdmitted { sE1 with turns := scriptWait 2 } lE1 = true ∧
    ({ sE1 with turns := scriptWait 2 } : State).turns = scriptWait 2 := by decide

/-- Turns of each kind that have a step, each beside one that has none. -/
theorem test_witness_StepStopsOnlyOnBrokenDuty : sE1.turns = [] ∧
    turnAdmitted sE1 (.host (.memWrite 0x100A 1)) = true ∧ turnAdmitted sE1 (.host (.memWrite 0x1009 1)) = false ∧
    turnAdmitted sE1 (.host (.regRead .word 0xFC)) = true ∧ turnAdmitted sE1 (.host (.regRead .word 0x100)) = false ∧
    turnAdmitted sE1 (.host (.memRead 0xFFFFFFFF)) = true ∧ turnAdmitted sE1 (.host (.memRead 0x100000000)) = false ∧
    turnAdmitted (sE1At pOnInput) (.host (.memRead 0x1007)) = true ∧
    turnAdmitted (sE1At pOnInput) (.host (.memRead 0x1107)) = false ∧
    turnAdmitted (sE1At pOnInput) (.host (.memRead 0x1108)) = true ∧
    turnAdmitted sE1 .core = true ∧ turnAdmitted (sE1At pOnInput) .core = false ∧
    turnAdmitted sE1 (.host (.memRead 0x2000)) = true := by decide

/-- The last address of the space and the first outside it; the first and last byte of the window and their neighbours. -/
theorem test_witness_HostMemoryIsPlain : State.reset.lat = none ∧ 0xFFFFFFFF < dmaSize State.reset.params ∧
    WindowClear State.reset.params 0xFFFFFFFF 1 ∧ dmaSize State.reset.params ≤ 0x100000000 ∧
    WindowClear pOnInput 0x1007 1 ∧ ¬ WindowClear pOnInput 0x1008 1 ∧ ¬ WindowClear pOnInput 0x1107 1 ∧
    WindowClear pOnInput 0x1108 1 := by decide

/-- The last byte of E1's input, the first and last of its output, and their neighbours. -/
theorem test_witness_HostAccessWhileBusy : sE1.lat = some lE1 ∧ 0x2004 < dmaSize sE1.params ∧
    WindowClear sE1.params 0x2004 1 ∧ WindowClear pPastInput 0x1009 1 ∧
    (inputRegion sE1.params lE1).holds 0x1009 = true ∧
    (outputRegion sE1.params sE1.life sE1.mem lE1).holds 0x2000 = true ∧
    (outputRegion sE1.params sE1.life sE1.mem lE1).holds 0x2003 = true ∧
    (inputRegion sE1.params lE1).holds 0x100A = false ∧
    (outputRegion sE1.params sE1.life sE1.mem lE1).holds 0x100A = false ∧
    (outputRegion sE1.params sE1.life sE1.mem lE1).holds 0x2004 = false := by decide

theorem test_witness_LeavesAscendWithCounts :
    (leavesFrom 0 (count [5, 9, 5, 5, 9]))[0]? = some (.leaf 0 5 3) ∧
    (leavesFrom 0 (count [5, 9, 5, 5, 9]))[1]? = some (.leaf 1 9 2) ∧ (9 : Symbol) ∈ [(5 : Symbol), 9, 5, 5, 9] := by decide

theorem test_witness_BuildTurnTakesLeastTwo :
    ((Tree.leaf 0 1 1 :: .leaf 1 2 1 :: [.leaf 2 3 1]).map Tree.idx).Nodup := by decide

theorem test_witness_PrimedTreeShape : sE1.lat = some lE1 ∧ sE1.life = .uninitialized ∧ 1 ≤ lE1.n.toNat ∧
    ∃ t, exec .encode sE1 = .next t ∧ t.err = none := ⟨by decide, by decide, by decide, _, rfl, by decide⟩

theorem test_witness_CodesArePrefixFree : sE14.Inv ∧ sE14.life = .ready treeB4 (derive treeB4) ∧
    CodeTable.code (derive treeB4) 2 = some [true, true, false] ∧
    CodeTable.code (derive treeB4) 3 = some [true, true, true] ∧ (2 : Symbol) ≠ 3 := ⟨sE14_inv, by decide⟩

theorem test_witness_CodesAreComplete : sE14.Inv ∧ sE14.life = .ready treeB4 (derive treeB4) ∧ 2 ≤ treeB4.leafCount ∧
    ∀ e ∈ derive treeB4, e.2.length ≤ 3 := ⟨sE14_inv, by decide⟩

/-- N = 2 and N = 4, and one leaf. -/
theorem test_witness_CodeLengths : sD1.Inv ∧ sD1.life = .ready treeB1 (derive treeB1) ∧ 2 ≤ treeB1.leafCount ∧
    CodeTable.code (derive treeB1) 5 = some [true] ∧ treeB3.leafCount = 1 ∧
    CodeTable.code (derive treeB3) 7 = some [] ∧
    (Tree.internal 2 5 (.leaf 1 9 2) (.leaf 0 5 3)).symbols.Nodup ∧ (9 : Symbol) ∈ (Tree.leaf 1 9 2).symbols ∧
    (5 : Symbol) ∈ (Tree.leaf 0 5 3).symbols := ⟨sD1_inv, by decide⟩

/-- The vectors E3 to E12 and E17: each check of ENCODE in turn. -/
theorem test_witness_EncodeReportsFirstError :
    (∀ x ∈ [(Params.default, cmd 1 0 0 0 0 0, some CmdError.nullSrc), (.default, cmd 1 0x1000 0 1 1 0, some .nullDst),
        (.default, cmd 1 0x1001 0x2000 1 1 0, some .misalignedSrc),
        (.default, cmd 1 0x1000 0x2002 1 1 0, some .misalignedDst), (p64, cmd 1 0x1000 0x2004 1 1 0, some .misalignedDst),
        (.default, cmd 1 0xFFFFFFFE 0x2000 2 1 0, some .rangeSrc), (.default, cmd 1 0xFFFFFFFE 0x2000 1 1 0, none),
        (.default, cmd 1 0x1000 0x2000 0 0 0, none), (.default, cmd 1 0x1000 0x2000 5 0 0, some .capacity),
        (.default, cmd 1 0x1000 0x1008 5 1 0, some .overlap), (.default, cmd 1 0x1000 0x100C 5 1 0, none),
        (.default, cmd 1 0x1000 0xFFFFFFFC 5 1 0, none), (p16, cmd 1 0x1000 0x10000 5 1 0, some .rangeDst)],
      passes (exec .encode (busyAt x.1 .uninitialized (at1000 [5, 9, 5, 5, 9]) x.2.1))
        (fun t => decide (t.err = x.2.2)) = true) ∧
    passes (exec .encode (busyAt .default readyB4 (at1000 [1, 4]) (cmd 1 0x1000 0x3000 2 4 0)))
      (fun t => decide (t.err = some .unknownSymbol)) = true ∧
    commandAdmitted .encode sE1 lE1 = true ∧ ¬ EncodeArgsOk pOnInput (cmd 1 0x1000 0x2002 5 1 0) ∧
    (EncodeArgsOk pOnInput lE1 ∧ ¬ WindowClear pOnInput lE1.src.toNat (2 * lE1.n.toNat)) ∧
    WindowClear pOnOutput lE1.src.toNat (2 * lE1.n.toNat) ∧ commandAdmitted .encode (sE1At pOnOutput) lE1 = false := by decide

theorem test_witness_EncodeOfNothingSucceeds :
    (busyAt .default .uninitialized [] (cmd 1 0x1000 0x2000 0 0 0)).lat = some (cmd 1 0x1000 0x2000 0 0 0) ∧
    EncodeArgsOk .default (cmd 1 0x1000 0x2000 0 0 0) ∧ (cmd 1 0x1000 0x2000 0 0 0).n = 0 := by decide

theorem test_witness_PrimingEncodeCompletes : sE1.lat = some lE1 ∧ sE1.life = .uninitialized ∧
    EncodeArgsOk sE1.params lE1 ∧ lE1.n ≠ 0 ∧
    EncodeFits sE1.params lE1 (codesOf (derive treeB1) (sE1.samples lE1)).length ∧
    EncodeClear sE1.params lE1 (codesOf (derive treeB1) (sE1.samples lE1)).length ∧
    (sE1At pOnOutput).lat = some lE1 ∧ (sE1At pOnOutput).life = .uninitialized ∧ EncodeArgsOk pOnOutput lE1 ∧
    EncodeFits pOnOutput lE1 (codesOf (derive treeB1) ((sE1At pOnOutput).samples lE1)).length ∧
    ¬ EncodeClear pOnOutput lE1 (codesOf (derive treeB1) ((sE1At pOnOutput).samples lE1)).length := by decide

theorem test_witness_ReadyEncodeCompletes : sE14.lat = some lE14 ∧ sE14.life = .ready treeB4 (derive treeB4) ∧
    EncodeArgsOk sE14.params lE14 ∧ lE14.n ≠ 0 ∧ (∀ x ∈ sE14.samples lE14, ∃ c, CodeTable.code (derive treeB4) x = some c) ∧
    EncodeFits sE14.params lE14 (codesOf (derive treeB4) (sE14.samples lE14)).length ∧
    EncodeClear sE14.params lE14 (codesOf (derive treeB4) (sE14.samples lE14)).length ∧
    (sE14Win.samples lE14 = sE14.samples lE14 ∧ sE14Win.lat = sE14.lat ∧ sE14Win.life = sE14.life ∧
      EncodeArgsOk sE14Win.params lE14 ∧
      EncodeFits sE14Win.params lE14 (codesOf (derive treeB4) (sE14Win.samples lE14)).length ∧
      ¬ EncodeClear sE14Win.params lE14 (codesOf (derive treeB4) (sE14Win.samples lE14)).length) :=
  ⟨by decide, by decide, by decide, by decide, fun x hx => by
    have : x = 3 := List.eq_of_mem_replicate ((by decide : sE14.samples lE14 = List.replicate 12 3) ▸ hx)
    exact ⟨[true, true, true], by rw [this]; decide⟩, by decide, by decide, by decide⟩

/-- Vector E17 with table B4: 4 at index 1 has no code, 1 before it has one. -/
theorem test_witness_ReadyEncodeNamesFirstAbsent :
    (busyAt .default readyB4 (at1000 [1, 4]) (cmd 1 0x1000 0x3000 2 4 0)).lat = some (cmd 1 0x1000 0x3000 2 4 0) ∧
    EncodeArgsOk .default (cmd 1 0x1000 0x3000 2 4 0) ∧
    ((busyAt .default readyB4 (at1000 [1, 4]) (cmd 1 0x1000 0x3000 2 4 0)).samples (cmd 1 0x1000 0x3000 2 4 0))[1]? = some 4 ∧
    CodeTable.code (derive treeB4) 4 = none ∧
    ((busyAt .default readyB4 (at1000 [1, 4]) (cmd 1 0x1000 0x3000 2 4 0)).samples (cmd 1 0x1000 0x3000 2 4 0))[0]? = some 1 ∧
    CodeTable.code (derive treeB4) 1 = some [true, false] ∧ WindowClear .default 0x1000 4 := by decide

/-- Vector E12, dst = src and cap = 0: the priming form and the form in Ready. -/
theorem test_witness_OneSymbolEncodeCompletes : ∀ life,
    (busyAt .default life (at1000 [7, 7, 7]) (cmd 1 0x1000 0x1000 3 0 0)).lat = some (cmd 1 0x1000 0x1000 3 0 0) ∧
    EncodeArgsOk .default (cmd 1 0x1000 0x1000 3 0 0) ∧ (cmd 1 0x1000 0x1000 3 0 0).dst.toNat ≤ dmaSize .default ∧
    (cmd 1 0x1000 0x1000 3 0 0).n ≠ 0 ∧
    (∀ y ∈ (busyAt .default life (at1000 [7, 7, 7]) (cmd 1 0x1000 0x1000 3 0 0)).samples (cmd 1 0x1000 0x1000 3 0 0), y = 7) ∧
    readyB3 = .ready treeB3 [((7 : Symbol).toNat, [])] ∧ WindowClear .default 0x1000 6 := fun life =>
  ⟨rfl, by decide, by decide, by decide, fun y hy =>
    List.eq_of_mem_replicate (n := 3) ((by decide : readSamples (at1000 [7, 7, 7]) 0x1000 3 = List.replicate 3 7) ▸ hy),
    by decide, by decide⟩

theorem test_witness_EncodeCountsBits : sE1.lat = some lE1 ∧ lE1.n ≠ 0 ∧ ∃ t, exec .encode sE1 = .next t ∧ t.err = none :=
  ⟨by decide, by decide, _, rfl, by decide⟩

/-- The last bit of E14's last word. -/
theorem test_witness_EncodePacksTheStream : sE14.lat = some lE14 ∧ lE14.n ≠ 0 ∧
    ∃ t, exec .encode sE14 = .next t ∧ t.err = none ∧ 1 < t.resWordcnt.toNat ∧ 31 < wordBits sE14.params :=
  ⟨by decide, by decide, _, rfl, by decide, by decide, by decide⟩

/-- The last bit of E14's stream. -/
theorem test_witness_PackedBytesAreTheStream : sE14.lat = some lE14 ∧ lE14.n ≠ 0 ∧
    ∃ t, exec .encode sE14 = .next t ∧ t.err = none ∧ 35 < t.resBitcnt.toNat :=
  ⟨by decide, by decide, _, rfl, by decide, by decide⟩

theorem test_witness_EncodeMemoryFrame : sE1.lat = some lE1 ∧ ∃ t, exec .encode sE1 = .next t ∧
    ∀ a ∈ [0x1FFF, 0x2004], ¬(lE1.dst.toNat ≤ a ∧ a < lE1.dst.toNat + t.resWordcnt.toNat * wordBytes sE1.params) :=
  ⟨by decide, _, rfl, by decide⟩

/-- The vectors D3 to D19: each check of DECODE in turn. -/
theorem test_witness_DecodeReportsFirstError :
    (DecodeArgsOk pOnD1 lD1 ∧ ¬ DecodeClear pOnD1 lD1) ∧ DecodeClear .default lD1 ∧
    ¬ DecodeArgsOk pOnD1 (cmd 2 0x2000 0x3001 5 0 5) ∧
    ∀ x ∈ [(Life.uninitialized, cmd 2 0x2000 0x3000 0 0 0, (none : Option CmdError)),
        (.uninitialized, cmd 2 0 0x3000 0 0 0, some .nullSrc), (.uninitialized, cmd 2 0x2000 0 0 0 0, some .nullDst),
        (.uninitialized, cmd 2 0x2000 0x3000 5 0 5, some .uninit), (readyB1, cmd 2 0x2002 0x3000 5 0 5, some .misalignedSrc),
        (readyB1, cmd 2 0x2000 0x3001 5 0 5, some .misalignedDst), (readyB1, cmd 2 0xFFFFFFFC 0x3000 1 0 33, some .rangeSrc),
        (readyB1, cmd 2 0x2000 0xFFFFFFFA 5 0 5, some .rangeDst), (readyB1, cmd 2 0x2000 0x2002 5 0 5, some .overlap),
        (readyB1, cmd 2 0x2000 0x3000 5 0 5, none), (readyB1, cmd 2 0x2000 0x3000 4 0 5, some .leftoverBits),
        (readyB1, cmd 2 0x2000 0x3000 6 0 5, some .shortStream)],
      passes (exec .decode (busyAt .default x.1 (word2000 0xD) x.2.1)) (fun t => decide (t.err = x.2.2)) = true := by decide

/-- E = 0 with B = 0, and with B > 0 in either lifecycle state (vectors D3, D5, D6). -/
theorem test_witness_DecodeOfNothing : ∀ v ∈ [0, 3], ∀ life ∈ [Life.uninitialized, readyB4],
    (busyAt .default life [] (cmd 2 0x2000 0x3000 0 0 (BitVec.ofNat 64 v))).lat =
      some (cmd 2 0x2000 0x3000 0 0 (BitVec.ofNat 64 v)) ∧
    DecodeArgsOk .default (cmd 2 0x2000 0x3000 0 0 (BitVec.ofNat 64 v)) ∧
    DecodeClear .default (cmd 2 0x2000 0x3000 0 0 (BitVec.ofNat 64 v)) ∧
    (cmd 2 0x2000 0x3000 0 0 (BitVec.ofNat 64 v)).n = 0 ∧ (BitVec.ofNat 64 v = 0 ↔ v = 0) := by decide

theorem test_witness_DecodeNeedsReady :
    (busyAt .default .uninitialized [] lD1).lat = some lD1 ∧ DecodeArgsOk .default lD1 ∧ DecodeClear .default lD1 ∧
    ¬(lD1.n = 0 ∧ lD1.bitcnt = 0) ∧
    (busyAt .default .uninitialized [] lD1).life = .uninitialized := by decide

/-- The vectors D13 and D14. -/
theorem test_witness_OneSymbolDecode : ∀ v ∈ [0, 1],
    (busyAt .default readyB3 [] (cmd 2 0x2000 0x3000 3 0 (BitVec.ofNat 64 v))).lat =
      some (cmd 2 0x2000 0x3000 3 0 (BitVec.ofNat 64 v)) ∧
    DecodeArgsOk .default (cmd 2 0x2000 0x3000 3 0 (BitVec.ofNat 64 v)) ∧
    DecodeClear .default (cmd 2 0x2000 0x3000 3 0 (BitVec.ofNat 64 v)) ∧ readyB3 = .ready (.leaf 0 7 3) (derive treeB3) ∧
    (cmd 2 0x2000 0x3000 3 0 (BitVec.ofNat 64 v)).n ≠ 0 ∧ (BitVec.ofNat 64 v = 0 ↔ v = 0) := by decide

theorem test_witness_DecodeOfCodesCompletes : sD1.lat = some lD1 ∧ DecodeArgsOk sD1.params lD1 ∧
    DecodeClear sD1.params lD1 ∧
    sD1.life = .ready treeB1 (derive treeB1) ∧ 2 ≤ treeB1.leafCount ∧ ¬(lD1.n = 0 ∧ lD1.bitcnt = 0) ∧
    [(5 : Symbol), 9, 5, 5, 9].length = lD1.n.toNat ∧ (∀ x ∈ [(5 : Symbol), 9, 5, 5, 9], x ∈ treeB1.symbols) ∧
    sD1.stream lD1 = codesOf (derive treeB1) [5, 9, 5, 5, 9] :=
  ⟨by decide, by decide, by decide, by decide, by decide, by decide, by decide, fun x hx => by
    have := List.all_eq_true.mp (by decide : [(5 : Symbol), 9, 5, 5, 9].all (fun y => decide (y ∈ treeB1.symbols)) = true) x hx
    simpa using this, by decide⟩

theorem test_witness_DecodeWalkOutcomes : sD1.Inv ∧ sD1.lat = some lD1 ∧ DecodeArgsOk sD1.params lD1 ∧
    DecodeClear sD1.params lD1 ∧
    sD1.life = .ready treeB1 (derive treeB1) ∧ 2 ≤ treeB1.leafCount ∧ ¬(lD1.n = 0 ∧ lD1.bitcnt = 0) :=
  ⟨sD1_inv, by decide⟩

/-- Vector D2 beside D1: two memories that differ past bit 4 only. -/
theorem test_witness_DecodeIgnoresBitsPastB : sD1.lat = some lD1 ∧
    (∀ i < lD1.bitcnt.toNat, streamBit (word2000 0xFFFFFFED) lD1.src.toNat i = streamBit sD1.mem lD1.src.toNat i) ∧
    (∃ t, exec .decode sD1 = .next t ∧ 0x3009 < lD1.dst.toNat + 2 * t.resSymcnt.toNat) ∧
    ∃ t, exec .decode { sD1 with mem := word2000 0xFFFFFFED } = .next t :=
  ⟨by decide, by decide, ⟨_, rfl, by decide⟩, _, rfl⟩

theorem test_witness_DecodeMemoryFrame : sD1.lat = some lD1 ∧ ∃ t, exec .decode sD1 = .next t ∧
    ∀ a ∈ [0x2FFF, 0x300A], ¬(lD1.dst.toNat ≤ a ∧ a < lD1.dst.toNat + 2 * t.resSymcnt.toNat) :=
  ⟨by decide, _, rfl, by decide⟩

/-- E1, then D1. -/
theorem test_witness_RoundTrip : sE1.Inv ∧ sE1.lat = some lE1 ∧ (∃ t, exec .encode sE1 = .next t ∧ t.err = none ∧
    lD1.bitcnt = t.resBitcnt) ∧ lD1.src = lE1.dst ∧ lD1.n = lE1.n ∧ DecodeArgsOk sE1.params lD1 ∧
    WindowClear sE1.params lD1.dst.toNat (2 * lD1.n.toNat) :=
  ⟨sE1_inv, by decide, ⟨_, rfl, by decide, by decide⟩, by decide, by decide, by decide, by decide⟩

theorem test_witness_QueryAnswers : sQ2.lat = some lQ2 ∧ sFail.lat = some lQ2 := by decide

theorem test_witness_QueryReturnsCodeBits : sQ2.Inv ∧ sQ2.lat = some lQ2 ∧ sQ2.life = .ready treeB4 (derive treeB4) ∧
    CodeTable.code (derive treeB4) (BitVec.ofNat 16 (lQ2.n.toNat % 2 ^ 16)) = some [true, true, false] ∧
    ∃ t, exec .query sQ2 = .next t :=
  ⟨sQ2_inv, by decide, by decide, by decide, _, rfl⟩

theorem test_witness_QueryTouchesNothing : sQ2.lat = some lQ2 ∧ (∃ t, exec .query sQ2 = .next t) ∧
    (cmd 3 0 0 0x00010002 0 0).n.toNat % 2 ^ 16 = lQ2.n.toNat % 2 ^ 16 := ⟨by decide, ⟨_, rfl⟩, by decide⟩

end Sys2Proof.Tests
end

/-! PROOFS. The family 10_state.md: what every step keeps, what the registers read, how a command ends. -/
namespace Sys2Proof.Machine

/-! ### How a command ends -/

/-- Only a command, legal and by name, ends with success (rules R122, R158). -/
theorem resultOfWord_ok {s : State} {l : Latch} {r : CmdOk} (h : resultOfWord s l = .ok r) :
    ∃ i, decode l.op = .command i ∧ resultOf i s l = .ok r := by
  unfold resultOfWord at h
  cases hd : decode l.op with
  | command i => rw [hd] at h; exact ⟨i, rfl, h⟩
  | illegal why => rw [hd] at h; cases h

/-! ### The invariant -/

/-- The cache's coherence speaks of the lifecycle and NSYM only (rules R24, R52). -/
theorem State.CacheInv.congr {s t : State} (h : s.CacheInv) (hl : t.life = s.life) (hn : t.nsym = s.nsym) : t.CacheInv := by
  unfold State.CacheInv at h ⊢
  rwa [hl, hn]

/-- The cache of a Ready state, part by part (rules R52, R105, R109). -/
theorem State.CacheInv.of_ready {s : State} {tree : Tree} (hl : s.life = .ready tree (derive tree))
    (hs : tree.symbols.Nodup) (hw : tree.weighted = true) (hf : tree.freq < 2 ^ 32)
    (hn : s.nsym = BitVec.ofNat 17 tree.leafCount) : s.CacheInv := by
  unfold State.CacheInv
  rw [hl]
  exact ⟨hs, hw, hf, rfl, hn⟩

/-- A command that commits caches a coherent tree, one that does not leaves the cache (rules R25, R137). -/
theorem completeOk_cacheInv {s : State} {l : Latch} {i : Instr} {r : CmdOk} (h : s.CacheInv)
    (hr : resultOf i s l = .ok r) : (s.completeOk r).CacheInv := by
  rcases resultOf_commit hr with hc | ⟨-, -, hn, tree, hb, hc⟩
  · exact h.congr (by rw [State.completeOk_life, hc]; rfl) (by rw [State.completeOk_nsym, hc]; rfl)
  · obtain ⟨tree', hb', hs, -, hf, hw, -⟩ := build_count (samples_ne_nil (s := s) hn)
    obtain rfl : tree = tree' := Option.some.inj (hb.symm.trans hb')
    refine .of_ready (by rw [State.completeOk_life, hc]; rfl) hs hw ?_ (by rw [State.completeOk_nsym, hc]; rfl)
    rw [hf, samples_length]
    exact l.n.isLt

/-- The completion of the latched word, whatever it is, keeps the invariant (rules R71, R120). -/
theorem complete_keeps_inv {s : State} (hi : s.Inv) (l : Latch) : (s.complete (resultOfWord s l)).Inv := by
  obtain ⟨hp, hwf, hin, hc⟩ := hi
  cases hr : resultOfWord s l with
  | error e info => exact ⟨hp, hwf, hin, hc⟩
  | ok r =>
    obtain ⟨i, -, hri⟩ := resultOfWord_ok hr
    exact ⟨hp, Memory.wf_writeElems _ _ hwf _, Memory.within_writeElems _ _ hin _ (resultOf_inRange hri),
      completeOk_cacheInv hc hri⟩

/-- The Core's turn keeps the invariant: it is idle, or the completion. -/
theorem coreTurn_keeps_inv {s t : State} (hi : s.Inv) (h : coreTurn s = .next t) : t.Inv := by
  rcases coreTurn_next h with ⟨-, rfl⟩ | ⟨l, -, -, rfl⟩
  · exact hi
  · exact complete_keeps_inv hi l

/-- No host step changes the parameters. -/
theorem hostStep_params {h : HostStep} {s t : State} (ht : hostStep h s = .next t) : t.params = s.params := by
  by_cases hr : h = .reset
  · subst hr; cases ht; rfl
  · exact (hostStep_keeps hr ht).1

/-- A host step leaves the cache as it is, or empties it (rules R25, R173). -/
theorem hostStep_cacheInv {h : HostStep} {s t : State} (hc : s.CacheInv) (ht : hostStep h s = .next t) : t.CacheInv := by
  by_cases hr : h = .reset
  · subst hr; cases ht; rfl
  · obtain ⟨-, hl, hn, -⟩ := hostStep_keeps hr ht
    exact hc.congr hl hn

/-- A host step keeps memory in canonical form and inside the DMA space (rules R62, R176). -/
theorem hostStep_mem_wf {h : HostStep} {s t : State} (hwf : Memory.wf s.mem) (hin : Memory.within s.mem (dmaSize s.params))
    (ht : hostStep h s = .next t) : Memory.wf t.mem ∧ Memory.within t.mem (dmaSize s.params) := by
  rcases hostStep_mem ht with hm | ⟨a, b, ha, hm⟩ | ⟨keep, a, n, k, hm⟩ <;> rw [hm]
  · exact ⟨hwf, hin⟩
  · exact ⟨Memory.wf_write hwf a b, Memory.within_write hin ha b⟩
  · exact ⟨Memory.wf_scramble keep _ n hwf a k, Memory.within_scramble keep _ n hin a k⟩

theorem hostStep_keeps_inv {h : HostStep} {s t : State} (hi : s.Inv) (ht : hostStep h s = .next t) : t.Inv := by
  obtain ⟨hp, hwf, hin, hc⟩ := hi
  obtain ⟨hwf', hin'⟩ := hostStep_mem_wf hwf hin ht
  have ht' := hostStep_params ht
  exact ⟨ht' ▸ hp, hwf', ht' ▸ hin', hostStep_cacheInv hc ht⟩

/-- Settles O24: a step is the Core's turn or a host step, and each keeps the invariant. -/
theorem stepKeepsInvariant : Obligations.StepKeepsInvariant := by
  intro s t hi h
  rcases step_cases s with ⟨rest, -, hs⟩ | ⟨x, rest, -, hs⟩
  · exact coreTurn_keeps_inv (s := { s with turns := rest }) hi (hs ▸ h)
  · exact hostStep_keeps_inv (s := { s with turns := rest }) hi (hs ▸ h)

/-! ### What a register reads (rules R26 to R53) -/

theorem State.ctrlWord_eq (s : State) : s.ctrlWord = if s.irqEn then 1 else 0 := by
  unfold State.ctrlWord
  cases s.irqEn <;> rfl

/-- The high register of a pair (rules R47, R51, R53). -/
theorem highWord_eq (x : DWord) : x.extractLsb' 32 32 = BitVec.ofNat 32 (x.toNat / 2 ^ 32) := by
  rw [← Nat.shiftRight_eq_div_pow]
  rfl

theorem Reg.ofOffset_reserved {o : Nat} (h : 0x54 ≤ o) : Reg.ofOffset o = .reserved := by
  unfold Reg.ofOffset
  simp (disch := omega) only [if_neg]

/-- An admitted read while BUSY = 0 returns the register at its offset, and that is all it does (rule R117). -/
theorem hostRegRead_idle {s : State} (hs : s.lat = none) {o : Nat} (h4 : o % 4 = 0) (h : o < 0x100) :
    hostRegRead .word o s = .next { s with rdata := s.regValue (Reg.ofOffset o) } := by
  rw [hostRegRead_word h4 h, readReg_idle hs]

/-- Settles O12: an idle read returns the register at its offset, whose words are the fields of the state. -/
theorem idleReadsReturnRegisters : Obligations.IdleReadsReturnRegisters := by
  intro s hs
  constructor
  · have hread {o : Nat} {v : Word} (hv : s.regValue (Reg.ofOffset o) = v) (h4 : o % 4 = 0 := by decide)
        (h : o < 0x100 := by decide) : hostRegRead .word o s = .next { s with rdata := v } :=
      hv ▸ hostRegRead_idle hs h4 h
    simp only [List.forall_mem_cons, List.not_mem_nil, false_imp_iff, implies_true, and_true]
    exact ⟨hread rfl, hread rfl, hread s.ctrlWord_eq, hread rfl, hread rfl, hread rfl, hread rfl, hread rfl, hread rfl,
      hread rfl, hread rfl, hread rfl, hread (highWord_eq _), hread rfl, hread rfl, hread rfl, hread rfl,
      hread (highWord_eq _), hread (BitVec.ofNat_toNat _ _).symm, hread rfl, hread (highWord_eq _)⟩
  · intro o h4 h54 h
    rw [hostRegRead_idle hs h4 h, Reg.ofOffset_reserved h54]
    rfl

/-! ### Reads while BUSY = 1 (rule R38) -/

/-- The registers that read a free word are those at 0x2C to 0x50. -/
theorem Reg.openWhileBusy_ofOffset {o : Nat} (h4 : o % 4 = 0) :
    (Reg.ofOffset o).openWhileBusy = decide (0x2C ≤ o ∧ o ≤ 0x50) := by
  have hlow : ∀ o < 0x54, o % 4 = 0 → (Reg.ofOffset o).openWhileBusy = decide (0x2C ≤ o ∧ o ≤ 0x50) := by decide
  by_cases h : o < 0x54
  · exact hlow o h h4
  · rw [Reg.ofOffset_reserved (by omega), decide_eq_false (by omega)]
    rfl

theorem Reg.ofOffset_ne_status {o : Nat} (h : o ≠ 0x0C) : Reg.ofOffset o ≠ .status := by
  have hlow : ∀ o < 0x54, o ≠ 0x0C → Reg.ofOffset o ≠ .status := by decide
  by_cases h54 : o < 0x54
  · exact hlow o h54 h
  · rw [Reg.ofOffset_reserved (by omega)]
    decide

theorem readReg_busy_open {s : State} (hs : s.busy = true) {r : Reg} (hr : r.openWhileBusy = true) :
    s.readReg r = { s with rdata := Config.freeWord s.fresh, fresh := s.fresh + 1 } := by
  simp [State.readReg, State.draw, hs, hr]

theorem readReg_busy_status {s : State} (hs : s.busy = true) :
    s.readReg .status = { s with rdata := s.busyStatusWord (Config.freeWord s.fresh), fresh := s.fresh + 1 } := by
  simp [State.readReg, State.draw, hs, Reg.openWhileBusy]

theorem readReg_busy_fixed {s : State} {r : Reg} (hr : r.openWhileBusy = false) (hst : r ≠ .status) :
    s.readReg r = { s with rdata := s.regValue r } := by
  simp [State.readReg, hr, hst]

/-- Settles O13: by the kind of the register at the offset, open, STATUS or fixed. -/
theorem busyReadsAreFree : Obligations.BusyReadsAreFree := by
  intro s l hl
  have hb : s.busy = true := by rw [State.busy, hl]; rfl
  refine ⟨fun o h4 h1 h2 => ?_, ?_, fun o h4 h hst ho => ?_⟩
  · rw [hostRegRead_word h4 (by omega),
      readReg_busy_open hb (by rw [Reg.openWhileBusy_ofOffset h4]; exact decide_eq_true ⟨h1, h2⟩)]
  · have hbit := s.busyStatusWord_getLsbD (Config.freeWord s.fresh)
    refine ⟨_, (hostRegRead_word (by decide) (by decide) s).trans (congrArg _ (readReg_busy_status hb)),
      ?_, ?_, ?_, fun k hk => ?_, fun k hk => ?_, rfl⟩
    · rw [hbit, if_neg (by decide), State.statusWord_getLsbD]
      exact hb
    · rw [hbit, if_neg (by decide), State.statusWord_getLsbD]
      rfl
    · rw [hbit, if_neg (by decide), State.statusWord_getLsbD]
      rfl
    · rw [hbit, if_neg (by omega), State.statusWord_getLsbD]
      rcases hk with hk | hk | hk <;> simp (disch := omega) only [if_neg, if_pos]
    · rw [hbit, if_pos hk]
  · rw [hostRegRead_word h4 h, readReg_busy_fixed _ (Reg.ofOffset_ne_status hst)]
    rw [Reg.openWhileBusy_ofOffset h4]
    exact decide_eq_false (by omega)

/-! ### STATUS and PARAM -/

/-- A field of STATUS is the bits it covers. -/
theorem State.statusWord_field {s : State} {start len : Nat} {f : BitVec len}
    (h : ∀ k < len, s.statusWord.getLsbD (start + k) = f.getLsbD k) : s.statusWord.extractLsb' start len = f := by
  refine BitVec.eq_of_getLsbD_eq fun k hk => ?_
  rw [BitVec.getLsbD_extractLsb', h k hk]
  simp [hk]

/-- Settles O14: every bit of STATUS is the one its field names. -/
theorem statusWordLayout : Obligations.StatusWordLayout := by
  intro s
  have hbit := s.statusWord_getLsbD
  refine ⟨hbit 0, hbit 1, (hbit 2).trans ?_, hbit 3, ?_, ?_, ?_, ?_, ?_⟩
  · show s.readyBit = _
    rw [State.readyBit]
    cases s.life <;> rfl
  all_goals
    refine State.statusWord_field fun k hk => ?_
    rw [hbit]
    simp (disch := omega) only [if_neg, if_pos, Nat.add_sub_cancel_left, BitVec.ofNat_eq_ofNat, BitVec.getLsbD_zero]

/-- Settles O16: each parameter fits its byte. -/
theorem paramWordFields : Obligations.ParamWordFields := by
  refine ⟨fun p hp => ?_, by decide, by decide⟩
  have hwb : wordBits p < 2 ^ 8 := by rcases wordBits_cases p with h | h <;> omega
  have haw : p.addrWidth < 2 ^ 8 := by
    simp only [Params.wf, Bool.and_eq_true, decide_eq_true_eq] at hp
    omega
  rw [paramWord_toNat, Nat.mod_eq_of_lt hwb, Nat.mod_eq_of_lt haw]

/-! ### The word of a command -/

/-- A CMD word is its two fields, one above the other (rule R87). -/
theorem rsvField_append_opField (w : Word) : rsvField w ++ opField w = w := by
  exact (BitVec.extractLsb'_append_extractLsb'_eq_extractLsb' rfl).trans BitVec.extractLsb'_eq_self

/-- No word but a command's own decodes to it (rules R88, R89). -/
theorem eq_encode_of_decode {w : Word} {i : Instr} (h : decode w = .command i) : w = encode i := by
  unfold decode at h
  rw [← rsvField_append_opField w]
  split_ifs at h with hr h1 h2 h3 <;> cases h
  · rw [not_not.mp hr, h1]; rfl
  · rw [not_not.mp hr, h2]; rfl
  · rw [not_not.mp hr, h3]; rfl

/-! ### The lifecycle (rule R25) -/

/-- The completion of the latched word leaves the cache, or it is a priming ENCODE's and caches the tree of its samples. -/
theorem complete_life_cases (s : State) (l : Latch) :
    ((s.complete (resultOfWord s l)).life = s.life ∧ (s.complete (resultOfWord s l)).nsym = s.nsym) ∨
    (s.life = .uninitialized ∧ l.op = 0x1 ∧ 1 ≤ l.n.toNat ∧ (s.complete (resultOfWord s l)).err = none ∧
      ∃ tree, build (count (s.samples l)) = some tree ∧
        (s.complete (resultOfWord s l)).life = .ready tree (derive tree) ∧
        (s.complete (resultOfWord s l)).nsym = BitVec.ofNat 17 tree.leafCount) := by
  cases hr : resultOfWord s l with
  | error e info => exact .inl ⟨rfl, rfl⟩
  | ok r =>
    obtain ⟨i, hd, hri⟩ := resultOfWord_ok hr
    simp only [State.complete, State.completeOk_life, State.completeOk_nsym]
    rcases resultOf_commit hri with hc | ⟨rfl, hl, hn, tree, hb, hc⟩ <;> rw [hc]
    · exact .inl ⟨rfl, rfl⟩
    · exact .inr ⟨hl, eq_encode_of_decode hd, Nat.one_le_iff_ne_zero.mpr hn, rfl, tree, hb, rfl, rfl⟩

/-- A step that takes no reset keeps the cache, or it is the completion of a priming ENCODE. -/
theorem step_life_cases {s t : State} (h : step s = .next t) (hreset : ∀ rest, s.turns ≠ .host .reset :: rest) :
    (t.life = s.life ∧ t.nsym = s.nsym) ∨
    (s.life = .uninitialized ∧ ∃ (l : Latch) (tree : Tree), s.lat = some l ∧ l.op = 0x1 ∧ 1 ≤ l.n.toNat ∧
      t.err = none ∧ t.lat = none ∧ build (count (s.samples l)) = some tree ∧ t.life = .ready tree (derive tree) ∧
      t.nsym = BitVec.ofNat 17 tree.leafCount) := by
  rcases step_cases s with ⟨rest, -, hs⟩ | ⟨x, rest, hx, hs⟩ <;> rw [hs] at h
  · rcases coreTurn_next h with ⟨-, rfl⟩ | ⟨l, hlat, -, rfl⟩
    · exact .inl ⟨rfl, rfl⟩
    · rcases complete_life_cases { s with turns := rest } l with hkeep | ⟨hu, hop, hn, he, tree, hb, hl, hns⟩
      · exact .inl hkeep
      · exact .inr ⟨hu, l, tree, hlat, hop, hn, he, (complete_frame _ _).1, hb, hl, hns⟩
  · have hxr : x ≠ .reset := by rintro rfl; exact hreset rest hx
    obtain ⟨-, hl, hn, -⟩ := hostStep_keeps hxr h
    exact .inl ⟨hl, hn⟩

/-- Settles O22: a step keeps the cache but for the completion of a priming ENCODE. -/
theorem lifecycleTransitions : Obligations.LifecycleTransitions := by
  intro s t h hreset
  rcases step_life_cases h hreset with ⟨hl, hn⟩ | ⟨hu, hprimed⟩
  · exact ⟨fun _ => ⟨hl, hn⟩, fun hu hr => absurd (hl.trans hu) hr⟩
  · exact ⟨fun hr => absurd hu hr, fun _ _ => hprimed⟩

/-! ### The error record (rules R152, R155) -/

theorem CmdError.code_ne_zero (e : CmdError) : e.code ≠ 0 := by cases e <;> decide

/-- ERR of a state whose last command failed (rule R153). -/
theorem State.errField_of_err {s : State} {e : CmdError} (h : s.err = some e) : s.errField = e.code := by
  rw [State.errField, h]; rfl

/-- A walk ends with CORRUPT_STREAM, if with an error (rule R143). -/
theorem walk_error_code (root : Tree) : ∀ (bits : Bits) (k : Nat) (pos : Tree) (i : Nat) {e : CmdError} {c : Nat},
    walk root bits k pos i = .error e c → e.code = 3 := by
  intro bits
  induction bits with
  | nil =>
    intro k pos i e c h
    cases k with
    | zero => cases h
    | succ k => rw [walk] at h; split_ifs at h <;> (cases h; rfl)
  | cons b bits ih =>
    intro k pos i e c h
    cases k with
    | zero => cases h; rfl
    | succ k =>
      rw [walk] at h
      cases hc : pos.child b with
      | leaf j s f =>
        rw [hc] at h
        simp only at h
        cases hw : walk root bits k root (i + 1) with
        | ok out => rw [hw] at h; cases h
        | error e' c' => rw [hw] at h; cases h; exact ih _ _ _ hw
      | internal j f l r =>
        rw [hc] at h
        exact ih _ _ _ h

theorem decodeBits_error_code {root : Tree} {bits : Bits} {k : Nat} {e : CmdError} {c : Nat}
    (h : decodeBits root bits k = .error e c) : e.code = 3 := by
  unfold decodeBits at h
  cases root with
  | leaf i s f =>
    simp only at h
    split_ifs at h
    cases h
    rfl
  | internal i f l r => exact walk_error_code _ _ _ _ _ h

/-- A PRECONDITION_VIOLATION of ENCODE carries no information (rule R155). -/
theorem encodeCommand_errinfo {p : Params} {life : Life} {mem : Memory} {l : Latch} {e : CmdError} {info : Nat}
    (h : encodeCommand p life mem l = .error e info) (he : e.code = 1) : info = 0 := by
  cases ha : encodeArgError p l with
  | some a => rw [encodeCommand_argError ha] at h; cases h; rfl
  | none =>
    rw [encodeCommand_of_args ((encodeArgError_eq_none_iff p l).mp ha)] at h
    split_ifs at h with hn
    cases hc : chooseTable life (readSamples mem l.src.toNat l.n.toNat) with
    | use table commit => rw [hc] at h; exact (emitStream_error h).2
    | error e' i =>
      rw [hc] at h
      cases h
      have hne : readSamples mem l.src.toNat l.n.toNat ≠ [] := by
        rwa [Ne, ← List.length_eq_zero_iff, readSamples_length]
      obtain ⟨rfl, -⟩ := chooseTable_error hne hc
      exact absurd he (by decide)

/-- A PRECONDITION_VIOLATION of DECODE carries no information (rule R155). -/
theorem decodeCommand_errinfo {p : Params} {life : Life} {mem : Memory} {l : Latch} {e : CmdError} {info : Nat}
    (h : decodeCommand p life mem l = .error e info) (he : e.code = 1) : info = 0 := by
  cases ha : decodeArgError p l with
  | some a =>
    unfold decodeCommand at h
    rw [ha] at h
    cases h
    rfl
  | none =>
    rw [decodeCommand_of_args ((decodeArgError_eq_none_iff p l).mp ha)] at h
    split_ifs at h
    cases life with
    | uninitialized => cases h; rfl
    | ready tree table =>
      cases hd : decodeBits tree (inputBits p mem l) l.n.toNat with
      | ok out => simp only [hd] at h; cases h
      | error e' c =>
        simp only [hd] at h
        cases h
        rw [decodeBits_error_code hd] at he
        cases he

/-- A PRECONDITION_VIOLATION of QUERY carries no information (rule R155). -/
theorem queryCommand_errinfo {life : Life} {l : Latch} {e : CmdError} {info : Nat}
    (h : queryCommand life l = .error e info) (he : e.code = 1) : info = 0 := by
  unfold queryCommand at h
  cases life with
  | uninitialized => cases h; rfl
  | ready tree table =>
    cases hc : CodeTable.code table l.querySym with
    | some c => simp only [hc] at h; cases h
    | none => simp only [hc] at h; cases h; cases he

theorem resultOfWord_errinfo {s : State} {l : Latch} {e : CmdError} {info : Nat}
    (h : resultOfWord s l = .error e info) (he : e.code = 1) : info = 0 := by
  unfold resultOfWord at h
  cases hd : decode l.op with
  | command i =>
    rw [hd] at h
    cases i with
    | encode => exact encodeCommand_errinfo h he
    | decode => exact decodeCommand_errinfo h he
    | query => exact queryCommand_errinfo h he
  | illegal why =>
    rw [hd] at h
    cases h
    cases why <;> cases he

/-- Settles O28: a completion is complete_ok or raise Err, and a PRECONDITION_VIOLATION is raised with no information. -/
theorem errorResultsAreZero : Obligations.ErrorResultsAreZero := by
  intro s t hlat h
  rcases coreTurn_next h with ⟨hn, -⟩ | ⟨l, -, -, rfl⟩
  · exact absurd hn hlat
  · cases hr : resultOfWord s l with
    | ok r => exact ⟨fun he => absurd rfl he, fun _ => rfl⟩
    | error e info =>
      refine ⟨fun _ => ⟨rfl, rfl, rfl, rfl, rfl⟩, fun he => ?_⟩
      have hf : (s.complete (.error e info)).errField = e.code := State.errField_of_err rfl
      rw [hf] at he
      rw [State.complete, State.raiseErr_errinfo, resultOfWord_errinfo hr (he.resolve_left e.code_ne_zero)]
      rfl

/-! ### ENCODE that succeeds -/

/-- A completion that reports no error is complete_ok of some results (rules R121, R152). -/
theorem complete_err_eq_none {s : State} {r : CmdResult} (h : (s.complete r).err = none) :
    ∃ ok, r = .ok ok ∧ s.complete r = s.completeOk ok := by
  cases r with
  | ok r => exact ⟨r, rfl, rfl⟩
  | error e info => cases h

/-- A successful ENCODE of at least one sample: the stream of the table it chose, packed, with the choice committed
(rules R130, R131, R137). -/
theorem execEncode_success {s t : State} {l : Latch} (hl : s.lat = some l) (hn : l.n.toNat ≠ 0)
    (h : exec .encode s = .next t) (he : t.err = none) : ∃ table commit,
      chooseTable s.life (s.samples l) = .use table commit ∧
      EncodeFits s.params l (codesOf table (s.samples l)).length ∧
      t = s.completeOk (encodeOk s.params l (codesOf table (s.samples l)) commit) := by
  obtain ⟨l', hl', -, rfl⟩ := exec_next h
  obtain rfl : l = l' := Option.some.inj (hl.symm.trans hl')
  obtain ⟨r, hr, hc⟩ := complete_err_eq_none he
  obtain ⟨-, ⟨h0, -⟩ | ⟨-, table, commit, hchoose, hfits, rfl⟩⟩ := encodeCommand_ok hr
  · exact absurd h0 hn
  · exact ⟨table, commit, hchoose, hfits, hc⟩

/-- Primed or reused, the table an ENCODE chooses is the table of the Ready state it leaves (rules R130, R137). -/
theorem committedLife_of_chooseTable {life : Life} {xs : List Symbol} {table : CodeTable}
    {commit : Option (Tree × CodeTable)} (h : chooseTable life xs = .use table commit) :
    ∃ tree, committedLife life commit = .ready tree table := by
  rcases chooseTable_use h with ⟨-, tree, -, rfl, rfl⟩ | ⟨tree, rfl, rfl, -⟩ <;> exact ⟨tree, rfl⟩

/-- Settles O45: the counters hold the stream's length and its words, which fit them. -/
theorem encodeCountsBits : Obligations.EncodeCountsBits := by
  intro s t l hl hn h he
  have hn' : l.n.toNat ≠ 0 := fun h0 => hn (BitVec.eq_of_toNat_eq h0)
  obtain ⟨table, commit, hc, hfits, rfl⟩ := execEncode_success hl hn' h he
  obtain ⟨tree, hlife⟩ := committedLife_of_chooseTable hc
  obtain ⟨hb, hw⟩ := hfits.bounds
  have hbits : (BitVec.ofNat 64 (codesOf table (s.samples l)).length).toNat = (codesOf table (s.samples l)).length := by
    rw [BitVec.toNat_ofNat, Nat.mod_eq_of_lt (lt_trans hb (by decide))]
  refine ⟨tree, table, hlife, ?_, ?_, ?_, ?_⟩ <;>
    simp only [State.completeOk_resBitcnt, State.completeOk_resWordcnt, State.completeOk_resSymcnt, encodeOk, hbits]
  · exact codesOf_length table _
  · exact hb
  · rw [BitVec.toNat_ofNat, Nat.mod_eq_of_lt hw]
    rfl
  · exact (BitVec.ofNat_toNat _ _).trans (BitVec.setWidth_eq _)

/-! ### The tree a priming ENCODE caches -/

/-- There are as many leaves as distinct symbols (rules R97, R99). -/
theorem leafCount_eq_dedup {tree : Tree} {xs : List Symbol} (hn : tree.symbols.Nodup)
    (hm : ∀ x, x ∈ tree.symbols ↔ x ∈ xs) : tree.leafCount = xs.dedup.length := by
  rw [← symbols_length]
  refine ((List.perm_ext_iff_of_nodup hn xs.nodup_dedup).mpr fun x => ?_).length_eq
  rw [hm, List.mem_dedup]

/-- COUNT has one entry per leaf of the tree BUILD makes of it (rule R97). -/
theorem count_length_eq_leafCount {xs : List Symbol} {tree : Tree} (hne : xs ≠ []) (h : build (count xs) = some tree) :
    (count xs).length = tree.leafCount := by
  obtain ⟨tree', hb, -, -, -, hl, -⟩ := build_spec (count_good xs) (count_ne_nil hne)
  obtain rfl : tree = tree' := Option.some.inj (h.symm.trans hb)
  exact hl.symm

/-- Settles O35: what a priming ENCODE commits is the tree BUILD makes of its samples. -/
theorem primedTreeShape : Obligations.PrimedTreeShape := by
  intro s t l hl hu hn h he
  obtain ⟨table, commit, hc, -, rfl⟩ := execEncode_success hl (by omega) h he
  rw [hu] at hc
  have hne : s.samples l ≠ [] := samples_ne_nil (by omega)
  obtain ⟨tree, hb, hc', -⟩ := chooseTable_uninitialized hne
  obtain ⟨rfl, rfl⟩ := TableChoice.use.inj (hc.symm.trans hc')
  obtain ⟨tree', hb', hs, hm, hf, hw, hi⟩ := build_count hne
  obtain rfl : tree = tree' := Option.some.inj (hb.symm.trans hb')
  obtain ⟨hloop, hleaves, hsib⟩ := build_loop (count_ne_nil hne) hb
  rw [count_length_eq_leafCount hne hb] at hloop
  have hcount := internalCount_eq tree
  refine ⟨tree, rfl, hs, hm, leafCount_eq_dedup hs hm, by omega, hw, hf.trans (samples_length s l), hi, ?_,
    hloop, hleaves, hsib⟩
  show (BitVec.ofNat 17 tree.leafCount).toNat = tree.leafCount
  rw [BitVec.toNat_ofNat, Nat.mod_eq_of_lt (lt_of_le_of_lt (leafCount_le hs) (by decide))]

/-! ### DECODE's frame -/

/-- DECODE writes the samples it reports at dst, where it succeeds, and commits nothing (rules R25, R145). -/
theorem decodeCommand_frame {p : Params} {life : Life} {mem : Memory} {l : Latch} {r : CmdOk}
    (h : decodeCommand p life mem l = .ok r) : r.commit = none ∧ r.symcnt < 2 ^ 32 ∧
      (r.out = [] ∨ (r.outAddr = l.dst.toNat ∧ r.outSize * r.out.length = 2 * r.symcnt)) := by
  obtain ⟨-, ⟨-, -, rfl⟩ | ⟨-, tree, table, out, -, hd, rfl⟩⟩ := decodeCommand_ok h
  · exact ⟨rfl, by decide, .inl rfl⟩
  · refine ⟨rfl, l.n.isLt, .inr ⟨rfl, ?_⟩⟩
    simp only [decodeOk, List.length_map, decodeBits_ok_length hd]

/-- Settles O56: an error writes nothing, a success only the samples it reports. -/
theorem decodeMemoryFrame : Obligations.DecodeMemoryFrame := by
  intro s t l hl h
  obtain ⟨l', hl', -, rfl⟩ := exec_next h
  obtain rfl : l = l' := Option.some.inj (hl.symm.trans hl')
  cases hr : resultOf .decode s l with
  | error e info => exact ⟨rfl, rfl, fun a _ => rfl⟩
  | ok r =>
    obtain ⟨hc, hlt, hout⟩ := decodeCommand_frame hr
    simp only [State.complete, State.completeOk_life, State.completeOk_nsym, State.completeOk_mem,
      State.completeOk_resSymcnt, hc, BitVec.toNat_ofNat, Nat.mod_eq_of_lt hlt]
    refine ⟨rfl, rfl, fun a ha => ?_⟩
    rcases hout with hnil | ⟨haddr, hlen⟩
    · rw [hnil]; rfl
    · refine read_writeElems_outside _ _ _ _ _ ?_
      rwa [haddr, hlen]

/-! ### The latch and the completion -/

/-- Settles O10: a host step that is no reset keeps a latched command. -/
theorem latchHeldUntilCompletion : Obligations.LatchHeldUntilCompletion := by
  intro s t l h hl hr ht
  obtain ⟨-, -, -, -, hlat⟩ := hostStep_keeps hr ht
  rw [hlat (by rw [hl]; exact Option.some_ne_none l), hl]

/-- No region covers a window that is not in the DMA space (rules R63, R73). -/
theorem clearOfWindow_of_no_window {p : Params} (h : p.regBase = none) (rs : List Region) : clearOfWindow p rs = true :=
  (clearOfWindow_iff p rs).mpr fun r _ b hb => by rw [h] at hb; cases hb

theorem wordAdmitted_illegal {s : State} {l : Latch} {why : IllegalWord} (h : decode l.op = .illegal why) :
    wordAdmitted s l = true := by
  rw [wordAdmitted, h]

/-- A word is admitted where every command is. -/
theorem wordAdmitted_of_commands {s : State} {l : Latch} (h : ∀ i, commandAdmitted i s l = true) :
    wordAdmitted s l = true := by
  unfold wordAdmitted
  cases decode l.op with
  | command i => exact h i
  | illegal why => rfl

/-- Settles O26: an admitted command is its completion, any other one is refused, and only a window can refuse one. -/
theorem everyCommandCompletes : Obligations.EveryCommandCompletes := by
  intro s l hl
  refine ⟨fun ha => ?_, fun ha => ?_, fun i ha => ?_, fun i ha => ?_, rfl, fun why => wordAdmitted_illegal, fun hw => ?_⟩
  · exact ⟨_, by rw [coreTurn_some hl, if_pos ha], complete_frame _ _⟩
  · rw [coreTurn_some hl, ha]; rfl
  · exact ⟨_, exec_eq hl ha, complete_frame _ _⟩
  · rw [exec_cases hl, ha]; rfl
  · have hall (i : Instr) : commandAdmitted i s l = true := clearOfWindow_of_no_window hw _
    exact ⟨wordAdmitted_of_commands hall, hall⟩

end Sys2Proof.Machine

/-! PROOFS. The family 20_memory.md: the host's own accesses, what each command reports, writes and leaves alone. -/
namespace Sys2Proof.Machine

/-! ### The host's own accesses (rules R62, R63, R76) -/

/-- A host write of a byte of plain memory: refused in a region in flight, done elsewhere (rules R76, R180). -/
theorem hostMemWrite_plain {s : State} {a : Nat} (ha : a < dmaSize s.params) (hw : WindowClear s.params a 1) (b : Byte) :
    hostMemWrite a b s = if s.inFlightInput a || s.inFlightOutput a then .refused .hostBrokeDuty
      else .next { s with mem := Memory.write s.mem a b } := by
  rw [hostMemWrite, if_neg (by omega), if_neg (by rw [(windowRegion_holds_eq_false_iff _ _).mpr hw]; decide)]

/-- A host read of a byte of plain memory: free in an output region in flight, the byte elsewhere (rule R76). -/
theorem hostMemRead_plain {s : State} {a : Nat} (ha : a < dmaSize s.params) (hw : WindowClear s.params a 1) :
    hostMemRead a s = if s.inFlightOutput a then .next { s.draw with mdata := Config.freeByte s.fresh }
      else .next { s with mdata := Memory.read s.mem a } := by
  rw [hostMemRead, if_neg (by omega), if_neg (by rw [(windowRegion_holds_eq_false_iff _ _).mpr hw]; decide)]

theorem hostMem_outside {s : State} {a : Nat} (ha : dmaSize s.params ≤ a) (b : Byte) :
    hostMemWrite a b s = .fault .outsideDmaSpace ∧ hostMemRead a s = .fault .outsideDmaSpace := by
  rw [hostMemWrite, hostMemRead, if_pos ha, if_pos ha]
  exact ⟨rfl, rfl⟩

theorem hostMem_window {s : State} {a : Nat} (ha : a < dmaSize s.params) (hw : ¬ WindowClear s.params a 1) (b : Byte) :
    hostMemWrite a b s = .fault .accessNotAdmitted ∧ hostMemRead a s = .fault .accessNotAdmitted := by
  have hh : (windowRegion s.params).holds a = true := by
    rwa [← windowRegion_holds_eq_false_iff, Bool.not_eq_false] at hw
  have hin : ¬ a ≥ dmaSize s.params := by omega
  exact ⟨by rw [hostMemWrite, if_neg hin, if_pos hh], by rw [hostMemRead, if_neg hin, if_pos hh]⟩

theorem State.inFlight_idle {s : State} (h : s.lat = none) (a : Nat) :
    s.inFlightInput a = false ∧ s.inFlightOutput a = false := by
  rw [State.inFlightInput, State.inFlightOutput, h]
  exact ⟨rfl, rfl⟩

theorem State.inFlight_busy {s : State} {l : Latch} (h : s.lat = some l) (a : Nat) :
    s.inFlightInput a = (inputRegion s.params l).holds a ∧
      s.inFlightOutput a = (outputRegion s.params s.life s.mem l).holds a := by
  rw [State.inFlightInput, State.inFlightOutput, h]
  exact ⟨rfl, rfl⟩

theorem hostMemWrite_idle {s : State} {a : Nat} (hs : s.lat = none) (ha : a < dmaSize s.params)
    (hw : WindowClear s.params a 1) (b : Byte) : hostMemWrite a b s = .next { s with mem := Memory.write s.mem a b } := by
  obtain ⟨hin, hout⟩ := State.inFlight_idle hs a
  rw [hostMemWrite_plain ha hw, hin, hout]
  rfl

theorem hostMemRead_idle {s : State} {a : Nat} (hs : s.lat = none) (ha : a < dmaSize s.params)
    (hw : WindowClear s.params a 1) : hostMemRead a s = .next { s with mdata := Memory.read s.mem a } := by
  rw [hostMemRead_plain ha hw, (State.inFlight_idle hs a).2]
  rfl

/-- Settles O31: with no region in flight the host's accesses are plain writes and reads. -/
theorem hostMemoryIsPlain : Obligations.HostMemoryIsPlain := by
  refine ⟨fun s a b hs ha hw => ?_, fun s a b => (hostMem_outside · b), fun s a b ha => (hostMem_window ha · b)⟩
  refine ⟨_, _, hostMemWrite_idle hs ha hw b, hostMemRead_idle (s := { s with mem := _ }) hs ha hw, ?_, rfl,
    fun c hc => ?_⟩
  · exact (Memory.read_write _ _ _ _).trans (if_pos rfl)
  · exact (Memory.read_write _ _ _ _).trans (if_neg hc)

/-- Settles O32: by the region of the latched command the byte lies in. -/
theorem hostAccessWhileBusy : Obligations.HostAccessWhileBusy := by
  intro s l a b hl ha hw
  obtain ⟨hin, hout⟩ := State.inFlight_busy hl a
  rw [hostMemWrite_plain ha hw, hostMemRead_plain ha hw, hin, hout]
  refine ⟨fun h => ?_, fun h1 h2 => ?_, fun h => ?_, fun h => ?_⟩
  · rw [if_pos (by rwa [Bool.or_eq_true])]
  · rw [h1, h2]; rfl
  · rw [h]; rfl
  · rw [h]; rfl

/-- Settles O21: a reset scrambles output bytes that are no input bytes, and nothing else. -/
theorem resetMidCommandTouchesOnlyOutput : Obligations.ResetMidCommandTouchesOnlyOutput := by
  intro s l hl
  refine ⟨s.hwReset, rfl, rfl, rfl, fun a ha => ?_⟩
  have hmem : s.hwReset.mem = scramble (inputRegion s.params l) (dmaSize s.params) s.mem
      (outputRegion s.params s.life s.mem l).base (outputRegion s.params s.life s.mem l).len s.fresh := by
    rw [State.hwReset, hl]
  rw [hmem]
  refine read_scramble_outside _ _ _ _ _ _ _ (ha.imp_left fun ho => ?_)
  rwa [← holds_iff, Bool.not_eq_true]

/-! ### The turns the model stops on -/

/-- The Core's turn answers a state exactly when it is idle or the latched word is admitted (rules R63, R120). -/
theorem coreTurn_next_iff (s : State) : (∃ t, coreTurn s = .next t) ↔ turnAdmitted s .core = true := by
  cases hl : s.lat with
  | none => simp [coreTurn, turnAdmitted, hl]
  | some l =>
    rw [coreTurn_some hl]
    simp only [turnAdmitted, hl]
    split_ifs with h <;> simp [h]

/-- A host step answers a state exactly when the access is admitted (rules R62, R180, R181). -/
theorem hostStep_next_iff (h : HostStep) (s : State) : (∃ t, hostStep h s = .next t) ↔ turnAdmitted s (.host h) = true := by
  cases h with
  | regWrite size o v => simp only [hostStep, hostRegWrite, turnAdmitted]; split_ifs with h <;> simp [h]
  | regRead size o => simp only [hostStep, hostRegRead, turnAdmitted]; split_ifs with h <;> simp [h]
  | memWrite a b =>
    simp only [hostStep, hostMemWrite, turnAdmitted]
    split_ifs with h1 h2 h3
    · simp [Nat.not_lt.mpr h1]
    · simp [h2]
    · simp [h3]
    · simp [Nat.lt_of_not_le h1, h2, h3]
  | memRead a =>
    simp only [hostStep, hostMemRead, turnAdmitted]
    split_ifs with h1 h2 h3
    · simp [Nat.not_lt.mpr h1]
    · simp [h2]
    · simp [Nat.lt_of_not_le h1, h2]
    · simp [Nat.lt_of_not_le h1, h2]
  | reset => exact ⟨fun _ => rfl, fun _ => ⟨_, rfl⟩⟩

/-- Whether a turn is admitted does not depend on the turns listed after it. -/
theorem turnAdmitted_turns (s : State) (rest : List Turn) (x : Turn) :
    turnAdmitted { s with turns := rest } x = turnAdmitted s x := by
  rcases x with _ | ⟨_ | _ | _ | _ | _⟩ <;> rfl

/-- Settles O30: the turn a step takes is the only one it can stop on. -/
theorem stepStopsOnlyOnBrokenDuty : Obligations.StepStopsOnlyOnBrokenDuty := by
  intro s
  rcases step_cases s with ⟨rest, hrest, hs⟩ | ⟨h, rest, hrest, hs⟩
  · rw [hs, coreTurn_next_iff, turnAdmitted_turns]
    rcases hrest with ⟨hnil, -⟩ | hcons
    · simp [hnil]
    · simp [hcons]
  · rw [hs, hostStep_next_iff, turnAdmitted_turns]
    simp [hrest]

/-! ### Commands that fail, and QUERY -/

/-- Settles O27: raise Err touches neither memory nor the cache. -/
theorem failedCommandChangesNothing : Obligations.FailedCommandChangesNothing := by
  intro s t hlat h he
  rcases coreTurn_next h with ⟨hn, -⟩ | ⟨l, -, -, rfl⟩
  · exact absurd hn hlat
  · cases hr : resultOfWord s l with
    | ok r => rw [hr] at he; exact absurd rfl he
    | error e info => exact ⟨rfl, rfl, rfl⟩

/-- QUERY writes no element and commits nothing (rules R68, R148). -/
theorem queryCommand_frame {life : Life} {l : Latch} {r : CmdOk} (h : queryCommand life l = .ok r) :
    r.out = [] ∧ r.commit = none := by
  unfold queryCommand at h
  cases life with
  | uninitialized => cases h
  | ready tree table =>
    cases hc : CodeTable.code table l.querySym with
    | none => simp only [hc] at h; cases h
    | some c => simp only [hc] at h; cases h; exact ⟨rfl, rfl⟩

/-- QUERY reads of the latch ARG_N[15:0] only (rules R90, R148). -/
theorem queryCommand_congr {l l' : Latch} (h : l'.n.toNat % 2 ^ 16 = l.n.toNat % 2 ^ 16) (life : Life) :
    queryCommand life l' = queryCommand life l := by
  have hsym : l'.querySym = l.querySym := by rw [querySym_eq, querySym_eq, h]
  unfold queryCommand
  rw [hsym]

/-- A completion empties the latch, whatever it held (rules R55, R120). -/
theorem complete_of_lat (s : State) (l : Latch) (r : CmdResult) :
    ({ s with lat := some l } : State).complete r = s.complete r := by
  cases r <;> rfl

/-- Settles O60: QUERY's completion writes and commits nothing, and depends on the symbol queried. -/
theorem queryTouchesNothing : Obligations.QueryTouchesNothing := by
  intro s t l l' hl h
  obtain ⟨l₀, hl₀, -, rfl⟩ := exec_next h
  obtain rfl : l = l₀ := Option.some.inj (hl.symm.trans hl₀)
  obtain ⟨-, -, hside⟩ := complete_frame s (resultOf .query s l)
  have hkeep : (s.complete (resultOf .query s l)).mem = s.mem ∧ (s.complete (resultOf .query s l)).life = s.life ∧
      (s.complete (resultOf .query s l)).nsym = s.nsym := by
    cases hr : resultOf .query s l with
    | error e info => exact ⟨rfl, rfl, rfl⟩
    | ok r =>
      obtain ⟨hout, hcommit⟩ := queryCommand_frame hr
      simp only [State.complete, State.completeOk_mem, State.completeOk_life, State.completeOk_nsym, hout, hcommit]
      exact ⟨rfl, rfl, rfl⟩
  obtain ⟨hmem, hlife, hnsym⟩ := hkeep
  refine ⟨hmem, hlife, hnsym, hside, fun hn => ?_⟩
  rw [exec_eq (l := l') rfl rfl, complete_of_lat]
  exact congrArg (fun r => Host.Outcome.next (s.complete r)) (queryCommand_congr hn s.life)

/-! ### What ENCODE reports (rules R128, R160) -/

/-- The error a result names, none for success. -/
def CmdResult.error? : CmdResult → Option CmdError
  | .ok _ => none
  | .error e _ => some e

/-- STATUS reports the error the command ends with (rules R121, R152). -/
theorem complete_err (s : State) (r : CmdResult) : (s.complete r).err = r.error? := by
  cases r <;> rfl

theorem overlaps_iff (r q : Region) : r.overlaps q = true ↔ ¬ RangesDisjoint r.base r.len q.base q.len := by
  rw [← overlaps_eq_false_iff, Bool.not_eq_false]

/-- A failing argument check is what ENCODE reports. -/
theorem encode_err_of_argError {s : State} {l : Latch} {e : CmdError} (h : encodeArgError s.params l = some e) :
    (s.complete (resultOf .encode s l)).err = some e := by
  rw [resultOf, encodeCommand_argError h]
  rfl

/-- ENCODE of at least one sample whose argument checks pass is decided by the table it chooses (rules R130, R131). -/
theorem resultOf_encode_samples {s : State} {l : Latch} (ha : EncodeArgsOk s.params l) (hn : l.n.toNat ≠ 0) :
    resultOf .encode s l = match chooseTable s.life (s.samples l) with
      | .error e info => .error e info
      | .use table commit => emitStream s.params l (codesOf table (s.samples l)) commit := by
  rw [resultOf, encodeCommand_of_args ha, if_neg hn]
  rfl

/-- The first check of the output that fails for a stream of `b` bits (rules R71, R72, R136, R160). -/
def encodeOutputError (p : Params) (l : Latch) (b : Nat) : Option CmdError :=
  if l.cap.toNat < wordCount p b then some .capacity
  else if dmaSize p < l.dst.toNat + wordCount p b * wordBytes p then some .rangeDst
  else if ¬ RangesDisjoint l.src.toNat (2 * l.n.toNat) l.dst.toNat (wordCount p b * wordBytes p) then some .overlap
  else none

theorem emitStream_error? (p : Params) (l : Latch) (bits : Bits) (commit : Option (Tree × CodeTable)) :
    (emitStream p l bits commit).error? = encodeOutputError p l bits.length := by
  have ho : (sampleRegion l.src.toNat l.n.toNat).overlaps (packedRegion p l.dst.toNat (wordCount p bits.length)) = true ↔
      ¬ RangesDisjoint l.src.toNat (2 * l.n.toNat) l.dst.toNat (wordCount p bits.length * wordBytes p) := overlaps_iff _ _
  rw [emitStream_eq, encodeOutputError]
  simp only [ho]
  split_ifs <;> rfl

/-- With a table chosen, ENCODE reports what the checks of its output report. -/
theorem encode_err_of_use {s : State} {l : Latch} {table : CodeTable} {commit : Option (Tree × CodeTable)}
    (ha : EncodeArgsOk s.params l) (hn : l.n.toNat ≠ 0) (hc : chooseTable s.life (s.samples l) = .use table commit) :
    (s.complete (resultOf .encode s l)).err = encodeOutputError s.params l (codesOf table (s.samples l)).length := by
  rw [complete_err, resultOf_encode_samples ha hn, hc]
  exact emitStream_error? _ _ _ _

/-- A sample without a code in the cached table is UNKNOWN_SYMBOL (rule R131). -/
theorem chooseTable_ready_absent {tree : Tree} {table : CodeTable} {xs : List Symbol}
    (h : ∃ x ∈ xs, CodeTable.code table x = none) :
    ∃ info, chooseTable (.ready tree table) xs = .error .unknownSymbol info := by
  obtain ⟨x, hx, hnone⟩ := h
  cases hf : firstAbsent table 0 xs with
  | some e => exact ⟨e.1 + e.2.toNat * 2 ^ 32, by rw [chooseTable, hf]⟩
  | none =>
    have hsome := (firstAbsent_eq_none_iff table xs 0).mp hf x hx
    rw [hnone] at hsome
    cases hsome

theorem encode_err_of_absent {s : State} {l : Latch} {tree : Tree} {table : CodeTable} (ha : EncodeArgsOk s.params l)
    (hn : l.n.toNat ≠ 0) (hl : s.life = .ready tree table) (h : ∃ x ∈ s.samples l, CodeTable.code table x = none) :
    (s.complete (resultOf .encode s l)).err = some .unknownSymbol := by
  obtain ⟨info, hc⟩ := chooseTable_ready_absent (tree := tree) h
  rw [resultOf_encode_samples ha hn, hl, hc]
  rfl

/-- Every sample has a code, or some sample has none. -/
theorem covered_iff (table : CodeTable) (xs : List Symbol) :
    (∀ x ∈ xs, (CodeTable.code table x).isSome) ↔ ¬ ∃ x ∈ xs, CodeTable.code table x = none := by
  simp [Option.isSome_iff_ne_none]

/-- ENCODE's argument checks in the order of rule R160, around whatever comes after them. -/
theorem encodeArgs_report {p : Params} {l : Latch} {reported : Option CmdError} {P : Prop}
    (hbad : ∀ e, encodeArgError p l = some e → reported = some e) (hok : EncodeArgsOk p l → P) :
    if l.src.toNat = 0 then reported = some .nullSrc
    else if l.dst.toNat = 0 then reported = some .nullDst
    else if l.src.toNat % 2 ≠ 0 then reported = some .misalignedSrc
    else if l.dst.toNat % wordBytes p ≠ 0 then reported = some .misalignedDst
    else if dmaSize p < l.src.toNat + 2 * l.n.toNat then reported = some .rangeSrc
    else P := by
  have harg := encodeArgError_eq p l
  split_ifs at harg ⊢
  any_goals exact hbad _ harg
  exact hok ((encodeArgError_eq_none_iff p l).mp harg)

/-- Settles O39: the argument checks first, then the table, then the checks of the output. -/
theorem encodeReportsFirstError : Obligations.EncodeReportsFirstError := by
  intro s l hl
  have hadm := encodeAdmitted_iff s l
  refine ⟨fun ha => hadm.mpr fun hok => absurd hok ha, fun ha hw => ?_, fun hw hna => ?_, fun hadmitted => ?_⟩
  · rw [exec_cases hl, if_neg fun h => hw (hadm.mp h ha).1]
  · rw [complete_err]
    cases hr : encodeCommand s.params s.life s.mem l with
    | ok r => rfl
    | error e info =>
      have hclear : commandAdmitted .encode s l = true := hadm.mpr fun _ => ⟨hw, fun r h => by rw [hr] at h; cases h⟩
      rw [hna] at hclear
      cases hclear
  · refine ⟨_, exec_eq hl hadmitted, ?_⟩
    refine encodeArgs_report (fun e => encode_err_of_argError) fun ha => ?_
    by_cases hn : l.n.toNat = 0
    · rw [if_pos hn, resultOf, encodeCommand_of_args ha, if_pos hn]
      rfl
    rw [if_neg hn]
    cases hlife : s.life with
    | uninitialized =>
      obtain ⟨tree, hb, hc, hcov⟩ := chooseTable_uninitialized (samples_ne_nil (s := s) hn)
      refine ⟨derive tree, ⟨tree, hb, rfl⟩, ?_⟩
      rw [if_neg ((covered_iff _ _).mp hcov), encode_err_of_use ha hn (hlife ▸ hc), encodeOutputError]
      split_ifs <;> rfl
    | ready tree cached =>
      refine ⟨cached, rfl, ?_⟩
      by_cases hx : ∃ x ∈ s.samples l, CodeTable.code cached x = none
      · rw [if_pos hx, encode_err_of_absent ha hn hlife hx]
      · have hc := chooseTable_ready (tree := tree) ((covered_iff _ _).mpr hx)
        rw [if_neg hx, encode_err_of_use ha hn (hlife ▸ hc), encodeOutputError]
        split_ifs <;> rfl

/-! ### What DECODE reports (rules R139, R160) -/

theorem decode_err_of_argError {s : State} {l : Latch} {e : CmdError} (h : decodeArgError s.params l = some e) :
    (s.complete (resultOf .decode s l)).err = some e := by
  unfold resultOf decodeCommand
  rw [h]
  rfl

/-- CORRUPT_STREAM has three DETAIL codes (rules R153, R154). -/
theorem CmdError.eq_of_code_three {e : CmdError} (h : e.code = 3) :
    e = .midCode ∨ e = .shortStream ∨ e = .leftoverBits := by
  cases e <;> simp_all [CmdError.code]

/-- The walk's own errors are CORRUPT_STREAM (rules R143, R144). -/
theorem decode_err_ready {s : State} {l : Latch} {tree : Tree} {table : CodeTable} (ha : DecodeArgsOk s.params l)
    (h0 : ¬(l.n.toNat = 0 ∧ l.bitcnt.toNat = 0)) (hl : s.life = .ready tree table) :
    (s.complete (resultOf .decode s l)).err = none ∨ (s.complete (resultOf .decode s l)).err = some .midCode ∨
      (s.complete (resultOf .decode s l)).err = some .shortStream ∨
      (s.complete (resultOf .decode s l)).err = some .leftoverBits := by
  rw [complete_err, resultOf, decodeCommand_of_args ha, if_neg h0, hl]
  simp only
  cases hd : decodeBits tree (inputBits s.params s.mem l) l.n.toNat with
  | ok out => exact .inl rfl
  | error e consumed =>
    refine .inr ?_
    simpa [CmdResult.error?] using CmdError.eq_of_code_three (decodeBits_error_code hd)

/-- DECODE's argument checks in the order of rule R160, around whatever comes after them. -/
theorem decodeArgs_report {p : Params} {l : Latch} {reported : Option CmdError} {P : Prop}
    (hbad : ∀ e, decodeArgError p l = some e → reported = some e) (hok : DecodeArgsOk p l → P) :
    if l.src.toNat = 0 then reported = some .nullSrc
    else if l.dst.toNat = 0 then reported = some .nullDst
    else if l.src.toNat % wordBytes p ≠ 0 then reported = some .misalignedSrc
    else if l.dst.toNat % 2 ≠ 0 then reported = some .misalignedDst
    else if dmaSize p < l.src.toNat + wordCount p l.bitcnt.toNat * wordBytes p then reported = some .rangeSrc
    else if dmaSize p < l.dst.toNat + 2 * l.n.toNat then reported = some .rangeDst
    else if ¬ RangesDisjoint l.src.toNat (wordCount p l.bitcnt.toNat * wordBytes p) l.dst.toNat (2 * l.n.toNat) then
      reported = some .overlap
    else P := by
  have ho : (packedRegion p l.src.toNat (wordCount p l.bitcnt.toNat)).overlaps (sampleRegion l.dst.toNat l.n.toNat) = true ↔
      ¬ RangesDisjoint l.src.toNat (wordCount p l.bitcnt.toNat * wordBytes p) l.dst.toNat (2 * l.n.toNat) := overlaps_iff _ _
  have harg := decodeArgError_eq p l
  simp only [ho] at harg
  split_ifs at harg ⊢
  any_goals exact hbad _ harg
  exact hok ((decodeArgError_eq_none_iff p l).mp harg)

/-- Settles O49: the argument checks, then nothing to decode, then the lifecycle, then the walk. -/
theorem decodeReportsFirstError : Obligations.DecodeReportsFirstError := by
  intro s l hl
  have hadm := decodeAdmitted_iff s l
  refine ⟨fun ha hw => ?_, fun h => ?_⟩
  · rw [exec_cases hl, if_neg fun h => hw (hadm.mp h ha)]
  · refine ⟨_, exec_eq hl (hadm.mpr fun ha => h.resolve_left (not_not.mpr ha)), ?_⟩
    refine decodeArgs_report (fun e => decode_err_of_argError) fun ha => ?_
    by_cases h0 : l.n.toNat = 0 ∧ l.bitcnt.toNat = 0
    · rw [if_pos h0, resultOf, decodeCommand_of_args ha, if_pos h0]
      rfl
    rw [if_neg h0]
    cases hlife : s.life with
    | uninitialized =>
      rw [resultOf, decodeCommand_of_args ha, if_neg h0, hlife]
      rfl
    | ready tree table => exact decode_err_ready ha h0 hlife

/-! ### ENCODE that fits (rules R121, R130, R131, R137) -/

/-- The state after an ENCODE that succeeds, field by field (rules R121, R137). -/
theorem completeOk_encodeOk (s : State) (l : Latch) (bits : Bits) (commit : Option (Tree × CodeTable)) :
    s.completeOk (encodeOk s.params l bits commit) = { s with
      lat := none, done := true, err := none, errinfo := 0
      mem := writeElems (wordBytes s.params) s.mem l.dst.toNat
        (packWords (wordBits s.params) (wordCount s.params bits.length) bits)
      resBitcnt := BitVec.ofNat 64 bits.length
      resWordcnt := BitVec.ofNat 32 (wordCount s.params bits.length)
      resSymcnt := l.n, resCodelen := 0, resCode := 0
      life := committedLife s.life commit, nsym := committedNsym s.nsym commit } := by
  have hn : BitVec.ofNat 32 l.n.toNat = l.n := (BitVec.ofNat_toNat _ _).trans (BitVec.setWidth_eq _)
  rw [State.completeOk, encodeOk, hn]
  rfl

/-- With a table chosen and an output that fits, only the register window can stop ENCODE (rule R63). -/
theorem execEncode_fits {s : State} {l : Latch} {table : CodeTable} {commit : Option (Tree × CodeTable)}
    (hl : s.lat = some l) (ha : EncodeArgsOk s.params l) (hn : l.n.toNat ≠ 0)
    (hc : chooseTable s.life (s.samples l) = .use table commit)
    (hf : EncodeFits s.params l (codesOf table (s.samples l)).length) :
    (¬ EncodeClear s.params l (codesOf table (s.samples l)).length → exec .encode s = .refused .windowInRegion) ∧
    (EncodeClear s.params l (codesOf table (s.samples l)).length →
      exec .encode s = .next (s.completeOk (encodeOk s.params l (codesOf table (s.samples l)) commit))) := by
  obtain ⟨hr, hadm⟩ := encodeAdmitted_fits ha hn hc hf
  rw [exec_cases hl, hr]
  exact ⟨fun h => if_neg fun h' => h (hadm.mp h'), fun h => if_pos (hadm.mpr h)⟩

theorem word_toNat_ne_zero {w : Word} (h : w ≠ 0) : w.toNat ≠ 0 :=
  fun h0 => h (BitVec.eq_of_toNat_eq h0)

/-- Settles O41: BUILD always has a tree of at least one sample, whose table is committed. -/
theorem primingEncodeCompletes : Obligations.PrimingEncodeCompletes := by
  intro s l hl hu ha hn
  have hn' := word_toNat_ne_zero hn
  obtain ⟨tree, hb, hc, hcov⟩ := chooseTable_uninitialized (samples_ne_nil (s := s) hn')
  rw [← hu] at hc
  refine ⟨tree, hb, fun x hx => Option.isSome_iff_exists.mp (hcov x hx), fun hf => (execEncode_fits hl ha hn' hc hf).1,
    fun hf hclear => ?_⟩
  rw [(execEncode_fits hl ha hn' hc hf).2 hclear, completeOk_encodeOk]
  rfl

/-- Settles O42: the cached table is the one chosen, and nothing is committed. -/
theorem readyEncodeCompletes : Obligations.ReadyEncodeCompletes := by
  intro s l tree table hl hlife ha hn hcov hf
  have hc := chooseTable_ready (tree := tree) fun x hx => Option.isSome_iff_exists.mpr (hcov x hx)
  rw [← hlife] at hc
  obtain ⟨hrefused, hnext⟩ := execEncode_fits hl ha (word_toNat_ne_zero hn) hc hf
  refine ⟨hrefused, fun hclear => ?_⟩
  rw [hnext hclear, completeOk_encodeOk]
  rfl

/-! ### The words and bytes ENCODE leaves (rules R65, R66, R68, R133) -/

/-- What a successful ENCODE of at least one sample leaves: its counters and the image of its stream at dst. -/
theorem execEncode_image {s t : State} {l : Latch} (hl : s.lat = some l) (hn : l.n ≠ 0) (h : exec .encode s = .next t)
    (he : t.err = none) : ∃ tree table, t.life = .ready tree table ∧
      t.resBitcnt.toNat = (codesOf table (s.samples l)).length ∧
      t.resWordcnt.toNat = wordCount s.params (codesOf table (s.samples l)).length ∧
      ∀ i < t.resWordcnt.toNat * wordBits s.params,
        streamBit t.mem l.dst.toNat i = (codesOf table (s.samples l)).getD i false := by
  obtain ⟨table, commit, hc, hfits, rfl⟩ := execEncode_success hl (word_toNat_ne_zero hn) h he
  obtain ⟨tree, hlife⟩ := committedLife_of_chooseTable hc
  obtain ⟨hb, hw⟩ := hfits.bounds
  have hwords : (s.completeOk (encodeOk s.params l (codesOf table (s.samples l)) commit)).resWordcnt.toNat =
      wordCount s.params (codesOf table (s.samples l)).length := by
    rw [State.completeOk_resWordcnt, BitVec.toNat_ofNat]
    exact Nat.mod_eq_of_lt hw
  refine ⟨tree, table, hlife, ?_, hwords, fun i hi => ?_⟩
  · rw [State.completeOk_resBitcnt, BitVec.toNat_ofNat]
    exact Nat.mod_eq_of_lt (lt_trans hb (by decide))
  · rw [hwords] at hi
    exact streamBit_packWords _ _ _ _ _ _ hi

/-- A word on, the byte image is the same image from the word's first bit on (rule R66). -/
theorem streamBit_word (p : Params) (m : Memory) (a k b : Nat) :
    streamBit m (a + k * wordBytes p) b = streamBit m a (k * wordBits p + b) := by
  have hbits : k * wordBits p = 8 * (k * wordBytes p) := by rw [wordBits_eq]; ring
  have hdiv : (8 * (k * wordBytes p) + b) / 8 = k * wordBytes p + b / 8 := by omega
  have hmod : (8 * (k * wordBytes p) + b) % 8 = b % 8 := by omega
  rw [streamBit, streamBit, hbits, hdiv, hmod, Nat.add_assoc]

/-- Settles O46: bit b of word k is bit k·W + b of the byte image. -/
theorem encodePacksTheStream : Obligations.EncodePacksTheStream := by
  intro s t l hl hn h he
  obtain ⟨tree, table, hlife, -, hwords, himage⟩ := execEncode_image hl hn h he
  refine ⟨tree, table, hlife, hwords, fun k b hk hb => ?_⟩
  have hin : k * wordBits s.params + b < t.resWordcnt.toNat * wordBits s.params :=
    calc k * wordBits s.params + b < (k + 1) * wordBits s.params := by rw [Nat.succ_mul]; omega
      _ ≤ t.resWordcnt.toNat * wordBits s.params := Nat.mul_le_mul_right _ hk
  rw [testBit_memRead _ _ _ _ (wordBits_eq s.params ▸ hb), streamBit_word, himage _ hin]

/-- Settles O47: every stream bit lies in the words counted. -/
theorem packedBytesAreTheStream : Obligations.PackedBytesAreTheStream := by
  intro s t l hl hn h he
  obtain ⟨tree, table, hlife, hbits, hwords, himage⟩ := execEncode_image hl hn h he
  refine ⟨tree, table, hlife, hbits, fun i hi => himage i ?_⟩
  rw [hwords]
  exact lt_of_lt_of_le (hbits ▸ hi) (le_wordCount_mul s.params _)

/-- ENCODE writes the words it reports at dst, where it succeeds (rules R68, R121). -/
theorem encodeCommand_frame {p : Params} {life : Life} {mem : Memory} {l : Latch} {r : CmdOk}
    (h : encodeCommand p life mem l = .ok r) : r.wordcnt < 2 ^ 32 ∧
      (r.out = [] ∨ (r.outAddr = l.dst.toNat ∧ r.outSize * r.out.length = r.wordcnt * wordBytes p)) := by
  obtain ⟨-, ⟨-, rfl⟩ | ⟨-, table, commit, -, hfits, rfl⟩⟩ := encodeCommand_ok h
  · exact ⟨by decide, .inl rfl⟩
  · refine ⟨hfits.bounds.2, .inr ⟨rfl, ?_⟩⟩
    simp only [encodeOk, packWords_length, Nat.mul_comm]

/-- Settles O48: an error writes nothing, a success only the words it reports. -/
theorem encodeMemoryFrame : Obligations.EncodeMemoryFrame := by
  intro s t l hl h a ha
  obtain ⟨l', hl', -, rfl⟩ := exec_next h
  obtain rfl : l = l' := Option.some.inj (hl.symm.trans hl')
  cases hr : resultOf .encode s l with
  | error e info => rfl
  | ok r =>
    obtain ⟨hlt, hout⟩ := encodeCommand_frame hr
    rw [hr] at ha
    simp only [State.complete, State.completeOk_resWordcnt, State.completeOk_mem, BitVec.toNat_ofNat,
      Nat.mod_eq_of_lt hlt] at ha ⊢
    rcases hout with hnil | ⟨haddr, hlen⟩
    · rw [hnil]; rfl
    · refine read_writeElems_outside _ _ _ _ _ ?_
      rwa [haddr, hlen]

end Sys2Proof.Machine

/-! PROOFS. The family 30_encoding.md: the command word, how an illegal one completes, and a host that polls and waits. -/
namespace Sys2Proof.Machine

/-! ### The opcode map (rules R87, R88) -/

/-- The encoder's word of a command decodes to it (rule R88). -/
theorem decode_encode (i : Instr) : decode (encode i) = .command i := by
  cases i <;> decide

/-- Settles O2: the encoder's word decodes back, and no word but it decodes to the command. -/
theorem decodeInvertsEncode : Obligations.DecodeInvertsEncode := by
  intro i _ w
  constructor
  · exact eq_encode_of_decode
  · rintro rfl
    exact decode_encode i

theorem rsvField_eq_zero_iff (w : Word) : rsvField w = 0 ↔ w.toNat / 16 = 0 := by
  have hw := w.isLt
  rw [← BitVec.toNat_inj, rsvField, BitVec.extractLsb'_toNat, Nat.shiftRight_eq_div_pow, Nat.mod_eq_of_lt (by omega)]
  rfl

theorem opField_eq_iff (w : Word) (k : BitVec 4) : opField w = k ↔ w.toNat % 16 = k.toNat := by
  rw [← BitVec.toNat_inj, opField, BitVec.extractLsb'_toNat]
  rfl

/-- The opcode map in the numbers of rule R88: RSV is the word div 16, OP the word mod 16. -/
theorem decode_eq (w : Word) : decode w =
    if w.toNat / 16 ≠ 0 then .illegal .reservedBits
    else if w.toNat % 16 = 1 then .command .encode
    else if w.toNat % 16 = 2 then .command .decode
    else if w.toNat % 16 = 3 then .command .query
    else .illegal .reservedOp := by
  simp only [decode, ne_eq, rsvField_eq_zero_iff, opField_eq_iff]
  rfl

/-- A word of a command's row decodes to it, and is the one word that does (rule R88). -/
theorem decode_row {w : Word} (i : Instr) (hrsv : w.toNat / 16 = 0) (hop : w.toNat % 16 = (opCode i).toNat) :
    decode w = .command i ∧ w = encode i := by
  have hd : decode w = .command i := by
    rw [decode_eq, if_neg (not_not.mpr hrsv), hop]
    cases i <;> rfl
  exact ⟨hd, eq_encode_of_decode hd⟩

/-- Settles O1: row by row of the opcode map. -/
theorem opcodeMapIsTotal : Obligations.OpcodeMapIsTotal := by
  intro w
  refine ⟨fun hrsv => ?_, decode_row .encode, decode_row .decode, decode_row .query, fun hrsv hop => ?_, fun why => ?_⟩
  · rw [decode_eq, if_pos hrsv]
  · rw [decode_eq]
    simp (disch := omega) only [if_neg]
  · cases why <;> exact ⟨rfl, rfl⟩

/-- Settles O3: by evaluating the decoder on the words. -/
theorem writtenWordsDecode : Obligations.WrittenWordsDecode := by
  unfold Obligations.WrittenWordsDecode
  decide

/-! ### The turn a step takes (rule R161) -/

theorem step_unlisted {s : State} (h : s.turns = []) : step s = coreTurn s := by
  rw [step, h]

theorem step_core {s : State} {rest : List Turn} (h : s.turns = .core :: rest) :
    step s = coreTurn { s with turns := rest } := by
  rw [step, h]

theorem step_host {s : State} {x : HostStep} {rest : List Turn} (h : s.turns = .host x :: rest) :
    step s = hostStep x { s with turns := rest } := by
  rw [step, h]

/-! ### Illegal words (rules R89, R158) -/

/-- A word none of the three commands has is illegal; RSV decides which row it falls in (rules R88, R89). -/
theorem decode_illegal {w : Word} (h : ∀ i, w ≠ encode i) :
    decode w = .illegal (if w.toNat / 16 ≠ 0 then .reservedBits else .reservedOp) := by
  cases hd : decode w with
  | command i => exact absurd (eq_encode_of_decode hd) (h i)
  | illegal why =>
    rw [decode_eq] at hd
    split_ifs at hd ⊢ <;> cases hd <;> rfl

/-- raise Err as one state: the error record, every result 0, the latch empty (rules R120, R152). -/
theorem State.raiseErr_eq_failedWith (s : State) (e : CmdError) (info : Nat) :
    s.raiseErr e info = s.failedWith e (BitVec.ofNat 64 info) := rfl

/-- The Core's turn on an illegal word: the error of its row, with the word in ERRINFO (rules R122, R158). -/
theorem coreTurn_illegal {s : State} {l : Latch} {why : IllegalWord} (hl : s.lat = some l)
    (hd : decode l.op = .illegal why) : coreTurn s = .next (s.failedWith (illegalError why) (l.op.zeroExtend 64)) := by
  rw [coreTurn_some hl, if_pos (wordAdmitted_illegal hd), resultOfWord, hd]
  simp only [State.complete, State.raiseErr_eq_failedWith, BitVec.ofNat_toNat]

/-- Settles O6: the word is illegal, and its completion is the Core's turn, listed or not. -/
theorem illegalWordCompletes : Obligations.IllegalWordCompletes := by
  intro s l e hl h1 h2 h3 he
  have hd := decode_illegal (w := l.op) fun | .encode => h1 | .decode => h2 | .query => h3
  have hturn (rest : List Turn) := coreTurn_illegal (s := { s with turns := rest }) hl hd
  have he' : e = illegalError (if l.op.toNat / 16 ≠ 0 then .reservedBits else .reservedOp) := by
    rw [he, apply_ite illegalError]
    rfl
  rw [← he'] at hturn
  refine ⟨hturn s.turns, fun h => (step_unlisted h).trans (hturn s.turns), fun rest h => (step_core h).trans (hturn rest),
    ?_, ?_⟩
  · rw [he]; split_ifs <;> rfl
  · rw [he]; split_ifs <;> rfl

/-! ### A host that polls and waits (rule R92) -/

theorem scriptWait_zero : scriptWait 0 = [.core, .host (.regRead .word 0x0C)] := rfl

theorem scriptWait_succ (k : Nat) : scriptWait (k + 1) = .host (.regRead .word 0x0C) :: scriptWait k := rfl

/-- A read of STATUS that is listed first (rule R117). -/
theorem step_statusRead {s : State} {rest : List Turn} (h : s.turns = .host (.regRead .word 0x0C) :: rest) :
    step s = .next (({ s with turns := rest } : State).readReg .status) := by
  rw [step_host h, hostStep, hostRegRead_word (by decide) (by decide)]
  rfl

/-- Whether the word is admitted does not depend on what a register read changes (rules R63, R117). -/
theorem wordAdmitted_readReg (s : State) (r : Reg) (l : Latch) : wordAdmitted (s.readReg r) l = wordAdmitted s l := by
  rw [readReg_keeps]
  rfl

/-- A poll leaves the command in flight as it is, and the turns after it (rules R55, R117). -/
theorem step_poll {s : State} {l : Latch} {rest : List Turn} (hl : s.lat = some l) (ha : wordAdmitted s l = true)
    (ht : s.turns = .host (.regRead .word 0x0C) :: rest) :
    ∃ t, step s = .next t ∧ t.lat = some l ∧ wordAdmitted t l = true ∧ t.turns = rest := by
  refine ⟨_, step_statusRead ht, ?_, ?_, ?_⟩
  · rw [readReg_keeps]
    exact hl
  · rw [wordAdmitted_readReg]
    exact ha
  · rw [readReg_keeps]

/-- The Core's turn on an admitted word ends the command and takes no turn but its own (rules R120, R124). -/
theorem step_completes {s : State} {l : Latch} {rest : List Turn} (hl : s.lat = some l) (ha : wordAdmitted s l = true)
    (ht : s.turns = .core :: rest) : ∃ t, step s = .next t ∧ t.lat = none ∧ t.done = true ∧ t.turns = rest := by
  have hs := (step_core ht).trans ((coreTurn_some (s := { s with turns := rest }) hl).trans (if_pos ha))
  obtain ⟨hlat, hdone, -⟩ := complete_frame { s with turns := rest } (resultOfWord { s with turns := rest } l)
  exact ⟨_, hs, hlat, hdone, (step_turns hs).trans (by rw [ht, List.tail_cons])⟩

/-- A read of STATUS with no command in flight shows BUSY = 0 and DONE, and leaves none in flight (rules R31, R32). -/
theorem statusRead_idle {s : State} (hl : s.lat = none) : (s.readReg .status).lat = none ∧
    (s.readReg .status).rdata.getLsbD 0 = false ∧ (s.readReg .status).rdata.getLsbD 1 = s.done := by
  rw [readReg_idle hl]
  refine ⟨hl, (s.statusWord_getLsbD 0).trans ?_, s.statusWord_getLsbD 1⟩
  show s.busy = false
  rw [State.busy, hl]
  rfl

/-- Settles O29: by induction on the polls; the completion and the last read are the end of every wait. -/
theorem pollingHostSeesCompletion : Obligations.PollingHostSeesCompletion := by
  intro k
  induction k with
  | zero =>
    intro s l hl ha ht
    obtain ⟨u, hs, hlat, hdone, hturns⟩ := step_completes hl ha (ht.trans scriptWait_zero)
    obtain ⟨hlat', hbusy, hdone'⟩ := statusRead_idle (s := { u with turns := [] }) hlat
    exact ⟨_, (run_next hs).trans (run_next (step_statusRead hturns)), hlat', hbusy, hdone'.trans hdone⟩
  | succ k ih =>
    intro s l hl ha ht
    obtain ⟨u, hs, hlat, hadm, hturns⟩ := step_poll hl ha (ht.trans (scriptWait_succ k))
    obtain ⟨t, hrun, hend⟩ := ih u l hlat hadm hturns
    exact ⟨t, (run_next hs).trans hrun, hend⟩

end Sys2Proof.Machine

/-! PROOFS. The family 40_frequency_and_tree.md: the leaves COUNT gives, one turn of BUILD's loop, and the completeness of the
codes. -/
namespace Sys2Proof.Machine

/-! ### The leaves of the samples (rules R94, R97, R99) -/

/-- COUNT's table in full (rules R94, R97): the entries `find_count` gives, and no others. -/
theorem mem_count_iff {samples : List Symbol} {e : Nat × Nat} :
    e ∈ count samples ↔ ∃ x ∈ samples, e = (x.toNat, samples.count x) := by
  obtain ⟨hr, hg⟩ := count_good samples
  constructor
  · intro he
    have hx : BitVec.ofNat 16 e.1 ∈ samples := (mem_symbols_count _).mp (List.mem_map_of_mem he)
    have hk : (BitVec.ofNat 16 e.1).toNat = e.1 := by rw [BitVec.toNat_ofNat, Nat.mod_eq_of_lt (hg e he).1]
    have hf := find_count samples (BitVec.ofNat 16 e.1)
    rw [if_pos hx, hk, (Assoc.find_eq_some_iff hr e.1 e.2).mpr he] at hf
    exact ⟨_, hx, Prod.ext hk.symm (Option.some.inj hf)⟩
  · rintro ⟨x, hx, rfl⟩
    exact (Assoc.find_eq_some_iff hr _ _).mp ((find_count samples x).trans (if_pos hx))

/-- COUNT's keys and the samples without repetition are one set, listed once each. -/
theorem count_length (samples : List Symbol) : (count samples).length = samples.dedup.length := by
  have hp : ((count samples).map fun e => (BitVec.ofNat 16 e.1 : Symbol)).Perm samples.dedup :=
    (List.perm_ext_iff_of_nodup (ofNat_keys_nodup (count_good samples)) samples.nodup_dedup).mpr fun x => by
      rw [mem_symbols_count, List.mem_dedup]
  rw [← hp.length_eq, List.length_map]

theorem leavesFrom_symbols (f : FreqTable) : ∀ k,
    (leavesFrom k f).map Tree.symbols = f.map fun e => [BitVec.ofNat 16 e.1] := by
  induction f with
  | nil => intro k; rfl
  | cons e f ih => intro k; rw [leavesFrom, List.map_cons, ih]; rfl

/-- The leaves' symbols rise as the keys of the frequency table do. -/
theorem leavesFrom_ascend {f : FreqTable} (hf : f.Good) (k : Nat) :
    (leavesFrom k f).Pairwise fun x y => ∀ a ∈ x.symbols, ∀ b ∈ y.symbols, a.toNat < b.toNat := by
  obtain ⟨hr, hg⟩ := hf
  rw [← List.pairwise_map (R := fun xs ys : List Symbol => ∀ a ∈ xs, ∀ b ∈ ys, a.toNat < b.toNat), leavesFrom_symbols,
    List.pairwise_map]
  refine hr.imp_of_mem fun {d e} hd he hlt a ha b hb => ?_
  obtain rfl := List.mem_singleton.mp ha
  obtain rfl := List.mem_singleton.mp hb
  rwa [BitVec.toNat_ofNat, BitVec.toNat_ofNat, Nat.mod_eq_of_lt (hg d hd).1, Nat.mod_eq_of_lt (hg e he).1]

theorem leaf_of_getElem? {samples : List Symbol} {k : Nat} {t : Tree} (h : (leavesFrom 0 (count samples))[k]? = some t) :
    ∃ x ∈ samples, t = .leaf k x (samples.count x) := by
  rw [leavesFrom_getElem?] at h
  obtain ⟨e, he, rfl⟩ := Option.map_eq_some_iff.mp h
  obtain ⟨x, hx, rfl⟩ := mem_count_iff.mp (List.mem_of_getElem? he)
  exact ⟨x, hx, by simp⟩

theorem exists_leaf_of_mem {samples : List Symbol} {x : Symbol} (hx : x ∈ samples) :
    ∃ k, (leavesFrom 0 (count samples))[k]? = some (Tree.leaf k x (samples.count x)) := by
  obtain ⟨k, hk⟩ := List.mem_iff_getElem?.mp (mem_count_iff.mpr ⟨x, hx, rfl⟩)
  exact ⟨k, by rw [leavesFrom_getElem?, hk]; simp⟩

/-- Settles O33: the leaves list COUNT's entries, whose keys rise. -/
theorem leavesAscendWithCounts : Obligations.LeavesAscendWithCounts := fun samples =>
  ⟨leavesFrom_ascend (count_good samples) 0, fun _ _ => leaf_of_getElem?, fun _ => exists_leaf_of_mem,
    (leavesFrom_length _ 0).trans (count_length samples)⟩

/-! ### One turn of BUILD's loop (rules R100, R101) -/

/-- Keys are totally ordered where indices differ: a key that is not above another is strictly below it. -/
theorem key_lt_of_not_keyBelow {q r : Tree} (h : keyBelow r q = false) (hi : q.idx ≠ r.idx) :
    q.freq < r.freq ∨ (q.freq = r.freq ∧ q.idx < r.idx) := by
  rw [Bool.eq_false_iff, Ne, keyBelow_iff] at h
  omega

/-- Settles O34: the least keys are strictly least, since the popped nodes' indices differ from the others'. -/
theorem buildTurnTakesLeastTwo : Obligations.BuildTurnTakesLeastTwo := by
  intro next t u us hn
  obtain ⟨a, b, rest, he, hp, ha, hb⟩ := combine_eq next t u us
  have hnd : ((a :: b :: rest).map Tree.idx).Nodup := (hp.map _).nodup_iff.mpr hn
  obtain ⟨hna, hnd⟩ := List.nodup_cons.mp hnd
  obtain ⟨hnb, -⟩ := List.nodup_cons.mp hnd
  exact ⟨a, b, rest, he, hp,
    fun q hq => key_lt_of_not_keyBelow (ha q hq) fun e => hna (e ▸ List.mem_map_of_mem hq),
    fun q hq => key_lt_of_not_keyBelow (hb q hq) fun e => hnb (e ▸ List.mem_map_of_mem hq)⟩

/-! ### The codes are complete (rule R114) -/

/-- The table lists the tree's paths, whose weights add up (`paths_kraft`). -/
theorem derive_kraft {t : Tree} (hn : t.symbols.Nodup) {top : Nat} (h : ∀ e ∈ derive t, e.2.length ≤ top) :
    ((derive t).map fun e => 2 ^ (top - e.2.length)).sum = 2 ^ top := by
  have hp := derive_perm t hn
  have hpaths : ∀ e ∈ t.paths, e.2.length ≤ top := fun e he =>
    h (e.1.toNat, e.2) (hp.mem_iff.mpr (List.mem_map.mpr ⟨e, he, rfl⟩))
  rw [(hp.map _).sum_eq, List.map_map]
  exact paths_kraft t top hpaths

/-- Every bit string begins with a code, or is a proper prefix of one: it is a sequence of codes before a tail that reaches no
leaf. -/
theorem code_prefix_or_extends {t : Tree} (hr : t.isLeaf = false) (hn : t.symbols.Nodup) (w : Bits) :
    (∃ x c, t.pathTo x = some c ∧ c <+: w) ∨ (∃ x c, t.pathTo x = some c ∧ w <+: c ∧ w ≠ c) := by
  obtain ⟨out, tail, hout, rfl, htail⟩ := split_codes t hr hn w.length w le_rfl
  cases out with
  | nil => exact .inr (exists_code_extending hn htail)
  | cons s out =>
    obtain ⟨c, hc⟩ := Option.isSome_iff_exists.mp ((pathTo_isSome t s).mpr (hout s List.mem_cons_self))
    refine .inl ⟨s, c, hc, ?_⟩
    rw [List.flatMap_cons, hc, Option.getD_some, List.append_assoc]
    exact List.prefix_append _ _

/-- Settles O37: the cached table is derived from a tree with distinct symbols and an internal root. -/
theorem codesAreComplete : Obligations.CodesAreComplete := by
  intro s tree table hi hl h2
  obtain ⟨hn, -, -, rfl, -⟩ := hi.ready hl
  refine ⟨fun top h => derive_kraft hn h, fun w => ?_⟩
  simp only [code_derive]
  exact code_prefix_or_extends (isLeaf_of_two_le h2) hn w

end Sys2Proof.Machine

/-! PROOFS. The family 41_code_table.md: the table stays until a reset, no code is a prefix of another, and a code is the path to
its symbol's leaf. -/
namespace Sys2Proof.Machine

/-! ### The table of every later state (rule R115) -/

/-- A step from Ready that takes no reset keeps the tree and the table (rule R25). -/
theorem step_ready_life {s t : State} (hr : s.life ≠ .uninitialized) (hreset : .host .reset ∉ s.turns)
    (h : step s = .next t) : t.life = s.life := by
  have hhead : ∀ rest, s.turns ≠ .host .reset :: rest := fun rest e => hreset (e ▸ List.mem_cons_self)
  exact ((lifecycleTransitions s t h hhead).1 hr).1

/-- A step lists no turn that was not listed (log 2). -/
theorem step_turn_not_mem {s t : State} {x : Turn} (hx : x ∉ s.turns) (h : step s = .next t) : x ∉ t.turns := fun hm =>
  hx (List.mem_of_mem_tail (step_turns h ▸ hm))

/-- Settles O23: by induction on the length of the run; each step keeps Ready, its cache, and a list of turns with no reset. -/
theorem tableStableUntilReset : Obligations.TableStableUntilReset := by
  intro k
  induction k with
  | zero =>
    intro s t _ _ hrun
    cases hrun
    rfl
  | succ k ih =>
    intro s t hr hreset hrun
    obtain ⟨u, hstep, hrest⟩ := run_succ hrun
    have hu : u.life = s.life := step_ready_life hr hreset hstep
    exact (ih u t (hu ▸ hr) (step_turn_not_mem hreset hstep) hrest).trans hu

/-! ### Prefix-freeness (rule R113) -/

/-- Settles O36: the codes are the tree's paths, which end at leaves (`pathTo_prefix_free`). -/
theorem codesArePrefixFree : Obligations.CodesArePrefixFree := by
  intro s tree table x y c d hi hl hx hy hne hcd
  obtain ⟨-, -, -, rfl, -⟩ := hi.ready hl
  rw [code_derive] at hx hy
  exact hne (pathTo_prefix_free tree hx hy hcd)

/-! ### The path to a symbol's leaf (rules R108 to R112) -/

theorem exists_pathTo_iff (t : Tree) (x : Symbol) : (∃ c, t.pathTo x = some c) ↔ x ∈ t.symbols := by
  rw [← Option.isSome_iff_exists, pathTo_isSome]

theorem pathTo_eq_none_iff (t : Tree) (x : Symbol) : t.pathTo x = none ↔ x ∉ t.symbols := by
  rw [← pathTo_isSome, Option.not_isSome_iff_eq_none]

theorem pathTo_leaf_self (i f : Nat) (x : Symbol) : (Tree.leaf i x f).pathTo x = some [] := if_pos rfl

/-- The right child's path comes first in `pathTo`, whatever the left child holds. -/
theorem pathTo_internal_right {r : Tree} {x : Symbol} {c : Bits} (h : r.pathTo x = some c) (i f : Nat) (l : Tree) :
    (Tree.internal i f l r).pathTo x = some (true :: c) := by
  rw [Tree.pathTo, h]

theorem pathTo_internal_left {l r : Tree} {x : Symbol} {c : Bits} (h : l.pathTo x = some c) (hr : x ∉ r.symbols) (i f : Nat) :
    (Tree.internal i f l r).pathTo x = some (false :: c) := by
  rw [Tree.pathTo, (pathTo_eq_none_iff r x).mpr hr, h]
  rfl

/-- A code's length between the bounds the number of leaves sets (rules R107, R111, R112). -/
theorem pathTo_length_bounds {t : Tree} {x : Symbol} {c : Bits} (h : t.pathTo x = some c) :
    c.length ≤ t.leafCount - 1 ∧ (t.leafCount = 1 → c = []) ∧ (2 ≤ t.leafCount → c ≠ []) := by
  have hlen : c.length ≤ t.leafCount - 1 := Nat.le_sub_one_of_lt (pathTo_length_lt t h)
  refine ⟨hlen, fun h1 => ?_, fun h2 => ?_⟩
  · rw [h1] at hlen
    exact List.length_eq_zero_iff.mp (Nat.le_zero.mp hlen)
  · cases t with
    | leaf i y f => cases isLeaf_of_two_le h2
    | internal i f l r => exact pathTo_internal_ne_nil h

/-- Settles O38: a code is the path to its symbol's leaf, whose first bit names the child that holds the symbol; with distinct
symbols only one child does. -/
theorem codeLengths : Obligations.CodeLengths := by
  unfold Obligations.CodeLengths
  simp only [code_derive]
  refine ⟨fun s tree table hi hl => ?_, pathTo_leaf_self, fun i f l r hn => ⟨fun x hx => ?_, fun x hx => ?_, rfl, rfl⟩⟩
  · obtain ⟨-, -, -, rfl, -⟩ := hi.ready hl
    refine ⟨rfl, fun x => ?_, fun x c h => pathTo_length_bounds ((code_derive tree x).symm.trans h)⟩
    rw [code_derive]
    exact exists_pathTo_iff tree x
  · have hxr : x ∉ r.symbols := List.disjoint_of_nodup_append hn hx
    obtain ⟨c, hc⟩ := (exists_pathTo_iff l x).mpr hx
    exact ⟨c, hc, pathTo_internal_left hc hxr i f⟩
  · obtain ⟨c, hc⟩ := (exists_pathTo_iff r x).mpr hx
    exact ⟨c, hc, pathTo_internal_right hc i f l⟩

end Sys2Proof.Machine

/-! PROOFS. The family 42_codec_lifecycle.md: what a register write does, a CMD write that is accepted, one that is dropped, and
the step that runs the latched command. -/
namespace Sys2Proof.Machine

/-! ### The effect of a register write (rule R116) -/

/-- The registers a command reports in, those open while BUSY = 1, are read-only. -/
theorem writeReg_openWhileBusy {r : Reg} (h : r.openWhileBusy = true) (s : State) (v : Word) : s.writeReg r v = s := by
  cases r <;> cases h <;> rfl

/-- A write below CTRL or above the argument registers takes no effect: ID and PARAM, the registers a command reports in, and
the reserved offsets. -/
theorem writeReg_ofOffset_readOnly {o : Nat} (h4 : o % 4 = 0) (h : o < 0x08 ∨ 0x28 < o) (s : State) (v : Word) :
    s.writeReg (Reg.ofOffset o) v = s := by
  obtain rfl | rfl | hres | hrsv : o = 0x00 ∨ o = 0x04 ∨ (0x2C ≤ o ∧ o ≤ 0x50) ∨ 0x54 ≤ o := by omega
  · rfl
  · rfl
  · exact writeReg_openWhileBusy ((Reg.openWhileBusy_ofOffset h4).trans (decide_eq_true hres)) s v
  · rw [Reg.ofOffset_reserved hrsv]
    rfl

/-- A one written to DONE or DROPPED clears it; a zero leaves it (rules R32, R34). -/
theorem writeStatus_eq (s : State) (v : Word) : s.writeStatus v = { s with
    done := if v.getLsbD 1 then false else s.done
    dropped := if v.getLsbD 3 then false else s.dropped } := by
  simp only [State.writeStatus, Bool.if_false_left, Bool.decide_eq_true, Bool.and_comm]

theorem hostRegWrite_cmd_idle {s : State} (h : s.lat = none) (v : Word) : hostRegWrite .word 0x10 v s = .next (s.accept v) :=
  (hostRegWrite_word (by decide) (by decide) v s).trans (congrArg _ (writeCmd_idle h v))

theorem hostRegWrite_cmd_busy {s : State} (h : s.lat ≠ none) (v : Word) : hostRegWrite .word 0x10 v s = .next s.dropCmd :=
  (hostRegWrite_word (by decide) (by decide) v s).trans (congrArg _ (writeCmd_busy h v))

/-- Settles O11: by the register at each offset. -/
theorem registerWriteEffects : Obligations.RegisterWriteEffects := by
  intro s v
  have hwrite {o : Nat} {t : State} (ht : s.writeReg (Reg.ofOffset o) v = t) (h4 : o % 4 = 0 := by decide)
      (h : o < 0x100 := by decide) : hostRegWrite .word o v s = .next t :=
    (hostRegWrite_word h4 h v s).trans (congrArg _ ht)
  exact ⟨hwrite rfl, hwrite (writeStatus_eq s v), (hostRegWrite_cmd_idle · v), (hostRegWrite_cmd_busy · v),
    hwrite rfl, hwrite rfl, hwrite rfl, hwrite rfl, hwrite rfl, hwrite rfl,
    fun o h4 h ho => hwrite (writeReg_ofOffset_readOnly h4 ho s v) h4 h⟩

/-! ### Acceptance and drop (rules R118, R119) -/

/-- Settles O7: acceptance latches the word and the argument registers. -/
theorem cmdWriteAccepts : Obligations.CmdWriteAccepts := by
  intro s w h
  exact ⟨s.latchOf w, hostRegWrite_cmd_idle h w, rfl, rfl, rfl, rfl, rfl, BitVec_append_toNat _ _,
    (s.accept w).statusWord_getLsbD 0⟩

/-- DROPPED passes through every completion (rules R54, R119). -/
theorem complete_dropCmd (s : State) (r : CmdResult) : s.dropCmd.complete r = (s.complete r).dropCmd := by
  cases r <;> rfl

/-- Settles O8: the completion does not read DROPPED (`coreTurn_congr`) and does not write it. -/
theorem cmdWriteWhileBusyIsDropped : Obligations.CmdWriteWhileBusyIsDropped := by
  intro s l w hl
  refine ⟨hostRegWrite_cmd_busy (by rw [hl]; exact Option.some_ne_none l) w, fun t ht => ?_⟩
  obtain ⟨r, rfl, hdrop⟩ := coreTurn_congr (s' := s.dropCmd) hl hl rfl rfl rfl ht
  exact hdrop.trans (congrArg _ (complete_dropCmd s r))

/-! ### The latched command runs (rules R120, R122) -/

theorem coreTurn_command {s : State} {l : Latch} {i : Instr} (hl : s.lat = some l) (hd : decode l.op = .command i) :
    coreTurn s = exec i s := by
  simp only [coreTurn, hl, hd]

/-- Settles O4: the turn taken is the Core's, listed or not, and the Core's turn is exec of the decoded word. -/
theorem stepRunsLatchedCommand : Obligations.StepRunsLatchedCommand := by
  intro s l i hl hd
  exact ⟨fun h => (step_unlisted h).trans (coreTurn_command hl hd),
    fun rest h => (step_core h).trans (coreTurn_command (s := { s with turns := rest }) hl hd)⟩

end Sys2Proof.Machine

/-! PROOFS. The family 43_encode.md: ENCODE of nothing, of an absent sample and of one distinct symbol, and the round trip through
DECODE. -/
namespace Sys2Proof.Machine

/-! ### ENCODE of nothing (rule R129) -/

/-- A region without bytes is clear of the register window (rules R63, R72). -/
theorem windowClear_empty (p : Params) (a : Nat) : WindowClear p a 0 := fun _ _ => .inl rfl

theorem completeOk_empty (s : State) : s.completeOk CmdOk.empty = s.succeededEmpty := rfl

theorem resultOf_encode_nothing {s : State} {l : Latch} (ha : EncodeArgsOk s.params l) (hn : l.n.toNat = 0) :
    resultOf .encode s l = .ok CmdOk.empty := by
  rw [resultOf, encodeCommand_of_args ha, if_pos hn]

/-- With no sample both regions are empty, so that the window stops nothing. -/
theorem execEncode_nothing {s : State} {l : Latch} (hl : s.lat = some l) (ha : EncodeArgsOk s.params l)
    (hn : l.n.toNat = 0) : exec .encode s = .next s.succeededEmpty := by
  have hr := resultOf_encode_nothing ha hn
  have hadm : commandAdmitted .encode s l = true := by
    refine (encodeAdmitted_iff s l).mpr fun _ => ⟨?_, fun r hr' => ?_⟩
    · rw [hn]
      exact windowClear_empty _ _
    · cases hr.symm.trans hr'
      exact windowClear_empty _ _
  rw [exec_eq hl hadm, hr, State.complete, completeOk_empty]

/-- Settles O40: no sample is read and nothing is chosen, so the lifecycle plays no part. -/
theorem encodeOfNothingSucceeds : Obligations.EncodeOfNothingSucceeds := by
  intro s l hl ha hn
  exact execEncode_nothing hl ha (congrArg BitVec.toNat hn)

/-! ### The first absent sample (rules R131, R156) -/

theorem chooseTable_firstAbsent {table : CodeTable} {xs : List Symbol} {k : Nat} {x : Symbol} (tree : Tree)
    (hk : xs[k]? = some x) (hx : CodeTable.code table x = none)
    (hleast : ∀ j < k, ∀ y, xs[j]? = some y → (CodeTable.code table y).isSome) :
    chooseTable (.ready tree table) xs = .error .unknownSymbol (k + x.toNat * 2 ^ 32) := by
  have hf := firstAbsent_of_least table xs 0 k x hk hx hleast
  rw [Nat.zero_add] at hf
  rw [chooseTable, hf]

/-- An ENCODE that ends with an error writes no word: clear samples are enough for it to be admitted (rules R63, R77). -/
theorem execEncode_error {s : State} {l : Latch} {e : CmdError} {info : Nat} (hl : s.lat = some l)
    (hw : WindowClear s.params l.src.toNat (2 * l.n.toNat)) (hr : resultOf .encode s l = .error e info) :
    exec .encode s = .next (s.failedWith e (BitVec.ofNat 64 info)) := by
  have hadm : commandAdmitted .encode s l = true :=
    (encodeAdmitted_iff s l).mpr fun _ => ⟨hw, fun r hr' => by cases hr.symm.trans hr'⟩
  rw [exec_eq hl hadm, hr, State.complete, State.raiseErr_eq_failedWith]

/-- An index below 2^32 and a symbol above it fit ERRINFO without loss (rule R156). -/
theorem errinfo_toNat {k : Nat} (hk : k < 2 ^ 32) (x : Symbol) :
    (BitVec.ofNat 64 (k + x.toNat * 2 ^ 32)).toNat = k + x.toNat * 2 ^ 32 := by
  have hx := x.isLt
  rw [BitVec.toNat_ofNat]
  omega

/-- Settles O43: the scan of the samples stops at the least index without a code. -/
theorem readyEncodeNamesFirstAbsent : Obligations.ReadyEncodeNamesFirstAbsent := by
  intro s l tree table k x hl hlife ha hk hx hleast hw
  have hkn : k < l.n.toNat := samples_length s l ▸ (List.getElem?_eq_some_iff.mp hk).1
  have hc := chooseTable_firstAbsent tree hk hx fun j hj y hy => Option.isSome_iff_exists.mpr (hleast j hj y hy)
  have hr : resultOf .encode s l = .error .unknownSymbol (k + x.toNat * 2 ^ 32) := by
    rw [resultOf_encode_samples ha (Nat.ne_zero_of_lt hkn), hlife, hc]
  rw [errinfo_toNat (hkn.trans l.n.isLt)]
  exact ⟨execEncode_error hl hw hr, by omega, by omega⟩

/-! ### One distinct symbol (rule R135) -/

/-- Symbols that all have the empty code give the empty stream. -/
theorem codesOf_eq_nil {table : CodeTable} {xs : List Symbol} {x : Symbol} (hx : CodeTable.code table x = some [])
    (hall : ∀ y ∈ xs, y = x) : codesOf table xs = [] := by
  refine List.flatMap_eq_nil_iff.mpr fun y hy => ?_
  rw [hall y hy, hx, Option.getD_some]

/-- The table of one leaf (rules R103, R109). -/
theorem derive_leaf (i f : Nat) (x : Symbol) : derive (.leaf i x f) = [(x.toNat, [])] := rfl

theorem code_singleton (x : Symbol) (c : Bits) : CodeTable.code [(x.toNat, c)] x = some c := if_pos rfl

/-- An empty stream takes no word: it fits whatever the capacity, wherever dst is an address of the space or its end (rules
R71, R72). -/
theorem encodeFits_nil {p : Params} {l : Latch} (h : l.dst.toNat ≤ dmaSize p) : EncodeFits p l 0 := by
  rw [EncodeFits, wordCount_zero, Nat.zero_mul]
  exact ⟨Nat.zero_le _, h, .inr (.inl rfl)⟩

/-- Completion with an empty stream writes no byte and reports n (rules R121, R135). -/
theorem completeOk_encodeOk_nil (s : State) (l : Latch) (commit : Option (Tree × CodeTable)) :
    s.completeOk (encodeOk s.params l [] commit) = { s.succeededEmpty with
      resSymcnt := l.n, life := committedLife s.life commit, nsym := committedNsym s.nsym commit } := by
  rw [completeOk_encodeOk, List.length_nil, wordCount_zero]
  rfl

/-- ENCODE whose samples are one symbol of empty code: no word, so that only the samples can meet the window (rule R135). -/
theorem execEncode_oneSymbol {s : State} {l : Latch} {x : Symbol} {commit : Option (Tree × CodeTable)}
    (hl : s.lat = some l) (ha : EncodeArgsOk s.params l) (hd : l.dst.toNat ≤ dmaSize s.params) (hn : l.n.toNat ≠ 0)
    (hall : ∀ y ∈ s.samples l, y = x) (hw : WindowClear s.params l.src.toNat (2 * l.n.toNat))
    (hc : chooseTable s.life (s.samples l) = .use [(x.toNat, [])] commit) :
    exec .encode s = .next { s.succeededEmpty with
      resSymcnt := l.n, life := committedLife s.life commit, nsym := committedNsym s.nsym commit } := by
  have hbits := codesOf_eq_nil (code_singleton x []) hall
  have hfits := execEncode_fits hl ha hn hc
  rw [hbits] at hfits
  have hclear : EncodeClear s.params l 0 := by
    refine ⟨hw, ?_⟩
    rw [wordCount_zero, Nat.zero_mul]
    exact windowClear_empty _ _
  rw [(hfits (encodeFits_nil hd)).2 hclear, completeOk_encodeOk_nil]

/-- Settles O44: primed, the tree is the one leaf; in Ready, the table holds the symbol. -/
theorem oneSymbolEncodeCompletes : Obligations.OneSymbolEncodeCompletes := by
  intro s l x hl ha hd hn hall hw
  have hn' := word_toNat_ne_zero hn
  refine ⟨fun hu => ?_, fun tree hlife => ?_⟩
  · have hb := build_single (samples_ne_nil hn') hall
    rw [samples_length] at hb
    have hc : chooseTable s.life (s.samples l) =
        .use [(x.toNat, [])] (some (.leaf 0 x l.n.toNat, [(x.toNat, [])])) := by
      simp only [hu, chooseTable, hb, derive_leaf]
    rw [execEncode_oneSymbol hl ha hd hn' hall hw hc]
    rfl
  · have hc : chooseTable s.life (s.samples l) = .use [(x.toNat, [])] none := by
      rw [hlife]
      refine chooseTable_ready fun y hy => ?_
      rw [hall y hy, code_singleton, Option.isSome_some]
    exact execEncode_oneSymbol hl ha hd hn' hall hw hc

/-! ### What DECODE does with codes (rules R143, R144) -/

/-- The codes of some symbols of the tree decode to them, for a tree of one leaf too (rules R143, R144). -/
theorem decodeBits_codesOf {root : Tree} {out : List Symbol} (hm : ∀ x ∈ out, x ∈ root.symbols) :
    decodeBits root (codesOf (derive root) out) out.length = .ok out := by
  cases root with
  | leaf i x f =>
    have hall : ∀ y ∈ out, y = x := fun y hy => List.mem_singleton.mp (hm y hy)
    rw [derive_leaf, codesOf_eq_nil (code_singleton x []) hall]
    exact congrArg WalkResult.ok (List.eq_replicate_of_mem hall).symm
  | internal i f left right =>
    have hleft := leafCount_pos left
    have hright := leafCount_pos right
    exact decodeBits_codes (by rw [Tree.leafCount]; omega) hm

/-- DECODE of no bit into no symbol: both regions are empty (rule R140). -/
theorem execDecode_nothing {s : State} {l : Latch} (hl : s.lat = some l) (ha : DecodeArgsOk s.params l)
    (hn : l.n.toNat = 0) (hb : l.bitcnt.toNat = 0) : exec .decode s = .next s.succeededEmpty := by
  have hadm : commandAdmitted .decode s l = true := by
    refine (decodeAdmitted_iff s l).mpr fun _ => ?_
    rw [DecodeClear, hn, hb, wordCount_zero, Nat.zero_mul]
    exact ⟨windowClear_empty _ _, windowClear_empty _ _⟩
  rw [exec_eq hl hadm, resultOf, decodeCommand_of_args ha, if_pos ⟨hn, hb⟩, State.complete, completeOk_empty]

/-- DECODE of the codes of E symbols of the tree writes these symbols (rules R139, R145). -/
theorem execDecode_codes {s : State} {l : Latch} {tree : Tree} {table : CodeTable} {out : List Symbol}
    (hl : s.lat = some l) (ha : DecodeArgsOk s.params l) (hclear : DecodeClear s.params l)
    (hlife : s.life = .ready tree table) (h0 : ¬(l.n.toNat = 0 ∧ l.bitcnt.toNat = 0)) (hlen : out.length = l.n.toNat)
    (hm : ∀ x ∈ out, x ∈ tree.symbols) (hs : s.stream l = codesOf (derive tree) out) :
    exec .decode s = .next (s.completeOk (decodeOk s.params l out)) := by
  have hr : resultOf .decode s l = .ok (decodeOk s.params l out) := by
    have hd := decodeBits_codesOf hm
    rw [← hs, ← inputBits_eq_stream, hlen] at hd
    simp only [resultOf, decodeCommand_of_args ha, if_neg h0, hlife, hd]
  rw [exec_eq hl ((decodeAdmitted_iff s l).mpr fun _ => hclear), hr, State.complete]

/-! ### The round trip (rule R147) -/

/-- In a coherent state the table ENCODE chooses is the one DERIVE makes of the tree it leaves, and that tree has every sample
as a leaf (rules R109, R130, R131). -/
theorem chooseTable_coherent {s : State} {xs : List Symbol} {table : CodeTable} {commit : Option (Tree × CodeTable)}
    (hi : s.Inv) (hne : xs ≠ []) (h : chooseTable s.life xs = .use table commit) :
    ∃ tree, table = derive tree ∧ committedLife s.life commit = .ready tree table ∧ ∀ x ∈ xs, x ∈ tree.symbols := by
  rcases chooseTable_use h with ⟨-, tree, hb, rfl, rfl⟩ | ⟨tree, hlife, rfl, hcov⟩
  · obtain ⟨tree', hb', -, hm, -⟩ := build_count hne
    obtain rfl : tree = tree' := Option.some.inj (hb.symm.trans hb')
    exact ⟨tree, rfl, rfl, fun x => (hm x).mpr⟩
  · obtain ⟨-, -, -, rfl, -⟩ := hi.ready hlife
    refine ⟨tree, rfl, hlife, fun x hx => ?_⟩
    rw [← pathTo_isSome, ← code_derive]
    exact hcov x hx

/-- An ENCODE that succeeds has passed its argument checks (rule R128). -/
theorem execEncode_success_args {s t : State} {l : Latch} (hl : s.lat = some l) (h : exec .encode s = .next t)
    (he : t.err = none) : EncodeArgsOk s.params l := by
  obtain ⟨l', hl', -, rfl⟩ := exec_next h
  obtain rfl : l = l' := Option.some.inj (hl.symm.trans hl')
  obtain ⟨r, hr, -⟩ := complete_err_eq_none he
  exact (encodeCommand_ok hr).1

/-- DECODE of what an ENCODE of no sample reports: both leave memory alone and every result 0 (rules R129, R140). -/
theorem roundTrip_nothing {s t : State} {l d : Latch} (hl : s.lat = some l) (hn : l.n.toNat = 0)
    (h : exec .encode s = .next t) (he : t.err = none) (hbit : d.bitcnt = t.resBitcnt) (hdn : d.n = l.n)
    (ha : DecodeArgsOk s.params d) :
    exec .decode { t with lat := some d } = .next s.succeededEmpty ∧ s.samples l = [] := by
  cases h.symm.trans (execEncode_nothing hl (execEncode_success_args hl h he) hn)
  exact ⟨execDecode_nothing (l := d) rfl ha (hdn ▸ hn) (by rw [hbit]; rfl),
    List.length_eq_zero_iff.mp ((samples_length s l).trans hn)⟩

/-- DECODE of what an ENCODE of at least one sample wrote: its input bits are the stream ENCODE packed, the codes of the samples
in the tree ENCODE left. -/
theorem roundTrip_samples {s t : State} {l d : Latch} (hi : s.Inv) (hl : s.lat = some l) (hn : l.n.toNat ≠ 0)
    (h : exec .encode s = .next t) (he : t.err = none) (hsrc : d.src = l.dst) (hbit : d.bitcnt = t.resBitcnt)
    (hdn : d.n = l.n) (ha : DecodeArgsOk s.params d) (hw : WindowClear s.params d.dst.toNat (2 * d.n.toNat)) :
    exec .decode { t with lat := some d } =
      .next (State.completeOk { t with lat := some d } (decodeOk s.params d (s.samples l))) := by
  have hargs := execEncode_success_args hl h he
  obtain ⟨table, commit, hc, hf, rfl⟩ := execEncode_success hl hn h he
  obtain ⟨tree, rfl, hlife, hm⟩ := chooseTable_coherent hi (samples_ne_nil hn) hc
  have hB : d.bitcnt.toNat = (codesOf (derive tree) (s.samples l)).length := by
    rw [hbit, State.completeOk_resBitcnt, BitVec.toNat_ofNat]
    exact Nat.mod_eq_of_lt (lt_trans hf.bounds.1 (by decide))
  have hclear : EncodeClear s.params l (codesOf (derive tree) (s.samples l)).length := by
    by_contra hcovered
    cases h.symm.trans ((execEncode_fits hl hargs hn hc hf).1 hcovered)
  refine execDecode_codes rfl ha ⟨?_, hw⟩ hlife (fun h0 => hn (hdn ▸ h0.1)) ?_ hm ?_
  · rw [hsrc, hB]
    exact hclear.2
  · rw [samples_length, hdn]
  · rw [State.stream, hB, hsrc]
    exact streamBits_packWords _ _ _ _ _ (le_wordCount_mul _ _)

/-- Settles O57: what DECODE writes is what it reads back, with nothing to write where there was no sample. -/
theorem roundTrip : Obligations.RoundTrip := by
  intro s t l d hi hl h he hsrc hbit hdn ha hw
  by_cases hn : l.n.toNat = 0
  · obtain ⟨hdec, hnil⟩ := roundTrip_nothing hl hn h he hbit hdn ha
    refine ⟨_, hdec, rfl, (BitVec.eq_of_toNat_eq hn).symm, ?_⟩
    rw [hnil, hdn, hn]
    rfl
  · refine ⟨_, roundTrip_samples hi hl hn h he hsrc hbit hdn ha hw, rfl, ?_, ?_⟩
    · rw [State.completeOk_resSymcnt, decodeOk, BitVec.ofNat_toNat, BitVec.setWidth_eq, hdn]
    · rw [State.completeOk_mem, hdn, ← samples_length s l]
      exact readSamples_writeElems _ _ _

end Sys2Proof.Machine

/-! PROOFS. The family 44_decode.md: DECODE of nothing, while Uninitialized, with a one-leaf tree, every outcome of the walk, and
the bits DECODE does not read. -/
namespace Sys2Proof.Machine

/-! ### The stream (rule R142) -/

theorem stream_length (s : State) (l : Latch) : (s.stream l).length = l.bitcnt.toNat := by
  rw [State.stream, List.length_map, List.length_range]

theorem stream_eq_nil_iff (s : State) (l : Latch) : s.stream l = [] ↔ l.bitcnt = 0 := by
  rw [← List.length_eq_zero_iff, stream_length, BitVec.toNat_eq]
  rfl

/-- The empty case, E = 0 and B = 0, on the registers or on their values (rule R140). -/
theorem emptyCase_iff (l : Latch) : (l.n.toNat = 0 ∧ l.bitcnt.toNat = 0) ↔ (l.n = 0 ∧ l.bitcnt = 0) := by
  rw [BitVec.toNat_eq, BitVec.toNat_eq]
  rfl

theorem ofNat_toNat_same {w : Nat} (x : BitVec w) : BitVec.ofNat w x.toNat = x := by
  rw [BitVec.ofNat_toNat, BitVec.setWidth_eq]

/-! ### How DECODE ends (rules R139, R141, R152) -/

/-- The command's end, by what decoding the stream gives (rules R139, R143). -/
def decodeAnswer (p : Params) (l : Latch) : WalkResult → CmdResult
  | .ok out => .ok (decodeOk p l out)
  | .error e consumed => .error e consumed

theorem resultOf_decode_uninitialized {s : State} {l : Latch} (ha : DecodeArgsOk s.params l)
    (h0 : ¬(l.n = 0 ∧ l.bitcnt = 0)) (hlife : s.life = .uninitialized) : resultOf .decode s l = .error .uninit 0 := by
  rw [resultOf, decodeCommand_of_args ha, if_neg (mt (emptyCase_iff l).mp h0), hlife]

theorem resultOf_decode_ready {s : State} {l : Latch} {tree : Tree} {table : CodeTable} (ha : DecodeArgsOk s.params l)
    (h0 : ¬(l.n = 0 ∧ l.bitcnt = 0)) (hlife : s.life = .ready tree table) :
    resultOf .decode s l = decodeAnswer s.params l (decodeBits tree (s.stream l) l.n.toNat) := by
  rw [resultOf, decodeCommand_of_args ha, if_neg (mt (emptyCase_iff l).mp h0), hlife, inputBits_eq_stream]
  dsimp only
  cases decodeBits tree (s.stream l) l.n.toNat <;> rfl

theorem execDecode_eq {s : State} {l : Latch} (hl : s.lat = some l) (hclear : DecodeClear s.params l) :
    exec .decode s = .next (s.complete (resultOf .decode s l)) :=
  exec_eq hl ((decodeAdmitted_iff s l).mpr fun _ => hclear)

theorem execDecode_error {s : State} {l : Latch} {e : CmdError} {info : Nat} (hl : s.lat = some l)
    (hclear : DecodeClear s.params l) (hr : resultOf .decode s l = .error e info) :
    exec .decode s = .next (s.failedWith e (BitVec.ofNat 64 info)) := by
  rw [execDecode_eq hl hclear, hr, State.complete, State.raiseErr_eq_failedWith]

/-- The state after a DECODE that succeeds, field by field (rules R121, R145). -/
theorem completeOk_decodeOk (s : State) (l : Latch) (out : List Symbol) :
    s.completeOk (decodeOk s.params l out) = { s.succeededEmpty with
      resBitcnt := l.bitcnt
      resWordcnt := BitVec.ofNat 32 (wordCount s.params l.bitcnt.toNat)
      resSymcnt := l.n
      mem := writeElems 2 s.mem l.dst.toNat (out.map BitVec.toNat) } := by
  simp only [State.completeOk, State.finish, decodeOk, ofNat_toNat_same]
  rfl

/-! ### DECODE of nothing, and while Uninitialized (rules R140, R141) -/

/-- With no symbol expected, the first bit is a bit too many, for a tree of one leaf too (rules R140, R143, R144). -/
theorem decodeBits_zero (root : Tree) {bits : Bits} (h : bits ≠ []) : decodeBits root bits 0 = .error .leftoverBits 0 := by
  obtain ⟨b, bits, rfl⟩ := List.exists_cons_of_ne_nil h
  cases root <;> rfl

/-- Settles O51: the lifecycle is looked at before the stream. -/
theorem decodeNeedsReady : Obligations.DecodeNeedsReady := by
  intro s l hl ha hclear h0 hlife
  exact execDecode_error hl hclear (resultOf_decode_uninitialized ha h0 hlife)

/-- Settles O50: with B = 0 no region has a byte and the lifecycle plays no part. -/
theorem decodeOfNothing : Obligations.DecodeOfNothing := by
  intro s l hl ha hn
  refine ⟨fun hb => ?_, fun hb hclear hlife => ?_, fun hb hclear hlife => ?_⟩
  · obtain ⟨hn', hb'⟩ := (emptyCase_iff l).mpr ⟨hn, hb⟩
    exact execDecode_nothing hl ha hn' hb'
  · exact decodeNeedsReady s l hl ha hclear (fun h => hb h.2) hlife
  · cases hs : s.life with
    | uninitialized => exact absurd hs hlife
    | ready tree table =>
      refine execDecode_error (info := 0) hl hclear ?_
      have hn' : l.n.toNat = 0 := congrArg BitVec.toNat hn
      rw [resultOf_decode_ready ha (fun h => hb h.2) hs, hn', decodeBits_zero tree (mt (stream_eq_nil_iff s l).mp hb),
        decodeAnswer]

/-! ### A one-leaf tree (rule R144) -/

theorem decodeBits_leaf_nil (i f : Nat) (x : Symbol) (e : Nat) :
    decodeBits (.leaf i x f) [] e = .ok (List.replicate e x) := rfl

theorem decodeBits_leaf_bits (i f : Nat) (x : Symbol) {bits : Bits} (h : bits ≠ []) (e : Nat) :
    decodeBits (.leaf i x f) bits e = .error .leftoverBits 0 :=
  if_pos (mt List.length_eq_zero_iff.mp h)

/-- Settles O52: the one code is empty, so that no bit is right and every bit is one too many. -/
theorem oneSymbolDecode : Obligations.OneSymbolDecode := by
  intro s l i f x table hl ha hclear hlife
  refine ⟨fun hb hn => ?_, fun hb => ?_⟩
  · have hb' : l.bitcnt.toNat = 0 := congrArg BitVec.toNat hb
    have hr := resultOf_decode_ready ha (fun h => hn h.1) hlife
    rw [(stream_eq_nil_iff s l).mpr hb, decodeBits_leaf_nil, decodeAnswer] at hr
    rw [execDecode_eq hl hclear, hr, State.complete, completeOk_decodeOk, hb', wordCount_zero, hb, List.map_replicate]
    rfl
  · refine execDecode_error (info := 0) hl hclear ?_
    rw [resultOf_decode_ready ha (fun h => hb h.2) hlife,
      decodeBits_leaf_bits i f x (mt (stream_eq_nil_iff s l).mp hb), decodeAnswer]

/-! ### The codes of E symbols (rules R139, R145) -/

/-- Settles O53: the walk gives these symbols back. -/
theorem decodeOfCodesCompletes : Obligations.DecodeOfCodesCompletes := by
  intro s l tree out hl ha hclear hlife _ h0 hlen hm hs
  rw [execDecode_codes hl ha hclear hlife (mt (emptyCase_iff l).mp h0) hlen hm hs, completeOk_decodeOk]

/-! ### Every outcome of the walk (rule R143) -/

/-- How the walk ends on a stream of `b` bits that is the codes of `out` and then `rest`, with `e` symbols expected. -/
def walkEnd (table : CodeTable) (e b : Nat) (out : List Symbol) (rest : Bits) : WalkResult :=
  if out.length = e then if rest = [] then .ok out else .error .leftoverBits (codesOf table out).length
  else if rest = [] then .error .shortStream b else .error .midCode b

/-- `bits` is the codes of `out` and then `rest`, where at most `e` symbols are taken and the rest is less than a code unless
all `e` are (rule R143). -/
structure WalkSplit (root : Tree) (bits : Bits) (e : Nat) (out : List Symbol) (rest : Bits) : Prop where
  mem : ∀ x ∈ out, x ∈ root.symbols
  split : bits = codesOf (derive root) out ++ rest
  le : out.length ≤ e
  properPrefix : out.length ≠ e → ∃ x c, CodeTable.code (derive root) x = some c ∧ rest <+: c ∧ rest ≠ c

/-- The codes of at least one symbol of a tree of at least two leaves have a bit (rules R107, R111). -/
theorem codesOf_ne_nil {root : Tree} (hr : root.isLeaf = false) {out : List Symbol} (hm : ∀ x ∈ out, x ∈ root.symbols)
    (h : out ≠ []) : codesOf (derive root) out ≠ [] := by
  obtain ⟨x, out, rfl⟩ := List.exists_cons_of_ne_nil h
  obtain ⟨c, hc⟩ := (exists_pathTo_iff root x).mpr (hm x List.mem_cons_self)
  cases root with
  | leaf i y f => cases hr
  | internal i f left right =>
    rw [codesOf_derive, List.flatMap_cons, hc, Option.getD_some]
    exact List.append_ne_nil_of_left_ne_nil (pathTo_internal_ne_nil hc) _

theorem codesOf_append (table : CodeTable) (xs ys : List Symbol) :
    codesOf table (xs ++ ys) = codesOf table xs ++ codesOf table ys := List.flatMap_append

/-- The greedy split of the stream is one of `WalkSplit`, cut after E symbols where it has more, and the walk ends as it says
(rule R143). -/
theorem exists_walkSplit {root : Tree} (hr : root.isLeaf = false) (hn : root.symbols.Nodup) (bits : Bits) (e : Nat) :
    ∃ out rest, WalkSplit root bits e out rest ∧
      decodeBits root bits e = walkEnd (derive root) e bits.length out rest := by
  obtain ⟨all, tail, hall, hbits, htail⟩ := split_codes root hr hn bits.length bits le_rfl
  rw [← codesOf_derive] at hbits
  rw [decodeBits_internal hr]
  rcases Nat.lt_or_ge e all.length with hmore | hle
  · have hlen : (all.take e).length = e := List.length_take_of_le hmore.le
    have hdrop : all.drop e ≠ [] := List.ne_nil_of_length_pos (by rw [List.length_drop]; omega)
    have hcut : all.take e ++ all.drop e = all := List.take_append_drop e all
    have hrest : codesOf (derive root) (all.drop e) ++ tail ≠ [] :=
      List.append_ne_nil_of_left_ne_nil
        (codesOf_ne_nil hr (fun x hx => hall x (List.mem_of_mem_drop hx)) hdrop) tail
    refine ⟨all.take e, codesOf (derive root) (all.drop e) ++ tail,
      ⟨fun x hx => hall x (List.mem_of_mem_take hx), ?_, hlen.le, fun h => absurd hlen h⟩, ?_⟩
    · rw [hbits, ← List.append_assoc, ← codesOf_append, hcut]
    · have hw := walk_surplus hr (hcut.symm ▸ hall) hdrop tail
      rw [hcut, ← hbits, hlen] at hw
      rw [hw, walkEnd, if_pos hlen, if_neg hrest]
  · refine ⟨all, tail, ⟨hall, hbits, hle, fun _ => ?_⟩, ?_⟩
    · obtain ⟨x, c, hc, hpre⟩ := exists_code_extending hn htail
      exact ⟨x, c, (code_derive root x).trans hc, hpre⟩
    · have hb : bits.length = (codesOf (derive root) all).length + tail.length := by rw [hbits, List.length_append]
      rw [hb, hbits, walk_outcome hr hall htail e hle, walkEnd]
      by_cases ht : tail = []
      · rw [ht]
        rfl
      · simp only [if_neg ht]

/-- Settles O54: the status and ERRINFO are those of the walk's end, and a success writes the symbols it reads back. -/
theorem decodeWalkOutcomes : Obligations.DecodeWalkOutcomes := by
  intro s l tree table hi hl ha hclear hlife h2 h0
  obtain ⟨hnodup, -, -, rfl, -⟩ := hi.ready hlife
  obtain ⟨out, rest, ⟨hm, hsplit, hle, hprefix⟩, hd⟩ := exists_walkSplit (isLeaf_of_two_le h2) hnodup (s.stream l) l.n.toNat
  have hr := resultOf_decode_ready ha h0 hlife
  rw [hd, stream_length, walkEnd] at hr
  have hinfo := ofNat_toNat_same l.bitcnt
  refine ⟨_, out, rest, execDecode_eq hl hclear, hm, hsplit, hle, ?_⟩
  rw [hr]
  split_ifs with hlen hrest hrest
  · refine ⟨rfl, ?_⟩
    rw [← hlen]
    exact readSamples_writeElems s.mem l.dst.toNat out
  · exact ⟨rfl, rfl⟩
  · exact ⟨rfl, hinfo⟩
  · exact ⟨rfl, hinfo, hprefix hlen⟩

/-! ### The bits DECODE does not read (rule R142) -/

theorem stream_congr {s : State} {l : Latch} {m : Memory}
    (h : ∀ i < l.bitcnt.toNat, streamBit m l.src.toNat i = streamBit s.mem l.src.toNat i) :
    State.stream { s with mem := m } l = s.stream l :=
  List.map_congr_left fun i hi => h i (List.mem_range.mp hi)

/-- Memory enters DECODE's end through the stream only (rules R139, R142). -/
theorem resultOf_decode_congr {s : State} {l : Latch} {m : Memory}
    (h : ∀ i < l.bitcnt.toNat, streamBit m l.src.toNat i = streamBit s.mem l.src.toNat i) :
    resultOf .decode { s with mem := m } l = resultOf .decode s l := by
  have hb : inputBits s.params m l = inputBits s.params s.mem l := by
    rw [inputBits_eq_stream, ← stream_congr h, ← inputBits_eq_stream]
  simp only [resultOf, decodeCommand, hb]

/-- The bytes of the elements written are those of the elements, whatever memory held before. -/
theorem read_writeElems_inside {size : Nat} (hs : 0 < size) (vs : List Nat) (m m' : Memory) {a c : Nat} (h1 : a ≤ c)
    (h2 : c < a + size * vs.length) : Memory.read (writeElems size m a vs) c = Memory.read (writeElems size m' a vs) c := by
  rw [read_writeElems size hs, read_writeElems size hs, if_pos ⟨h1, h2⟩, if_pos ⟨h1, h2⟩]

/-- Completion takes nothing from memory but the bytes it leaves alone (rules R121, R152). -/
theorem complete_mem (s : State) (m : Memory) (r : CmdResult) :
    State.complete { s with mem := m } r =
      { s.complete r with mem := (State.complete { s with mem := m } r).mem } := by
  cases r <;> rfl

/-- Settles O55: both runs end with the same result, and a success writes every byte of the samples it reports. -/
theorem decodeIgnoresBitsPastB : Obligations.DecodeIgnoresBitsPastB := by
  intro s t t' l m hl hagree ht ht'
  obtain ⟨l₁, hl₁, -, rfl⟩ := exec_next ht
  obtain ⟨l₂, hl₂, -, rfl⟩ := exec_next ht'
  obtain rfl : l = l₁ := Option.some.inj (hl.symm.trans hl₁)
  obtain rfl : l = l₂ := Option.some.inj (hl.symm.trans hl₂)
  rw [resultOf_decode_congr hagree]
  refine ⟨complete_mem s m _, fun a h1 h2 => ?_⟩
  cases hr : resultOf .decode s l with
  | error e info =>
    rw [hr] at h2
    exact absurd h2 (Nat.not_lt.mpr h1)
  | ok r =>
    obtain ⟨-, ⟨-, -, rfl⟩ | ⟨-, tree, table, out, -, hd, rfl⟩⟩ := decodeCommand_ok hr
    · rw [hr] at h2
      exact absurd h2 (Nat.not_lt.mpr h1)
    · rw [hr, State.complete, completeOk_decodeOk] at h2
      refine read_writeElems_inside (size := 2) Nat.two_pos (out.map BitVec.toNat) _ _ h1 ?_
      rwa [List.length_map, decodeBits_ok_length hd]

end Sys2Proof.Machine

/-! PROOFS. The family 45_query.md: what QUERY answers in every state, and the bits of RES_CODE. -/
namespace Sys2Proof.Machine

/-! ### What QUERY answers (rule R148) -/

/-- QUERY has no region, so no window stops it (rules R63, R68). -/
theorem execQuery_eq {s : State} {l : Latch} (hl : s.lat = some l) :
    exec .query s = .next (s.complete (queryCommand s.life l)) := exec_eq hl rfl

/-- The results of a QUERY that finds a code (rule R148). -/
def queryOk (c : Bits) : CmdOk := { CmdOk.empty with codelen := c.length, code := codeValue c % 2 ^ 64 }

theorem queryCommand_absent {table : CodeTable} {l : Latch}
    (h : CodeTable.code table (BitVec.ofNat 16 (l.n.toNat % 2 ^ 16)) = none) (tree : Tree) :
    queryCommand (.ready tree table) l = .error .unknownSymbol (l.n.toNat % 2 ^ 16 * 2 ^ 32) := by
  have hsym : l.querySym.toNat = l.n.toNat % 2 ^ 16 := by
    rw [querySym_eq, BitVec.toNat_ofNat, Nat.mod_mod]
  rw [← querySym_eq] at h
  rw [queryCommand, h, ← hsym]

theorem queryCommand_found {table : CodeTable} {l : Latch} {c : Bits}
    (h : CodeTable.code table (BitVec.ofNat 16 (l.n.toNat % 2 ^ 16)) = some c) (tree : Tree) :
    queryCommand (.ready tree table) l = .ok (queryOk c) := by
  rw [← querySym_eq] at h
  rw [queryCommand, h, queryOk]

/-- The state after a QUERY that finds a code: RES_CODE keeps its value mod 2^64 (rules R121, R148). -/
theorem completeOk_queryOk (s : State) (c : Bits) : s.completeOk (queryOk c) = { s.succeededEmpty with
    resCodelen := BitVec.ofNat 32 c.length
    resCode := BitVec.ofNat 64 (codeValue c) } := by
  have hcode : BitVec.ofNat 64 (codeValue c % 2 ^ 64) = BitVec.ofNat 64 (codeValue c) :=
    BitVec.eq_of_toNat_eq (by simp only [BitVec.toNat_ofNat, Nat.mod_mod])
  rw [← hcode]
  rfl

theorem execQuery_found {s : State} {l : Latch} {tree : Tree} {table : CodeTable} {c : Bits} (hl : s.lat = some l)
    (hlife : s.life = .ready tree table)
    (h : CodeTable.code table (BitVec.ofNat 16 (l.n.toNat % 2 ^ 16)) = some c) :
    exec .query s = .next { s.succeededEmpty with
      resCodelen := BitVec.ofNat 32 c.length
      resCode := BitVec.ofNat 64 (codeValue c) } := by
  rw [execQuery_eq hl, hlife, queryCommand_found h, State.complete, completeOk_queryOk]

/-- Settles O58: by the lifecycle, then by whether the table has a code of the symbol. -/
theorem queryAnswers : Obligations.QueryAnswers := by
  intro s l hl
  cases hlife : s.life with
  | uninitialized => exact (execQuery_eq hl).trans (by rw [hlife]; rfl)
  | ready tree table =>
    dsimp only
    cases hc : CodeTable.code table (BitVec.ofNat 16 (l.n.toNat % 2 ^ 16)) with
    | none =>
      dsimp only
      rw [execQuery_eq hl, hlife, queryCommand_absent hc, State.complete, State.raiseErr_eq_failedWith]
    | some c =>
      dsimp only
      rw [execQuery_found hl hlife hc, codeValue_eq_sum]

/-! ### The bits of RES_CODE (rule R149) -/

/-- RES_CODELEN holds a code's length: a path is shorter than the number of leaves, which is at most 2^16 (rules R107, R112). -/
theorem code_length_lt {s : State} {tree : Tree} {table : CodeTable} {x : Symbol} {c : Bits} (hi : s.Inv)
    (hlife : s.life = .ready tree table) (h : CodeTable.code table x = some c) : c.length < 2 ^ 32 := by
  obtain ⟨hnodup, -, -, rfl, -⟩ := hi.ready hlife
  rw [code_derive] at h
  calc c.length < tree.leafCount := pathTo_length_lt tree h
    _ ≤ 2 ^ 16 := leafCount_le hnodup
    _ < 2 ^ 32 := by decide

theorem codeValue_testBit_high (c : Bits) {k : Nat} (hk : c.length ≤ k) : (codeValue c).testBit k = false :=
  Nat.testBit_lt_two_pow (lt_of_lt_of_le (codeValue_lt c) (Nat.pow_le_pow_right Nat.two_pos hk))

/-- Settles O59: RES_CODE's bits below 64 are those of the code's value (`testBit_codeValue`). -/
theorem queryReturnsCodeBits : Obligations.QueryReturnsCodeBits := by
  intro s t l tree table c hi hl hlife hc h
  rw [execQuery_found hl hlife hc] at h
  cases h
  refine ⟨?_, fun j hj h64 => ?_, fun k hk => ?_⟩
  · rw [BitVec.toNat_ofNat, Nat.mod_eq_of_lt (code_length_lt hi hlife hc)]
  · rw [BitVec.getLsbD_ofNat, testBit_codeValue c j hj, decide_eq_true h64, Bool.true_and]
  · rw [BitVec.getLsbD_ofNat, codeValue_testBit_high c hk, Bool.and_false]

end Sys2Proof.Machine

/-! PROOFS. The family 60_exceptions.md: whose turn a step takes, the codes of an error, and the interrupt level. -/
namespace Sys2Proof.Machine

/-! ### The turn a step takes (rules R161, R177) -/

theorem coreTurn_idle {s : State} (h : s.lat = none) : coreTurn s = .next s := by
  rw [coreTurn, h]

/-- Settles O5: a listed turn is the one taken, and the Core's turn is nothing while no command is latched. -/
theorem stepTakesListedTurn : Obligations.StepTakesListedTurn :=
  ⟨fun _ _ _ h => step_host h,
    fun _ hidle h => (step_unlisted h).trans (coreTurn_idle hidle),
    fun s rest hidle h => (step_core h).trans (coreTurn_idle (s := { s with turns := rest }) hidle)⟩

/-! ### The codes of an error (rules R153, R154) -/

theorem State.errField_of_ok {s : State} (h : s.err = none) : s.errField = 0 := by
  rw [State.errField, h]; rfl

theorem State.detailField_of_ok {s : State} (h : s.err = none) : s.detailField = 0 := by
  rw [State.detailField, h]; rfl

theorem State.detailField_of_err {s : State} {e : CmdError} (h : s.err = some e) : s.detailField = e.detail := by
  rw [State.detailField, h]; rfl

/-- Settles O15: the last command was OK, or the fields are the code and the detail of its error, row by row. -/
theorem onlyListedErrorCodes : Obligations.OnlyListedErrorCodes := by
  intro s
  cases h : s.err with
  | none =>
    rw [State.errField_of_ok h, State.detailField_of_ok h]
    exact ⟨rfl, by decide⟩
  | some e =>
    rw [State.errField_of_err h, State.detailField_of_err h]
    cases e <;> exact ⟨rfl, by decide⟩

/-! ### The interrupt level (rules R60, R165) -/

theorem State.irq_eq (s : State) : s.irq = (s.done && s.irqEn) := rfl

/-- A completion raises the level exactly when it is enabled, whatever the command's outcome. -/
theorem State.complete_irq (s : State) (r : CmdResult) : (s.complete r).irq = s.irqEn := by
  obtain ⟨-, hdone, -, hirqEn, -⟩ := complete_frame s r
  rw [State.irq_eq, hdone, hirqEn, Bool.true_and]

theorem State.writeStatus_clears_done (s : State) {v : Word} (h : v.getLsbD 1 = true) : (s.writeStatus v).done = false := by
  rw [State.writeStatus_done, h, Bool.not_true, Bool.and_false]

theorem State.irq_of_not_done {s : State} (h : s.done = false) : s.irq = false := by
  rw [State.irq_eq, h, Bool.false_and]

theorem State.irq_of_masked {s : State} (h : s.irqEn = false) : s.irq = false := by
  rw [State.irq_eq, h, Bool.and_false]

theorem hostRegWrite_ctrl (s : State) (v : Word) : hostRegWrite .word 0x08 v s = .next (s.writeCtrl v) :=
  hostRegWrite_word (by decide) (by decide) v s

theorem hostRegWrite_status (s : State) (v : Word) : hostRegWrite .word 0x0C v s = .next (s.writeStatus v) :=
  hostRegWrite_word (by decide) (by decide) v s

/-- Settles O18: a completion sets DONE and keeps IRQ_EN; of these two, a write of STATUS reaches DONE alone, a write of CTRL
IRQ_EN alone, and a dropped CMD write neither. -/
theorem irqFollowsDoneAndEnable : Obligations.IrqFollowsDoneAndEnable := by
  refine ⟨State.irq_eq, fun s t hbusy h => ?completion, fun s v hv => ?clearDone, fun s v hv => ?mask,
    fun s t w hbusy h => ?droppedCmd⟩
  case completion =>
    obtain ⟨hidle, -⟩ | ⟨l, -, -, rfl⟩ := coreTurn_next h
    · exact absurd hidle hbusy
    · obtain ⟨-, hdone, -⟩ := complete_frame s (resultOfWord s l)
      exact ⟨hdone, s.complete_irq _⟩
  case clearDone =>
    have hdone := s.writeStatus_clears_done hv
    exact ⟨_, hostRegWrite_status s v, hdone, State.irq_of_not_done hdone, s.writeStatus_irqEn v⟩
  case mask =>
    exact ⟨_, hostRegWrite_ctrl s v, State.irq_of_masked ((s.writeCtrl_irqEn v).trans hv), s.writeCtrl_done v⟩
  case droppedCmd =>
    rw [hostRegWrite_cmd_busy hbusy] at h
    cases h
    rw [State.irq_eq, State.irq_eq, State.dropCmd_done, State.dropCmd_irqEn]

end Sys2Proof.Machine

/-! PROOFS. The family 70_reset_and_hazards.md: a write of an argument register while a command is in flight, the accesses the
register port admits, and the state a reset gives. -/
namespace Sys2Proof.Machine

/-! ### Argument writes while a command is in flight (rules R55, R183) -/

/-- The argument registers (rules R42 to R46). -/
def argRegs : List Reg := [.argSrc, .argDst, .argN, .argCap, .argBitcntLo, .argBitcntHi]

/-- s with the argument registers of u. -/
def State.withArgsOf (s u : State) : State :=
  { s with argSrc := u.argSrc, argDst := u.argDst, argN := u.argN, argCap := u.argCap,
           argBitcntLo := u.argBitcntLo, argBitcntHi := u.argBitcntHi }

theorem Reg.ofOffset_mem_argRegs : ∀ o ∈ [0x14, 0x18, 0x1C, 0x20, 0x24, 0x28],
    o % 4 = 0 ∧ o < 0x100 ∧ Reg.ofOffset o ∈ argRegs := by decide

/-- A write of an argument register changes argument registers only, and the register then holds what was written (rule
R116). -/
theorem writeReg_arg {r : Reg} (h : r ∈ argRegs) (s : State) (v : Word) :
    s.writeReg r v = s.withArgsOf (s.writeReg r v) ∧ (s.writeReg r v).regValue r = v := by
  fin_cases h <;> exact ⟨rfl, rfl⟩

/-- The argument registers pass through every completion (rules R41, R54). -/
theorem complete_withArgsOf (s u : State) (r : CmdResult) : (s.withArgsOf u).complete r = (s.complete r).withArgsOf u := by
  cases r <;> rfl

/-- Settles O9: the completion does not read the argument registers (`coreTurn_congr`) and does not write them. -/
theorem argWritesMissTheCommandInFlight : Obligations.ArgWritesMissTheCommandInFlight := by
  intro s l o v hl ho
  obtain ⟨h4, hlt, hr⟩ := Reg.ofOffset_mem_argRegs o ho
  obtain ⟨hargs, hvalue⟩ := writeReg_arg hr s v
  obtain ⟨hparams, hmem, hlife, -, -, hkept⟩ := writeReg_keeps s (Reg.ofOffset o) v
  have hlat : (s.writeReg (Reg.ofOffset o) v).lat = some l := (hkept (by simp [hl])).trans hl
  refine ⟨_, hostRegWrite_word h4 hlt v s, hvalue, hlat, fun t ht => ?_⟩
  obtain ⟨r, rfl, hturn⟩ := coreTurn_congr hl hlat hparams hlife hmem ht
  refine hturn.trans (congrArg _ ?_)
  calc (s.writeReg (Reg.ofOffset o) v).complete r
      = (s.withArgsOf (s.writeReg (Reg.ofOffset o) v)).complete r := congrArg (·.complete r) hargs
    _ = (s.complete r).withArgsOf (s.writeReg (Reg.ofOffset o) v) := complete_withArgsOf _ _ r

/-! ### The accesses the register port admits (rule R181) -/

theorem hostReg_notAdmitted {size : AccessSize} {o : Nat} (h : ¬ accessAdmitted size o = true) (v : Word) (s : State) :
    hostRegWrite size o v s = .fault .accessNotAdmitted ∧ hostRegRead size o s = .fault .accessNotAdmitted :=
  ⟨if_neg h, if_neg h⟩

/-- Settles O17: 0xFC is the last aligned offset below 0x100. -/
theorem admittedAccesses : Obligations.AdmittedAccesses := by
  intro s size o v
  constructor
  · rintro ⟨rfl, h4, hle⟩
    have hlt : o < 0x100 := by omega
    exact ⟨⟨_, hostRegWrite_word h4 hlt v s⟩, _, hostRegRead_word h4 hlt s⟩
  · intro hout
    refine hostReg_notAdmitted (fun hadm => hout ?_) v s
    obtain ⟨hsize, h4, hlt⟩ := (accessAdmitted_iff size o).mp hadm
    exact ⟨hsize, h4, by omega⟩

/-! ### The state after reset (rules R172 to R177) -/

/-- Every register but the two constants is 0 after reset (rule R174). -/
theorem State.reset_regValue {r : Reg} (hid : r ≠ .id) (hparam : r ≠ .param) : State.reset.regValue r = 0 := by
  cases r with
  | id => exact absurd rfl hid
  | param => exact absurd rfl hparam
  | _ => rfl

/-- The reset input leaves every register but PARAM as it is after reset, whatever the state before. -/
theorem State.hwReset_regValue (s : State) {r : Reg} (h : r ≠ .param) : s.hwReset.regValue r = State.reset.regValue r := by
  cases r with
  | param => exact absurd rfl h
  | _ => rfl

theorem State.hwReset_mem_idle {s : State} (h : s.lat = none) : s.hwReset.mem = s.mem := by
  rw [State.hwReset, h]
  rfl

theorem State.hwReset_fresh_idle {s : State} (h : s.lat = none) : s.hwReset.fresh = s.fresh := by
  rw [State.hwReset, h]
  rfl

/-- A reset in mid-command draws one free byte for each byte of the output region (rule R176; log 6). -/
theorem State.hwReset_fresh_busy {s : State} {l : Latch} (h : s.lat = some l) :
    s.hwReset.fresh = s.fresh + (outputRegion s.params s.life s.mem l).len := by
  rw [State.hwReset, h]

/-- Settles O19: both resets leave the registers of `State.reset`, but for PARAM, whose fields are those of admitted
parameters. -/
theorem resetValues : Obligations.ResetValues := by
  intro t ht
  have hnew : t.params.wf = true ∧ (∀ r ≠ .param, t.regValue r = State.reset.regValue r) ∧
      t.lat = none ∧ t.irq = false ∧ t.life = .uninitialized := by
    obtain rfl | ⟨s, hwf, hs⟩ := ht
    · exact ⟨rfl, fun _ _ => rfl, rfl, rfl, rfl⟩
    · cases hs
      exact ⟨hwf, fun _ h => s.hwReset_regValue h, rfl, rfl, rfl⟩
  obtain ⟨hwf, hregs, hidle⟩ := hnew
  obtain ⟨hfields, -⟩ := paramWordFields
  exact ⟨hregs .id (by decide), hfields t.params hwf,
    fun r hid hparam => (hregs r hparam).trans (State.reset_regValue hid hparam), hidle⟩

/-- Settles O20: the new codec is `State.hwReset`, whose latch is empty, so that its Core is idle. -/
theorem resetMakesANewCodec : Obligations.ResetMakesANewCodec := by
  intro s
  have hstep (hturns : s.hwReset.turns = []) : step s.hwReset = .next s.hwReset :=
    (step_unlisted hturns).trans (coreTurn_idle s.hwReset_lat)
  exact ⟨s.hwReset, rfl, s.hwReset_life, s.hwReset_lat, State.irq_of_not_done s.hwReset_done, s.hwReset_params,
    fun _ h => s.hwReset_regValue h, State.hwReset_mem_idle, s.hwReset_turns, s.hwReset_rdata, s.hwReset_mdata,
    State.hwReset_fresh_idle, fun _ h => State.hwReset_fresh_busy h, hstep⟩

/-- Settles O25: memory with nothing listed is canonical, and no cache goes with NSYM = 0. -/
theorem resetMeetsInvariant : Obligations.ResetMeetsInvariant := by
  obtain ⟨hwf, hin⟩ := State.reset_mem_wf
  exact ⟨rfl, hwf, hin, rfl⟩

end Sys2Proof.Machine
